-- ==== Sys2Proof/Word.lean ====
section
/-! DEFINITION. The word types: a byte and a pixel (00_scope.md R7, R10; 10_state.md R21). -/

namespace Sys2Proof

/-- A byte: 8 bits, numbered 7 (most significant) to 0 (00_scope.md R10). -/
abbrev Byte := BitVec 8

/-- A pixel: four ordered 8-bit samples, red, green, blue, alpha (10_state.md R21). Equality is exact on all four. -/
@[ext] structure Pixel where
  r : Byte
  g : Byte
  b : Byte
  a : Byte
  deriving DecidableEq, Repr

/-- The zero pixel (0,0,0,0), which every slot of a fresh cache holds (10_state.md R35). -/
def Pixel.zero : Pixel := { r := 0, g := 0, b := 0, a := 0 }

/-- The value of `PX` and `CUR` at every job start, (0,0,0,255) (10_state.md R35; 70_reset_and_hazards.md R252). -/
def Pixel.start : Pixel := { r := 0, g := 0, b := 0, a := 255 }

end Sys2Proof
end

