-- ==== Sys2Proof/Config.lean ====
section
/-! DEFINITION. The implementation parameters of 00_scope.md R7 and R9, and the free values. -/

namespace Sys2Proof

/-- The parameters the source leaves open and the engine reads (00_scope.md R9: "A model takes them as a
configuration record"). REPEAT_ONCE is no field: it is tied to DIFF_BIAS (30_encoding.md R74, 93 I3). Each bias is the
offset of a range as wide as its field (DESIGN CHOICE, log 24). -/
structure Config where
  /-- DIFF_BIAS: a small delta is in [-bias, 3 - bias] (30_encoding.md R73). -/
  diffBias : BitVec 2
  /-- LUMA_G_BIAS: a green delta is in [-bias, 63 - bias] (30_encoding.md R77). -/
  lumaGBias : BitVec 6
  /-- LUMA_RB_BIAS: a relative delta the encoder writes is in [-bias, 7 - bias] (30_encoding.md R77). -/
  lumaRbBias : BitVec 3
  /-- MAXRUN_MARKER, first byte (30_encoding.md R79). -/
  marker1 : Byte
  /-- MAXRUN_MARKER, second byte. -/
  marker2 : Byte
  /-- LIDX_ON_DIFF: whether a 1-byte small delta may be replaced by a long-index (41_encoder.md R134). -/
  lidxOnDiff : Bool
  /-- PAD_MARKER: the last padding byte (30_encoding.md R86). -/
  padMarker : Byte
  deriving DecidableEq, Repr

namespace Config

/-- The defaults of 00_scope.md R9, which every rule and vector of the spec uses. -/
def default : Config :=
  { diffBias := 2, lumaGBias := 32, lumaRbBias := 4, marker1 := 0xBC, marker2 := 0xF0, lidxOnDiff := true,
    padMarker := 0x01 }

/-- REPEAT_ONCE = `0x40 | (DIFF_BIAS << 4) | (DIFF_BIAS << 2) | DIFF_BIAS` (30_encoding.md R74): the small-delta code of
three zero deltas. -/
def repeatOnce (c : Config) : Byte := 1#2 ++ c.diffBias ++ c.diffBias ++ c.diffBias

/-- The 8 padding bytes of framed mode: "seven zero bytes followed by one fixed marker byte" (30_encoding.md R86). -/
def padding (c : Config) : List Byte := [0, 0, 0, 0, 0, 0, 0, c.padMarker]

/-- A marker the dispatcher can reach and the encoder produces in no other way: it lies in the two-byte group, and it is
neither a canonical long run (v at most 959), nor a long-index, nor a luma delta with nibbles 0..7 (92_eei_decisions.md D9:
"A different marker must be a pair no other rule produces"). -/
def wf (c : Config) : Bool :=
  c.marker1.extractLsb' 6 2 == 2#2 &&
  (if c.marker2.extractLsb' 4 4 == 15#4 then 0xBC#8 ≤ c.marker1
   else c.marker2.extractLsb' 0 4 != 15#4 && (7#4 < c.marker2.extractLsb' 4 4 || 7#4 < c.marker2.extractLsb' 0 4))

/-- MAGIC, the header's first four bytes, first byte most significant: OPEN (00_scope.md R9, 92 D16; log 16). No value is
known, and the engine never reads it. -/
opaque magic : BitVec 32

/-- MAX_PIXELS, the header's pixel-count guard: OPEN (00_scope.md R9, 92 D17; log 16). -/
opaque maxPixels : Nat

/-- The value `RUN` holds after a job that failed in BODY or TAIL, unspecified by 60_exceptions.md R231 (a FREE VALUE, log 17):
nothing is known of it, at any count. -/
opaque freeRun : Nat → BitVec 16

end Config

end Sys2Proof
end

