-- ==== Sys2Proof/Syntax.lean ====
section
/-! DEFINITION. The instruction set: one constructor per row of spec/opcode_table.json (30_encoding.md). -/

namespace Sys2Proof

/-- The opcodes of the QVR stream (00_scope.md R1). The operands are the stream's own fields (30_encoding.md R71, R83): biased
deltas are kept as they stand in the stream, and the meaning subtracts the bias. -/
inductive Instr where
  /-- IDX, direct-index: the primary slot (R72). -/
  | idx (i : BitVec 6)
  /-- DIFF, small-delta: the biased red, green and blue deltas (R73). -/
  | diff (dr dg db : BitVec 2)
  /-- REP1, repeat-once (R74). -/
  | rep1
  /-- LUMA, luma-delta: the biased green delta, and the biased red-minus-green and blue-minus-green deltas (R77). -/
  | luma (dg : BitVec 6) (drg dbg : BitVec 4)
  /-- LRUN, long run: `v`, the run length less 64 (R78). -/
  | lrun (v : BitVec 10)
  /-- MAXRUN, the maximum-run marker (R79). -/
  | maxrun
  /-- LIDX, long-index: the secondary slot (R80). -/
  | lidx (s : BitVec 10)
  /-- RUN, short run: `n`, the run length less 2 (R75). -/
  | run (n : BitVec 6)
  /-- RGB, literal red, green, blue (R81). -/
  | rgb (r g b : Byte)
  /-- RGBA, literal red, green, blue, alpha (R82). -/
  | rgba (r g b a : Byte)
  deriving DecidableEq, Repr

namespace Instr

/-- The opcode's length in bytes (10_state.md R28, 30_encoding.md R70). -/
def len : Instr → Nat
  | .idx _ => 1
  | .diff _ _ _ => 1
  | .rep1 => 1
  | .luma _ _ _ => 2
  | .lrun _ => 2
  | .maxrun => 2
  | .lidx _ => 2
  | .run _ => 1
  | .rgb _ _ _ => 4
  | .rgba _ _ _ _ => 5

end Instr

end Sys2Proof
end

