-- ==== Sys2Proof/WellFormed.lean ====
section
/-! DEFINITION. Which instructions have an encoding of their own (30_encoding.md R74 to R80, R84). -/

namespace Sys2Proof.Instr

/-- A small delta is not REPEAT_ONCE (30_encoding.md R73, R74). -/
def diffOk (c : Config) (dr dg db : BitVec 2) : Bool :=
  !(dr == c.diffBias && dg == c.diffBias && db == c.diffBias)

/-- A pair of bytes is not the MAXRUN_MARKER, which R76 matches first. -/
def notMarker (c : Config) (b1 b2 : Byte) : Bool := !(b1 == c.marker1 && b2 == c.marker2)

/-- A luma delta has no nibble 0xF and is not the marker (30_encoding.md R76, R77). -/
def lumaOk (c : Config) (dg : BitVec 6) (drg dbg : BitVec 4) : Bool :=
  drg != 15#4 && dbg != 15#4 && notMarker c (2#2 ++ dg) (drg ++ dbg)

/-- A long run is not the marker (30_encoding.md R76, R78). -/
def lrunOk (c : Config) (v : BitVec 10) : Bool :=
  notMarker c (2#2 ++ v.extractLsb' 4 6) (15#4 ++ v.extractLsb' 0 4)

/-- The marker lies in the two-byte group, so that the dispatcher reaches it (30_encoding.md R76, R79). -/
def maxrunOk (c : Config) : Bool := c.marker1.extractLsb' 6 2 == 2#2

/-- A long-index slot has a low nibble other than 0xF, and its bytes are not the marker (30_encoding.md R80). -/
def lidxOk (c : Config) (s : BitVec 10) : Bool :=
  s.extractLsb' 0 4 != 15#4 && notMarker c (2#2 ++ s.extractLsb' 4 6) (s.extractLsb' 0 4 ++ 15#4)

/-- A short run's field is at most 0x3D: 0x3E and 0x3F are the literal tags (30_encoding.md R75). -/
def runOk (n : BitVec 6) : Bool := n ≤ 0x3D#6

/-- The instruction is one that some byte sequence of the opcode map stands for (30_encoding.md R84). -/
def wf (c : Config) : Instr → Bool
  | .idx _ => true
  | .diff dr dg db => diffOk c dr dg db
  | .rep1 => true
  | .luma dg drg dbg => lumaOk c dg drg dbg
  | .lrun v => lrunOk c v
  | .maxrun => maxrunOk c
  | .lidx s => lidxOk c s
  | .run n => runOk n
  | .rgb _ _ _ => true
  | .rgba _ _ _ _ => true

end Sys2Proof.Instr
end

