-- ==== Sys2Proof/Decode.lean ====
section
/-! DEFINITION. The decoder, total on any bytes, and the encoder (30_encoding.md R70 to R84, 42_decoder.md R161). -/

namespace Sys2Proof

/-- Why a byte sequence gives no instruction. No sequence is illegal (30_encoding.md R85): only its end can be reached. -/
inductive DecodeError where
  /-- There is no leading byte. -/
  | noLeadingByte
  /-- The leading byte's payload is not all there. -/
  | payloadCut
  deriving DecidableEq, Repr

/-- "A decoder tells the length of an opcode from its first byte" (30_encoding.md R70). -/
def opLen (b1 : Byte) : Nat :=
  if b1 < 0x80 then 1 else if b1 < 0xC0 then 2 else if b1 < 0xFE then 1 else if b1 = 0xFE then 4 else 5

/-- The two-byte group: the opcode is selected from `(b1, b2)` by the first matching line of 30_encoding.md R76. -/
def decodePair (c : Config) (b1 b2 : Byte) : Instr :=
  if b1 = c.marker1 ∧ b2 = c.marker2 then .maxrun
  else if b2.extractLsb' 4 4 = 15#4 then .lrun (b1.extractLsb' 0 6 ++ b2.extractLsb' 0 4)
  else if b2.extractLsb' 0 4 = 15#4 then .lidx (b1.extractLsb' 0 6 ++ b2.extractLsb' 4 4)
  else .luma (b1.extractLsb' 0 6) (b2.extractLsb' 4 4) (b2.extractLsb' 0 4)

/-- The dispatcher's classification (42_decoder.md R161): one opcode off the front of the bytes, and the rest. -/
def decode (c : Config) : List Byte → Except DecodeError (Instr × List Byte)
  | [] => .error .noLeadingByte
  | b1 :: rest =>
    if b1 ≤ 0x3F then .ok (.idx (b1.extractLsb' 0 6), rest)
    else if b1 = c.repeatOnce then .ok (.rep1, rest)
    else if b1 ≤ 0x7F then .ok (.diff (b1.extractLsb' 4 2) (b1.extractLsb' 2 2) (b1.extractLsb' 0 2), rest)
    else if b1 ≤ 0xBF then
      match rest with
      | b2 :: rest => .ok (decodePair c b1 b2, rest)
      | _ => .error .payloadCut
    else if b1 ≤ 0xFD then .ok (.run (b1.extractLsb' 0 6), rest)
    else if b1 = 0xFE then
      match rest with
      | r :: g :: b :: rest => .ok (.rgb r g b, rest)
      | _ => .error .payloadCut
    else
      match rest with
      | r :: g :: b :: a :: rest => .ok (.rgba r g b a, rest)
      | _ => .error .payloadCut

/-- The bytes of an instruction, first byte first (30_encoding.md R72 to R82, R87). -/
def encode (c : Config) : Instr → List Byte
  | .idx i => [0#2 ++ i]
  | .diff dr dg db => [1#2 ++ dr ++ dg ++ db]
  | .rep1 => [c.repeatOnce]
  | .luma dg drg dbg => [2#2 ++ dg, drg ++ dbg]
  | .lrun v => [2#2 ++ v.extractLsb' 4 6, 15#4 ++ v.extractLsb' 0 4]
  | .maxrun => [c.marker1, c.marker2]
  | .lidx s => [2#2 ++ s.extractLsb' 4 6, s.extractLsb' 0 4 ++ 15#4]
  | .run n => [3#2 ++ n]
  | .rgb r g b => [0xFE, r, g, b]
  | .rgba r g b a => [0xFF, r, g, b, a]

/-- The bytes of a sequence of instructions, in stream order (20_memory.md R52: contiguous, no filler). -/
def encodeAll (c : Config) (is : List Instr) : List Byte := is.flatMap (encode c)

/-- The byte of `w` that begins at bit `8 * k`. -/
def byteAt (w k : Nat) : Byte := BitVec.ofNat 8 (w >>> (8 * k))

/-- An opcode-table word as the stream stores it, filled up with zeros to the longest opcode, 5 bytes. The table's 16-bit
rows are numbered "over b1<<8 | b2", so their first byte is bits 15..8; in every other row match and mask "apply to the
leading byte", which is bits 7..0, and later bytes count on from it (DEDUCED, log 14). -/
def tableBytes (nbits w : Nat) : List Byte :=
  let v := w % 2 ^ nbits
  if nbits = 16 then [byteAt v 1, byteAt v 0, 0, 0, 0]
  else [byteAt v 0, byteAt v 1, byteAt v 2, byteAt v 3, byteAt v 4]

/-- What the decoder reads from an opcode-table word, at the default parameters. -/
def decodeTableWord (nbits w : Nat) : Option Instr :=
  match decode Config.default (tableBytes nbits w) with
  | .ok (i, _) => some i
  | .error _ => none

end Sys2Proof
end

