-- ==== Sys2Proof/Machine/State.lean ====
section
/-! DEFINITION. The state of the engine (10_state.md R20 to R36), as plain data, and its value after power-on reset. -/

namespace Sys2Proof.Machine

open Sys2Proof

/-- The contents of `OUT`: (offset, byte) cells. A byte nothing has written is not listed and reads as no value (log 5). -/
abbrev Memory := List Host.Cell

/-- The canonical form: offsets strictly rising. No listed cell can equal an unlisted one, which has no value. -/
abbrev Memory.wf (m : Memory) : Prop := m.Pairwise (fun x y => x.1 < y.1)

/-- The colour cache: two direct-mapped tables of pixels, PRIMARY and SECONDARY (10_state.md R24, R25). -/
@[ext] structure Cache where
  primary : Vector Pixel 64
  secondary : Vector Pixel 1024
  deriving DecidableEq, Repr

/-- `JOB.MODE` (10_state.md R30); `illegal` stands for every value outside the legal set (60_exceptions.md R226). -/
inductive JobMode where
  | encode
  | decode
  | illegal
  deriving DecidableEq, Repr

/-- `JOB.CACHE_IN` (10_state.md R30): fresh, an image (legal with 1088 entries), or the poisoned image of a job that did not
complete (60_exceptions.md R226). -/
inductive CacheIn where
  | fresh
  | image (entries : List Pixel)
  | poisoned
  deriving DecidableEq, Repr

/-- `STATUS.CACHE_OUT` (10_state.md R31). -/
inductive CacheOut where
  | poisoned
  | image (entries : List Pixel)
  deriving DecidableEq, Repr

/-- What stands behind `IN` or `OUT` (43_interfaces.md R207): a memory buffer at an address of the caller's (log 6), or a stream,
which fails at the given byte offset, if at any (60_exceptions.md R225; log 7). -/
inductive Backing where
  | slice (base : Nat)
  | stream (failsAt : Option Nat)
  deriving DecidableEq, Repr

/-- `JOB.IN`: a byte sequence of known length (43_interfaces.md R207). -/
structure Source where
  bytes : List Byte
  backing : Backing
  deriving DecidableEq, Repr

/-- `JOB.OUT`: a byte sink of capacity `OUT_CAP` (43_interfaces.md R207). -/
structure Sink where
  cap : Nat
  backing : Backing
  deriving DecidableEq, Repr

/-- The job descriptor `JOB` (10_state.md R30). -/
structure Job where
  /-- `MODE` -/
  mode : JobMode
  /-- `CH` -/
  ch : Nat
  /-- `OUT_CH`, or none where the caller requests none (then `OUT_CH = CH`). -/
  outChReq : Option Nat
  /-- `N_PIXELS` -/
  nPixels : Nat
  /-- Whether the caller gave an encode its `N_PIXELS` (10_state.md R33; log 11). -/
  nGiven : Bool
  /-- `FRAMED` -/
  framed : Bool
  /-- `CACHE_IN` -/
  cacheIn : CacheIn
  /-- `IN`, and with it `IN_LEN` -/
  src : Source
  /-- `OUT` and `OUT_CAP` -/
  sink : Sink
  deriving DecidableEq, Repr

/-- `IN_LEN`, the length of `IN` (10_state.md R30; log 23). -/
def Job.inLen (j : Job) : Nat := j.src.bytes.length

/-- `OUT_CH`: the requested count, or `CH` if the caller requests none (10_state.md R30, 92 D37). -/
def Job.outCh (j : Job) : Nat := j.outChReq.getD j.ch

/-- `STATUS.STATE` (10_state.md R31). -/
inductive RunState where
  | idle
  | busy
  | done
  | error
  deriving DecidableEq, Repr

/-- The error kinds (60_exceptions.md R228); `none` is code 0. -/
inductive ErrCode where
  | none
  | truncated
  | invalidPadding
  | outputBufferTooSmall
  | invalidSourceLength
  | ioError
  | invalidChannels
  | invalidMagic
  | imageTooLarge
  | invalidJob
  deriving DecidableEq, Repr

/-- The completion record `STATUS` (10_state.md R31). -/
structure Status where
  /-- `STATE` -/
  state : RunState
  /-- `ERR` -/
  err : ErrCode
  /-- `ERR_ACTUAL` -/
  errActual : Nat
  /-- `ERR_REQUIRED` -/
  errRequired : Nat
  /-- `BYTES_IN` -/
  bytesIn : Nat
  /-- `BYTES_OUT` -/
  bytesOut : Nat
  /-- `PIXELS` -/
  pixels : Nat
  /-- `CACHE_OUT` -/
  cacheOut : CacheOut
  deriving DecidableEq, Repr

/-- What software, or the power supply, can do to the machine (43_interfaces.md R200, R201; 70_reset_and_hazards.md R250, R253,
R261). -/
inductive Action where
  | setMode (m : JobMode)
  | setCh (n : Nat)
  | setOutCh (n : Option Nat)
  /-- `none`: the caller gives an encode no pixel count. -/
  | setNPixels (n : Option Nat)
  | setFramed (b : Bool)
  | setCacheIn (c : CacheIn)
  /-- `CACHE_IN` becomes the `CACHE_OUT` of the job before (70_reset_and_hazards.md R253 step 3, R254). -/
  | carryCache
  | setIn (src : Source)
  /-- A new sink: nothing is known of what its buffer holds. -/
  | setOut (sink : Sink)
  /-- Start the job. -/
  | start
  /-- Power off and on again (60_exceptions.md R240). -/
  | powerCycle
  deriving DecidableEq, Repr

/-- The engine's state: exactly 10_state.md R20, the contents of `OUT`, and the model's own last four fields. -/
structure State where
  /-- `PX`, the previous (encoder) or current (decoder) pixel (R21). -/
  px : Pixel
  /-- `CUR`, the pixel the encoder classifies (R22). -/
  cur : Pixel
  /-- `RUN`, the encoder's run counter (R23). -/
  run : BitVec 16
  /-- `PRIMARY` and `SECONDARY` (R24). -/
  cache : Cache
  /-- `pc`, the decoder's input offset (R28). -/
  pc : Nat
  /-- `pi`, the encoder's pixel index (R29). -/
  pi : Nat
  /-- `op`, bytes written (encoder) or pixels written (decoder) (R29). -/
  op : Nat
  /-- `JOB` (R30). -/
  job : Job
  /-- `STATUS` (R31). -/
  status : Status
  /-- The contents of `OUT` (20_memory.md R50). -/
  out : Memory
  /-- The parameters of 00_scope.md R9; no step changes them (log 1). -/
  cfg : Config
  /-- Whether the running job's TAIL step has been taken (R40 item 3; log 3). -/
  tailDone : Bool
  /-- What software does next, once the engine is not BUSY (log 12). -/
  pending : List Action
  /-- How many free values have been drawn (log 17). -/
  freeCount : Nat
  deriving DecidableEq, Repr

/-- The reasons a step can stop with a fault: NONE. "The engine has no trap mechanism. An error does not divert control to a
handler" (60_exceptions.md): an error is a next state, made by `raise`. Nothing raises a fault, so the type is empty (safe). -/
inductive Fault where
  deriving DecidableEq, Repr

/-- The reasons a step can be refused. -/
inductive Refusal where
  /-- An instruction without a meaning; raised by no arm of exec and no part of the step (safe). -/
  | notModelled (mnemonic : String)
  deriving DecidableEq, Repr

/-- A fresh cache: "every slot holds the zero pixel (0,0,0,0)" (10_state.md R35, 20_memory.md R67). -/
def Cache.fresh : Cache :=
  { primary := Vector.replicate 64 Pixel.zero, secondary := Vector.replicate 1024 Pixel.zero }

/-- `JOB` after power-on (10_state.md R30, 70_reset_and_hazards.md R251); the backings are the model's choice (log 6). -/
def Job.reset : Job :=
  { mode := .encode, ch := 4, outChReq := some 4, nPixels := 0, nGiven := false, framed := false, cacheIn := .fresh,
    src := { bytes := [], backing := .slice 0 }, sink := { cap := 0, backing := .slice 0 } }

/-- `STATUS` after power-on (10_state.md R36). -/
def Status.reset : Status :=
  { state := .idle, err := .none, errActual := 0, errRequired := 0, bytesIn := 0, bytesOut := 0, pixels := 0,
    cacheOut := .poisoned }

/-- The machine right after power-on reset (10_state.md R36, 70_reset_and_hazards.md R250, R251). `PX`, `CUR`, `RUN`, the tables
and the offsets are unspecified there; the model names zero (DESIGN CHOICE, log 2). -/
def State.reset : State :=
  { px := Pixel.zero, cur := Pixel.zero, run := 0, cache := Cache.fresh, pc := 0, pi := 0, op := 0, job := Job.reset,
    status := Status.reset, out := [], cfg := Config.default, tailDone := false, pending := [], freeCount := 0 }

end Sys2Proof.Machine
end

