-- ==== Sys2Proof/Machine/Flags.lean ====
section
/-! DEFINITION. The engine has no condition codes (10_state.md R32): "`STATE` and the counters are the only status flags the
engine has" (R31). This file computes them: error codes, progress counters, and the conditions that choose the next step. -/

namespace Sys2Proof.Machine

open Sys2Proof

/-- The number of an error kind in `STATUS.ERR` (60_exceptions.md R228). -/
def ErrCode.code : ErrCode → Nat
  | .none => 0
  | .truncated => 1
  | .invalidPadding => 2
  | .outputBufferTooSmall => 3
  | .invalidSourceLength => 4
  | .ioError => 5
  | .invalidChannels => 6
  | .invalidMagic => 7
  | .imageTooLarge => 8
  | .invalidJob => 9

/-- The three progress counters of `STATUS` (10_state.md R31). -/
structure Progress where
  bytesIn : Nat
  bytesOut : Nat
  pixels : Nat
  deriving DecidableEq, Repr

/-- The counters of a job that did nothing: they are "0 (set before the checks)" (10_state.md R35). -/
def Progress.zero : Progress := { bytesIn := 0, bytesOut := 0, pixels := 0 }

/-- The pixels of an encode job, `N = IN_LEN / CH` (10_state.md R33, 41_encoder.md R130). -/
def encodePixels (j : Job) : Nat := j.inLen / j.ch

/-- A decode job's progress with `op` pixels written: bytes consumed `pc`, `op` pixels, `op · OUT_CH` bytes (42_decoder.md R160,
60_exceptions.md R221; log 9). -/
def decodeProgress (j : Job) (pc op : Nat) : Progress := { bytesIn := pc, bytesOut := op * j.outCh, pixels := op }

/-- An encode job's progress with `pi` pixels consumed and `op` bytes written (10_state.md R31; log 9). -/
def encodeProgress (j : Job) (pi op : Nat) : Progress := { bytesIn := pi * j.ch, bytesOut := op, pixels := pi }

/-- The counters of a completed job (41_encoder.md R130, 42_decoder.md R160). -/
def endProgress (s : State) : Progress :=
  match s.job.mode with
  | .encode => { bytesIn := s.job.inLen, bytesOut := s.op, pixels := encodePixels s.job }
  | .decode => decodeProgress s.job s.pc s.op
  | .illegal => Progress.zero

/-- `STATUS` as job start sets it, before the checks (10_state.md R35; 90_conflicts.md C14). It is also what the way out of an error
does: "Starting a new job clears `ERR` and the other fields of `STATUS`" (60_exceptions.md R233). -/
def Status.started : Status :=
  { state := .busy, err := .none, errActual := 0, errRequired := 0, bytesIn := 0, bytesOut := 0, pixels := 0,
    cacheOut := .poisoned }

/-- `STATUS` of a job that ended in an error (60_exceptions.md R230). -/
def Status.failed (err : ErrCode) (actual required : Nat) (p : Progress) : Status :=
  { state := .error, err := err, errActual := actual, errRequired := required, bytesIn := p.bytesIn,
    bytesOut := p.bytesOut, pixels := p.pixels, cacheOut := .poisoned }

/-- `STATUS` of a completed job (10_state.md R40 item 4). -/
def Status.completed (p : Progress) (entries : List Pixel) : Status :=
  { state := .done, err := .none, errActual := 0, errRequired := 0, bytesIn := p.bytesIn, bytesOut := p.bytesOut,
    pixels := p.pixels, cacheOut := .image entries }

/-- What the running job's next step is (10_state.md R40). -/
inductive Phase where
  | encodeBody
  | decodeBody
  | encodeTail
  | decodeTail
  | finish
  /-- A running job without a legal mode: no job starts so (60_exceptions.md R229; log 13). -/
  | noMode
  deriving DecidableEq, Repr

/-- The phase of the running job: BODY until `pi = N` or `op = N_PIXELS`, then in framed mode TAIL once, then END
(10_state.md R40, 41_encoder.md R130, 42_decoder.md R160). -/
def phase (s : State) : Phase :=
  match s.job.mode with
  | .encode =>
    if s.pi < encodePixels s.job then .encodeBody
    else if s.job.framed && !s.tailDone then .encodeTail
    else .finish
  | .decode =>
    if s.op < s.job.nPixels then .decodeBody
    else if s.job.framed && !s.tailDone then .decodeTail
    else .finish
  | .illegal => .noMode

/-- A bound on the steps a running job still takes: its BODY steps, TAIL and END (70_reset_and_hazards.md R263). -/
def stepsLeft (s : State) : Nat :=
  match s.job.mode with
  | .encode => encodePixels s.job - s.pi + 2
  | .decode => s.job.nPixels - s.op + 2
  | .illegal => 1

end Sys2Proof.Machine
end

