-- ==== Sys2Proof/Machine/Operands.lean ====
section
/-! DEFINITION. Pixel arithmetic and operand forms: hash and slots, deltas, DeltaEncode and its inverses, the run lengths, the
bytes of an output pixel (40_pixel_cache.md R100 to R108, R115; 30_encoding.md R83; 41_encoder.md R135). -/

namespace Sys2Proof.Machine

open Sys2Proof

/-- `h(p) = 3·r + 5·g + 7·b + 11·a`, computed without wrap-around (40_pixel_cache.md R100). -/
def pixelHash (p : Pixel) : Nat := 3 * p.r.toNat + 5 * p.g.toNat + 7 * p.b.toNat + 11 * p.a.toNat

/-- The primary slot `h(p) & 63` (R100). -/
def primarySlot (p : Pixel) : BitVec 6 := BitVec.ofNat 6 (pixelHash p)

/-- The secondary slot `h(p) & 1023` (R100). -/
def secondarySlot (p : Pixel) : BitVec 10 := BitVec.ofNat 10 (pixelHash p)

/-- `s & 63`: the primary slot a secondary slot number promotes into (R112). -/
def lowSlot (s : BitVec 10) : BitVec 6 := s.extractLsb' 0 6

/-- `s8(v) = sext_8(v mod 256)`, in [-128, 127] (00_scope.md R11). -/
def s8 (v : Int) : Int := (BitVec.ofInt 8 v).toInt

/-- `add8(x, d) = (x + d) mod 256` (00_scope.md R11). -/
def add8 (x : Byte) (d : Int) : Byte := BitVec.ofInt 8 (x.toNat + d)

/-- The channel delta `d_c(prev, cur) = s8(cur.c - prev.c)` (R102). -/
def delta (prev cur : Byte) : Int := s8 ((cur.toNat : Int) - prev.toNat)

/-- A biased field's value: `field - bias`, an integer (30_encoding.md R71). -/
def unbias {n m : Nat} (field : BitVec n) (bias : BitVec m) : Int := (field.toNat : Int) - bias.toNat

/-- The field of a value: `value + bias` as an unsigned number (30_encoding.md R71). -/
def biased {m : Nat} (n : Nat) (bias : BitVec m) (v : Int) : BitVec n := BitVec.ofInt n (v + bias.toNat)

/-- `v` lies in the range of `2^w` values that begins at `-bias` (30_encoding.md R73, R77). -/
def inRange {m : Nat} (w : Nat) (bias : BitVec m) (v : Int) : Bool :=
  decide (-(bias.toNat : Int) ≤ v) && decide (v < 2 ^ w - (bias.toNat : Int))

/-- `UpdateDiff(px, b)` (R106). -/
def updateDiff (c : Config) (px : Pixel) (dr dg db : BitVec 2) : Pixel :=
  { px with
    r := add8 px.r (unbias dr c.diffBias)
    g := add8 px.g (unbias dg c.diffBias)
    b := add8 px.b (unbias db c.diffBias) }

/-- `UpdateLuma(px, b1, b2)` (R107). -/
def updateLuma (c : Config) (px : Pixel) (dg : BitVec 6) (drg dbg : BitVec 4) : Pixel :=
  let d := unbias dg c.lumaGBias
  { px with
    r := add8 px.r (d + unbias drg c.lumaRbBias)
    g := add8 px.g d
    b := add8 px.b (d + unbias dbg c.lumaRbBias) }

/-- `UpdateRGB(px, r, g, b) = (r, g, b, px.a)` (R108). -/
def updateRgb (px : Pixel) (r g b : Byte) : Pixel := { px with r := r, g := g, b := b }

/-- `UpdateRGBA(px, r, g, b, a) = (r, g, b, a)` (R108). -/
def updateRgba (_px : Pixel) (r g b a : Byte) : Pixel := { r := r, g := g, b := b, a := a }

/-- `DeltaEncode(prev, cur)`: the smallest viable delta form (R103). -/
def deltaEncode (c : Config) (prev cur : Pixel) : Instr :=
  if cur.a = prev.a then
    let dr := delta prev.r cur.r
    let dg := delta prev.g cur.g
    let db := delta prev.b cur.b
    if inRange 2 c.diffBias dr && inRange 2 c.diffBias dg && inRange 2 c.diffBias db then
      .diff (biased 2 c.diffBias dr) (biased 2 c.diffBias dg) (biased 2 c.diffBias db)
    else
      let drg := s8 (dr - dg)
      let dbg := s8 (db - dg)
      if inRange 6 c.lumaGBias dg && inRange 3 c.lumaRbBias drg && inRange 3 c.lumaRbBias dbg then
        .luma (biased 6 c.lumaGBias dg) (biased 4 c.lumaRbBias drg) (biased 4 c.lumaRbBias dbg)
      else .rgb cur.r cur.g cur.b
  else .rgba cur.r cur.g cur.b cur.a

/-- RUN's length, `(byte & 0x3F) + 2` (30_encoding.md R75, R83). -/
def runLength (n : BitVec 6) : Nat := n.toNat + 2

/-- LRUN's length, `v + 64` (30_encoding.md R78, R83). -/
def lrunLength (v : BitVec 10) : Nat := v.toNat + 64

/-- MAXRUN's length (30_encoding.md R79) and the cap of the run counter, RUN_CAP (00_scope.md R7). -/
def runCap : Nat := 1024

/-- The pixels an opcode produces, before the clamp to the pixels that remain (42_decoder.md R162 to R171). -/
def pixelCount : Instr → Nat
  | .idx _ => 1
  | .diff _ _ _ => 1
  | .rep1 => 1
  | .luma _ _ _ => 1
  | .lrun v => lrunLength v
  | .maxrun => runCap
  | .lidx _ => 1
  | .run n => runLength n
  | .rgb _ _ _ => 1
  | .rgba _ _ _ _ => 1

/-- `FlushRun(n)`, the opcode of a run of `n` repeats, `1 ≤ n ≤ 1023` (41_encoder.md R135). -/
def flushRun (n : Nat) : Instr :=
  if n = 1 then .rep1
  else if n ≤ 63 then .run (BitVec.ofNat 6 (n - 2))
  else .lrun (BitVec.ofNat 10 (n - 64))

/-- The pseudo-instruction `REPEAT n`, `1 ≤ n ≤ 1024` (30_encoding.md R88). -/
def repeatInstr (n : Nat) : Instr := if n = runCap then .maxrun else flushRun n

/-- `LidxEligible(len)`: length 2, or length 1 where LIDX_ON_DIFF (41_encoder.md R134). -/
def lidxEligible (c : Config) (len : Nat) : Bool := len == 2 || (len == 1 && c.lidxOnDiff)

/-- `OutPixel(p)`: the bytes the decoder writes for a pixel (R115). The alpha of a 3-channel source is written as 0xFF, and a
3-channel output drops the fourth byte. -/
def outPixel (ch outCh : Nat) (p : Pixel) : List Byte :=
  [p.r, p.g, p.b, if ch = 3 then 0xFF else p.a].take outCh

/-- The pixel of an input pixel's bytes, read "into the first N channels, leaving others unchanged" (10_state.md R22,
41_encoder.md R130). -/
def readPixel (ch : Nat) (raw : List Byte) (cur : Pixel) : Pixel :=
  { r := raw.getD 0 0, g := raw.getD 1 0, b := raw.getD 2 0, a := if ch = 4 then raw.getD 3 0 else cur.a }

end Sys2Proof.Machine
end

