-- ==== Sys2Proof/Machine/Ops.lean ====
section
/-! DEFINITION. The named operations over memory, cache and registers, and the one way a job ends in an error
(20_memory.md, 40_pixel_cache.md R110 to R112, 42_decoder.md R172, 60_exceptions.md R230). -/

namespace Sys2Proof.Machine

open Sys2Proof

/-! ### OUT as a list of cells -/

/-- The byte at an offset of `OUT`, or no value where nothing has been written (log 5). -/
def Memory.read : Memory → Nat → Option Byte
  | [], _ => none
  | (x, v) :: m, a => if a = x then some v else Memory.read m a

/-- Write one byte, keeping the offsets rising. -/
def Memory.write : Memory → Nat → Byte → Memory
  | [], a, v => [(a, v)]
  | (x, w) :: m, a, v =>
    if a < x then (a, v) :: (x, w) :: m
    else if a = x then (a, v) :: m
    else (x, w) :: Memory.write m a v

/-- Write bytes at consecutive offsets, first byte first (00_scope.md R12, `MemWrite`). -/
def Memory.writeBytes : Memory → Nat → List Byte → Memory
  | m, _, [] => m
  | m, a, v :: vs => Memory.writeBytes (Memory.write m a v) (a + 1) vs

/-! ### IN and OUT -/

/-- How a read of `IN` fails: by reaching its end, or by a failure of a stream-backed source (60_exceptions.md R221, R225). -/
inductive ReadError where
  | ended
  | failed
  deriving DecidableEq, Repr

/-- The offset from which on a backing fails, if it ever does (43_interfaces.md R207; log 7). -/
def Backing.failsAt : Backing → Option Nat
  | .slice _ => none
  | .stream f => f

/-- `MemRead(IN, addr, n)` (00_scope.md R12). The end of the input is looked at before a failure of the stream (log 7). -/
def memRead (src : Source) (addr n : Nat) : Except ReadError (List Byte) :=
  if src.bytes.length < addr + n then .error .ended
  else
    match src.backing.failsAt with
    | some f => if f < addr + n then .error .failed else .ok ((src.bytes.drop addr).take n)
    | none => .ok ((src.bytes.drop addr).take n)

/-- How many of `n` bytes written from offset `addr` on the sink accepts (60_exceptions.md R225; log 7). `addr` and the failing offset
count from offset 0 of the running job: a later job on a stream that software did not write anew, even one that has failed, is
accepted below that offset once more. The spec is silent on such a sink: DESIGN CHOICE, unsafe (log 28). -/
def Sink.accepts (k : Sink) (addr n : Nat) : Nat :=
  match k.backing.failsAt with
  | some f => min n (f - addr)
  | none => n

/-! ### The cache -/

/-- `PRIMARY[k]` (40_pixel_cache.md R111): every 6-bit index is in range. -/
def Cache.primaryAt (c : Cache) (k : BitVec 6) : Pixel := c.primary[k.toNat]'k.isLt

/-- `SECONDARY[k]` (R111): every 10-bit index is in range. -/
def Cache.secondaryAt (c : Cache) (k : BitVec 10) : Pixel := c.secondary[k.toNat]'k.isLt

/-- `PRIMARY[k] <- p`. -/
def Cache.setPrimary (c : Cache) (k : BitVec 6) (p : Pixel) : Cache :=
  { c with primary := c.primary.set k.toNat p k.isLt }

/-- `SECONDARY[k] <- p`. -/
def Cache.setSecondary (c : Cache) (k : BitVec 10) (p : Pixel) : Cache :=
  { c with secondary := c.secondary.set k.toNat p k.isLt }

/-- `InsertEvict(p, k)`: `p` into primary slot `k`, the displaced occupant into the secondary slot of its own hash (R110). -/
def Cache.insertEvict (c : Cache) (p : Pixel) (k : BitVec 6) : Cache :=
  (c.setPrimary k p).setSecondary (secondarySlot (c.primaryAt k)) (c.primaryAt k)

/-- `Promote(s)`'s effect on the tables: the pixel of secondary slot `s` is inserted into primary slot `s & 63` (R112). -/
def Cache.promote (c : Cache) (s : BitVec 10) : Cache := c.insertEvict (c.secondaryAt s) (lowSlot s)

/-- A cache image: `PRIMARY[0..63]` then `SECONDARY[0..1023]` (20_memory.md R60). -/
def Cache.toImage (c : Cache) : List Pixel := c.primary.toList ++ c.secondary.toList

/-- The tables of an image: entry `e` into the corresponding table entry (20_memory.md R60). An image that is not of 1088 entries
is refused at START and never loaded (60_exceptions.md R226). -/
def Cache.ofImage (es : List Pixel) : Cache :=
  { primary := Vector.ofFn fun k : Fin 64 => es.getD k.val Pixel.zero
    secondary := Vector.ofFn fun k : Fin 1024 => es.getD (64 + k.val) Pixel.zero }

/-- A cache image as bytes: entry `e` at bytes `4e .. 4e + 3` in the order r, g, b, a (20_memory.md R60). -/
def serializeImage (es : List Pixel) : List Byte := es.flatMap fun p => [p.r, p.g, p.b, p.a]

/-- The image of serialized bytes; a rest of fewer than four bytes is no entry. -/
def deserializeImage : List Byte → List Pixel
  | r :: g :: b :: a :: rest => { r := r, g := g, b := b, a := a } :: deserializeImage rest
  | _ => []

/-! ### Named updates of the state -/

def State.setPx (s : State) (p : Pixel) : State := { s with px := p }

def State.setCache (s : State) (c : Cache) : State := { s with cache := c }

/-- `pc <- pc + n`. -/
def State.advance (s : State) (n : Nat) : State := { s with pc := s.pc + n }

def State.setOut (s : State) (m : Memory) : State := { s with out := m }

/-- `op <- op + n`. -/
def State.countOut (s : State) (n : Nat) : State := { s with op := s.op + n }

/-- The registers an encoder step writes, with `pi <- pi + 1` (41_encoder.md R130). -/
def State.setEncoder (s : State) (px cur : Pixel) (run : BitVec 16) (cache : Cache) : State :=
  { s with px := px, cur := cur, run := run, cache := cache, pi := s.pi + 1 }

def State.setTailDone (s : State) : State := { s with tailDone := true }

def State.setStatus (s : State) (t : Status) : State := { s with status := t }

def State.setJob (s : State) (j : Job) : State := { s with job := j }

/-- "Insert the new pixel": what the delta and literal opcodes do to `PX` and the cache (42_decoder.md R163, R165, R170, R171). -/
def State.newPixel (s : State) (p : Pixel) : State :=
  (s.setPx p).setCache (s.cache.insertEvict p (primarySlot p))

/-! ### Ending a job in an error -/

/-- Draw the free value `RUN` takes after a failed job (60_exceptions.md R231; log 17). -/
def State.loseRun (s : State) : State :=
  { s with run := Config.freeRun s.freeCount, freeCount := s.freeCount + 1 }

/-- `raise E(info)` in BODY or TAIL: "sets `STATUS.STATE <- ERROR` and `STATUS.ERR <- code(E)`; records the fields of rules R221 to
R226; sets `STATUS.CACHE_OUT <- POISONED`; ends the job" (60_exceptions.md R230). `PX`, the tables, `pc` and `op` stay
(R220); `RUN` is unspecified (R231; logs 8 and 17). -/
def State.raise (s : State) (e : ErrCode) (p : Progress) : State :=
  s.loseRun.setStatus (Status.failed e 0 0 p)

/-- `raise E(info)` at START: "A job that fails at `START` writes nothing and changes only `STATUS`" (60_exceptions.md R231). -/
def State.raiseAtStart (s : State) (e : ErrCode) (actual required : Nat) : State :=
  s.setStatus (Status.failed e actual required Progress.zero)

/-- The error kind of a failed read: an end of input is `Truncated`, any other failure `IoError` (60_exceptions.md R221, R225). -/
def ReadError.code : ReadError → ErrCode
  | .ended => .truncated
  | .failed => .ioError

/-! ### Writing -/

/-- `m = min(n, N_PIXELS - op)`: a run is clamped to the pixels that remain (42_decoder.md R172). -/
def clampRun (s : State) (n : Nat) : Nat := min n (s.job.nPixels - s.op)

/-- The bytes `WritePixels` writes for `m` copies of a pixel (42_decoder.md R172). -/
def pixelBytes (j : Job) (p : Pixel) (m : Nat) : List Byte :=
  (List.replicate m (outPixel j.ch j.outCh p)).flatten

/-- The offset of `OUT` that the next decoded pixel is written to, `op · OUT_CH` (20_memory.md R54). -/
def pixelAddr (s : State) : Nat := s.op * s.job.outCh

/-- The end of every opcode: `WritePixels(PX, n)` (42_decoder.md R172). `before` is the state the opcode began in, `after` the state
with the opcode's effect on `PX`, the cache and `pc`. If the sink refuses a byte the job ends with `IoError`: the bytes
it took stay written, whole pixels are counted, and nothing else of the opcode happens (60_exceptions.md R220, R225). -/
def writePixels (before after : State) (n : Nat) : Host.Outcome State Fault Refusal :=
  let m := clampRun after n
  let bytes := pixelBytes after.job after.px m
  let k := after.job.sink.accepts (pixelAddr after) bytes.length
  let out := Memory.writeBytes after.out (pixelAddr after) (bytes.take k)
  if k = bytes.length then .next ((after.setOut out).countOut m)
  else
    .next ((before.setOut out).raise .ioError
      (decodeProgress before.job before.pc (before.op + k / before.job.outCh)))

/-- The encoder's append (00_scope.md R12, `Emit`), for all the bytes of one step. `before` is the state the step began in, `after` the
state with the step's effect on the registers; `done` is the pixels consumed before the step (60_exceptions.md R220, R225). -/
def emit (before after : State) (bytes : List Byte) : Host.Outcome State Fault Refusal :=
  let k := after.job.sink.accepts after.op bytes.length
  let out := Memory.writeBytes after.out after.op (bytes.take k)
  if k = bytes.length then .next ((after.setOut out).countOut bytes.length)
  else
    .next ((before.setOut out).raise .ioError (encodeProgress before.job before.pi (before.op + k)))

end Sys2Proof.Machine
end

