-- ==== Sys2Proof/Machine/Delta.lean ====
section
/-! DEFINITION. The delta opcodes: DIFF and LUMA (42_decoder.md R163, R165). -/

namespace Sys2Proof.Machine

open Sys2Proof

/-- DIFF: `PX <- UpdateDiff(PX, b1)`, then `InsertEvict(PX, h(PX) & 63)` (R163). -/
def execDiff (dr dg db : BitVec 2) (s : State) : Host.Outcome State Fault Refusal :=
  writePixels s ((s.newPixel (updateDiff s.cfg s.px dr dg db)).advance 1) 1

/-- LUMA: `PX <- UpdateLuma(PX, b1, b2)`, then `InsertEvict(PX, h(PX) & 63)` (R165). -/
def execLuma (dg : BitVec 6) (drg dbg : BitVec 4) (s : State) : Host.Outcome State Fault Refusal :=
  writePixels s ((s.newPixel (updateLuma s.cfg s.px dg drg dbg)).advance 2) 1

end Sys2Proof.Machine
end

