-- ==== Sys2Proof/Machine/Index.lean ====
section
/-! DEFINITION. The index opcodes: IDX and LIDX (42_decoder.md R162, R168). -/

namespace Sys2Proof.Machine

open Sys2Proof

/-- IDX: `PX <- PRIMARY[i]`; "direct-index reads but does not mutate" (R162). -/
def execIdx (i : BitVec 6) (s : State) : Host.Outcome State Fault Refusal :=
  writePixels s ((s.setPx (s.cache.primaryAt i)).advance 1) 1

/-- LIDX: `PX <- Promote(s)` (R168). -/
def execLidx (k : BitVec 10) (s : State) : Host.Outcome State Fault Refusal :=
  writePixels s (((s.setPx (s.cache.secondaryAt k)).setCache (s.cache.promote k)).advance 2) 1

end Sys2Proof.Machine
end

