-- ==== Sys2Proof/Machine/Literal.lean ====
section
/-! DEFINITION. The literal opcodes: RGB and RGBA (42_decoder.md R170, R171). -/

namespace Sys2Proof.Machine

open Sys2Proof

/-- RGB: red, green and blue from the payload, "a literal RGB keeps the current alpha" (R170, 40_pixel_cache.md R108). -/
def execRgb (r g b : Byte) (s : State) : Host.Outcome State Fault Refusal :=
  writePixels s ((s.newPixel (updateRgb s.px r g b)).advance 4) 1

/-- RGBA: all four samples from the payload (R171). -/
def execRgba (r g b a : Byte) (s : State) : Host.Outcome State Fault Refusal :=
  writePixels s ((s.newPixel (updateRgba s.px r g b a)).advance 5) 1

end Sys2Proof.Machine
end

