-- ==== Sys2Proof/Machine/Run.lean ====
section
/-! DEFINITION. The run opcodes: REP1, RUN, LRUN and MAXRUN (42_decoder.md R164, R169, R166, R167). None changes `PX` or the
cache. -/

namespace Sys2Proof.Machine

open Sys2Proof

/-- REP1: one more pixel of `PX` (R164). -/
def execRep1 (s : State) : Host.Outcome State Fault Refusal := writePixels s (s.advance 1) 1

/-- RUN: `(b1 & 0x3F) + 2` pixels of `PX`, clamped (R169). -/
def execRun (n : BitVec 6) (s : State) : Host.Outcome State Fault Refusal :=
  writePixels s (s.advance 1) (runLength n)

/-- LRUN: `v + 64` pixels of `PX`, clamped (R166). -/
def execLrun (v : BitVec 10) (s : State) : Host.Outcome State Fault Refusal :=
  writePixels s (s.advance 2) (lrunLength v)

/-- MAXRUN: 1024 pixels of `PX`, clamped (R167). -/
def execMaxrun (s : State) : Host.Outcome State Fault Refusal := writePixels s (s.advance 2) runCap

end Sys2Proof.Machine
end

