-- ==== Sys2Proof/Machine/Dispatch.lean ====
section
/-! DEFINITION. exec: one arm per opcode (42_decoder.md R161). -/

namespace Sys2Proof.Machine

open Sys2Proof

def exec (i : Instr) (s : State) : Host.Outcome State Fault Refusal :=
  match i with
  | .idx k => Sys2Proof.Machine.execIdx k s
  | .diff dr dg db => Sys2Proof.Machine.execDiff dr dg db s
  | .rep1 => Sys2Proof.Machine.execRep1 s
  | .luma dg drg dbg => Sys2Proof.Machine.execLuma dg drg dbg s
  | .lrun v => Sys2Proof.Machine.execLrun v s
  | .maxrun => Sys2Proof.Machine.execMaxrun s
  | .lidx k => Sys2Proof.Machine.execLidx k s
  | .run n => Sys2Proof.Machine.execRun n s
  | .rgb r g b => Sys2Proof.Machine.execRgb r g b s
  | .rgba r g b a => Sys2Proof.Machine.execRgba r g b a s

end Sys2Proof.Machine
end

