-- ==== Sys2Proof/Machine/Decoder.lean ====
section
/-! DEFINITION. The decoder state machine: fetching one opcode, and the padding check (42_decoder.md R160, R161, R173, R175). -/

namespace Sys2Proof.Machine

open Sys2Proof

/-- Read one opcode at `pc`: the leading byte, then the payload it selects (R161; the length is fixed by the leading byte,
30_encoding.md R70). "Each `Exec` reads all of its opcode's bytes before it changes any state." -/
def fetch (s : State) : Except ReadError Instr :=
  match memRead s.job.src s.pc 1 with
  | .error e => .error e
  | .ok lead =>
    let b1 := lead.headD 0
    match memRead s.job.src (s.pc + 1) (opLen b1 - 1) with
    | .error e => .error e
    | .ok payload =>
      match decode s.cfg (b1 :: payload) with
      | .ok (i, _) => .ok i
      | .error _ => .error .ended

/-- `DecStep()` (R161): "If a read fails, the opcode has no effect". -/
def decodeStep (s : State) : Host.Outcome State Fault Refusal :=
  match fetch s with
  | .error e => .next (s.raise e.code (decodeProgress s.job s.pc s.op))
  | .ok i => exec i s

/-- `CheckPadding()` (R175): the length is tested before the value. -/
def decodeTail (s : State) : Host.Outcome State Fault Refusal :=
  match memRead s.job.src s.pc 8 with
  | .error e => .next (s.raise e.code (decodeProgress s.job s.pc s.op))
  | .ok t =>
    if t = s.cfg.padding then .next (s.advance 8).setTailDone
    else .next (s.raise .invalidPadding (decodeProgress s.job s.pc s.op))

end Sys2Proof.Machine
end

