-- ==== Sys2Proof/Machine/Encoder.lean ====
section
/-! DEFINITION. The encoder state machine: one step per input pixel, and the padding (41_encoder.md R130 to R137). -/

namespace Sys2Proof.Machine

open Sys2Proof

/-- What `RepeatStep` emits with the counter at `run`: nothing, the maximum-run marker, or the flushed run where the pixel is the
last one. "The cap is tested before the final-pixel test" (R131). -/
def repeatEmits (last : Bool) (run : BitVec 16) : List Instr :=
  if (run + 1).toNat = runCap then [.maxrun] else if last then [flushRun (run + 1).toNat] else []

/-- `RUN` after `RepeatStep` (R131). -/
def repeatRun (last : Bool) (run : BitVec 16) : BitVec 16 :=
  if (run + 1).toNat = runCap then 0 else if last then 0 else run + 1

/-- The pending run that `ChangeStep` flushes first (R132, R135). -/
def pendingRun (run : BitVec 16) : List Instr := if run = 0 then [] else [flushRun run.toNat]

/-- The opcode `ChangeStep` emits for the changed pixel: IDX on a primary hit (R133), LIDX in place of a short delta where the
secondary slot holds the pixel and its number can be written (R134), else the delta or literal (R103). -/
def changeOpcode (c : Config) (px cur : Pixel) (cache : Cache) : Instr :=
  if cache.primaryAt (primarySlot cur) = cur then .idx (primarySlot cur)
  else if lidxEligible c (deltaEncode c px cur).len && cache.secondaryAt (secondarySlot cur) == cur &&
      (secondarySlot cur).extractLsb' 0 4 != 15#4 then .lidx (secondarySlot cur)
  else deltaEncode c px cur

/-- The cache after `ChangeStep`: "no cache mutation" on a primary hit, else insert-and-evict (R132, 90_conflicts.md C3). -/
def changeCache (cur : Pixel) (cache : Cache) : Cache :=
  if cache.primaryAt (primarySlot cur) = cur then cache else cache.insertEvict cur (primarySlot cur)

/-- `RepeatStep()`, for a pixel equal to the previous one (R131). -/
def repeatStep (s : State) (cur : Pixel) : Host.Outcome State Fault Refusal :=
  let last := s.pi + 1 == encodePixels s.job
  emit s (s.setEncoder s.px cur (repeatRun last s.run) s.cache) (encodeAll s.cfg (repeatEmits last s.run))

/-- `ChangeStep()`, for a pixel that differs from the previous one: the run flush, then the pixel's own opcode (R132). -/
def changeStep (s : State) (cur : Pixel) : Host.Outcome State Fault Refusal :=
  emit s (s.setEncoder cur cur 0 (changeCache cur s.cache))
    (encodeAll s.cfg (pendingRun s.run ++ [changeOpcode s.cfg s.px cur s.cache]))

/-- One iteration of `EncodeJob`'s loop (R130): read pixel `pi`, then the repeat or the change step. -/
def encodeStep (s : State) : Host.Outcome State Fault Refusal :=
  match memRead s.job.src (s.pi * s.job.ch) s.job.ch with
  | .error e => .next (s.raise e.code (encodeProgress s.job s.pi s.op))
  | .ok raw =>
    let cur := readPixel s.job.ch raw s.cur
    if cur = s.px then repeatStep s cur else changeStep s cur

/-- The encoder's TAIL step: the 8 padding bytes (R137). -/
def encodeTail (s : State) : Host.Outcome State Fault Refusal := emit s s.setTailDone s.cfg.padding

end Sys2Proof.Machine
end

