-- ==== Sys2Proof/Machine/Job.lean ====
section
/-! DEFINITION. The job interface: START with its checks, END, and what software does between jobs (10_state.md R30 to R36, R40;
43_interfaces.md R200 to R204; 60_exceptions.md R223 to R229). -/

namespace Sys2Proof.Machine

open Sys2Proof

/-- Two slice-backed buffers overlap when some address lies in both (20_memory.md R66; log 6). A stream has no address. -/
def Job.overlap (j : Job) : Bool :=
  match j.src.backing, j.sink.backing with
  | .slice a, .slice b => max a b < min (a + j.inLen) (b + j.sink.cap)
  | _, _ => false

/-- The `CACHE_IN` values the engine takes (60_exceptions.md R226). -/
def CacheIn.legal : CacheIn → Bool
  | .fresh => true
  | .image es => es.length == 1088
  | .poisoned => false

/-- 3 or 4 channels (10_state.md R30). -/
def legalChannels (n : Nat) : Bool := n == 3 || n == 4

/-- `REQ_ENC = N·(CH + 1) + (FRAMED ? 8 : 0)` or `REQ_DEC = N_PIXELS · OUT_CH` (43_interfaces.md R203, R204; 60_exceptions.md
R223). -/
def Job.required (j : Job) : Nat :=
  match j.mode with
  | .encode => encodePixels j * (j.ch + 1) + (if j.framed then 8 else 0)
  | _ => j.nPixels * j.outCh

/-- `InvalidJob`: `MODE`, `CACHE_IN`, overlap (60_exceptions.md R226, R229). -/
def Job.invalid (j : Job) : Bool := j.mode == .illegal || !j.cacheIn.legal || j.overlap

/-- `InvalidChannels`: `CH`, then `OUT_CH` for a decode (R226). -/
def Job.badChannels (j : Job) : Bool :=
  !legalChannels j.ch || (j.mode == .decode && !legalChannels j.outCh)

/-- `InvalidSourceLength`, encoder only (10_state.md R33, 60_exceptions.md R224). -/
def Job.badLength (j : Job) : Bool :=
  j.mode == .encode && (j.inLen % j.ch != 0 || (j.nGiven && j.nPixels * j.ch != j.inLen))

/-- The first START check that fails, in the order of 60_exceptions.md R229. -/
def Job.check (j : Job) : ErrCode :=
  if j.invalid then .invalidJob
  else if j.badChannels then .invalidChannels
  else if j.badLength then .invalidSourceLength
  else if j.sink.cap < j.required then .outputBufferTooSmall
  else .none

/-- The cache at job start: zero-filled or loaded from the image (10_state.md R35, 20_memory.md R67). -/
def CacheIn.load : CacheIn → Cache
  | .image es => Cache.ofImage es
  | _ => Cache.fresh

/-- The job-start values of 10_state.md R35, set after the checks pass. The bytes of `IN` stay as they are: where the job before has
consumed a stream-backed `IN` and software wrote no new one, the job reads the same bytes again from offset 0. The spec gives
no rule for that stream's content then (20_memory.md R57): DESIGN CHOICE, unsafe (log 27). A stream-backed `OUT` that software did
not write anew is written from offset 0 again, over the bytes of the job before, and its failing offset is counted from 0 again;
the spec does not say whether it goes on behind those bytes (R53; 43_interfaces.md R207): DESIGN CHOICE, unsafe (log 28). -/
def State.jobStart (s : State) : State :=
  { s with px := Pixel.start, cur := Pixel.start, run := 0, cache := s.job.cacheIn.load, pc := 0, pi := 0, op := 0,
           tailDone := false }

/-- `START` (10_state.md R40 item 1): `STATUS` is set first, then the checks, then the job-start values (R35). -/
def startJob (s : State) : State :=
  let t := s.setStatus Status.started
  match t.job.check with
  | .none => t.jobStart
  | .outputBufferTooSmall => t.raiseAtStart .outputBufferTooSmall t.job.sink.cap t.job.required
  | e => t.raiseAtStart e 0 0

/-- `END` (10_state.md R40 item 4): `STATUS.STATE <- DONE`, `CACHE_OUT <-` the cache state, and the counters
(41_encoder.md R130, 42_decoder.md R160). -/
def finishJob (s : State) : State :=
  s.setStatus (Status.completed (endProgress s) s.cache.toImage)

/-- `CACHE_IN` for a job that continues from the one before: a `POISONED` image stays so, and is refused at START
(70_reset_and_hazards.md R254, R255). -/
def CacheOut.carry : CacheOut → CacheIn
  | .poisoned => .poisoned
  | .image es => .image es

/-- A field of `JOB` written by software (43_interfaces.md R200; 70_reset_and_hazards.md R261: "Fields not rewritten keep their
previous values"). -/
def Action.write (j : Job) (out : CacheOut) : Action → Job
  | .setMode m => { j with mode := m }
  | .setCh n => { j with ch := n }
  | .setOutCh n => { j with outChReq := n }
  | .setNPixels (some n) => { j with nPixels := n, nGiven := true }
  | .setNPixels none => { j with nGiven := false }
  | .setFramed b => { j with framed := b }
  | .setCacheIn c => { j with cacheIn := c }
  | .carryCache => { j with cacheIn := out.carry }
  | .setIn src => { j with src := src }
  | .setOut k => { j with sink := k }
  | .start => j
  | .powerCycle => j

/-- Power off and on: every field at its power-on value (60_exceptions.md R240, 70_reset_and_hazards.md R250). The parameters, what
software does next and the count of free values are not the engine's state and stay (log 12). -/
def State.powerCycle (s : State) : State :=
  { State.reset with cfg := s.cfg, pending := s.pending, freeCount := s.freeCount }

/-- What an action of software does. `JOB` "is read-only while it runs" (10_state.md R30), so a write, and a start, while BUSY do
nothing (43_interfaces.md R200; log 4). A new sink holds nothing that is known (log 5). -/
def State.perform (s : State) (a : Action) : State :=
  match a with
  | .powerCycle => s.powerCycle
  | .start => if s.status.state = .busy then s else startJob s
  | .setOut k =>
    if s.status.state = .busy then s
    else (s.setJob (Action.write s.job s.status.cacheOut (.setOut k))).setOut []
  | a => if s.status.state = .busy then s else s.setJob (a.write s.job s.status.cacheOut)

/-- Take the next action of software, if there is one. Between jobs the engine is idle "and all state persists"
(60_exceptions.md R240; log 12). -/
def idleStep (s : State) : State :=
  match s.pending with
  | [] => s
  | a :: rest => { s with pending := rest }.perform a

/-- `max_encoded_size(w, h, c, framing)` (43_interfaces.md R203). -/
def maxEncodedSize (w h c : Nat) (framing : Bool) : Nat := w * h * (c + 1) + (if framing then 14 + 8 else 0)

end Sys2Proof.Machine
end

