-- ==== Sys2Proof/Machine/Step.lean ====
section
/-! DEFINITION. One step of the machine (10_state.md R40), and how an instruction is placed where the next step fetches it. -/

namespace Sys2Proof.Machine

open Sys2Proof

/-- One atomic step: of the running job while BUSY, else the next action of software (10_state.md R40, 43_interfaces.md R200). -/
def step (s : State) : Host.Outcome State Fault Refusal :=
  if s.status.state = .busy then
    match phase s with
    | .encodeBody => encodeStep s
    | .decodeBody => decodeStep s
    | .encodeTail => encodeTail s
    | .decodeTail => decodeTail s
    | .finish => .next (finishJob s)
    | .noMode => .next (s.raise .invalidJob Progress.zero)
  else .next (idleStep s)

/-- `s` with an instruction's bytes in `IN` from `pc` on, as a running decode job that still has a pixel to produce (log 15): `MODE`,
`IN` (slice-backed), `N_PIXELS`, `OUT_CAP` and `STATE` are what the fetch needs, and nothing else changes. -/
def State.withFetchWord (s : State) (nbits w : Nat) : State :=
  let n := max s.job.nPixels (s.op + 1)
  { s with
    job := { s.job with
      mode := .decode
      nPixels := n
      src := { bytes := s.job.src.bytes.takeD s.pc 0 ++ tableBytes nbits w, backing := .slice 0 }
      sink := { s.job.sink with cap := max s.job.sink.cap (n * s.job.outCh) } }
    status := { s.status with state := .busy } }

end Sys2Proof.Machine
end

