-- ==== Sys2Proof/Machine/Header.lean ====
section
/-! DEFINITION. The header collaborator, outside the block (43_interfaces.md R205, R206; 60_exceptions.md R227). Software runs these
functions; no step of the engine does (log 18). -/

namespace Sys2Proof.Machine

open Sys2Proof

/-- The header's fields (R206). The colour-space byte is "purely informational and never affects codec behavior". -/
structure Header where
  width : BitVec 32
  height : BitVec 32
  channels : Byte
  colourSpace : Byte
  deriving DecidableEq, Repr

/-- A 32-bit value, big-endian (R206). -/
def bigEndian (v : BitVec 32) : List Byte :=
  [v.extractLsb' 24 8, v.extractLsb' 16 8, v.extractLsb' 8 8, v.extractLsb' 0 8]

/-- The 14 bytes of a header (R206). -/
def Header.bytes (h : Header) : List Byte :=
  bigEndian Config.magic ++ bigEndian h.width ++ bigEndian h.height ++ [h.channels, h.colourSpace]

/-- The header an encode writes: "`width` and `height`; `channels = CH`; the caller's colour-space byte" (R206). -/
def Header.ofEncode (width height : BitVec 32) (ch : Nat) (colourSpace : Byte) : Header :=
  { width := width, height := height, channels := BitVec.ofNat 8 ch, colourSpace := colourSpace }

/-- `width · height`, the pixels a header declares (R205). -/
def Header.pixels (h : Header) : Nat := h.width.toNat * h.height.toNat

/-- Read and validate a header, and give the bytes after it (R206): a stream shorter than 14 bytes is `Truncated`, then magic,
channels and pixel count in this order. -/
def readHeader : List Byte → Except ErrCode (Header × List Byte)
  | m3 :: m2 :: m1 :: m0 :: w3 :: w2 :: w1 :: w0 :: h3 :: h2 :: h1 :: h0 :: ch :: cs :: rest =>
    let h : Header :=
      { width := w3 ++ w2 ++ w1 ++ w0, height := h3 ++ h2 ++ h1 ++ h0, channels := ch, colourSpace := cs }
    if m3 ++ m2 ++ m1 ++ m0 ≠ Config.magic then .error .invalidMagic
    else if !legalChannels ch.toNat then .error .invalidChannels
    else if Config.maxPixels < h.pixels then .error .imageTooLarge
    else .ok (h, rest)
  | _ => .error .truncated

/-- `decode_header(bytes)` (R205): the header alone. -/
def decodeHeader (file : List Byte) : Except ErrCode Header :=
  match readHeader file with
  | .ok (h, _) => .ok h
  | .error e => .error e

/-- The full byte stream of a framed encode: "the header collaborator writes the 14-byte header before the engine's first byte"
(20_memory.md R53, 43_interfaces.md R206). -/
def fullStream (h : Header) (engineBytes : List Byte) : List Byte := h.bytes ++ engineBytes

end Sys2Proof.Machine
end

