-- ==== Sys2Proof/Machine/Calls.lean ====
section
/-! DEFINITION. The programmatic surface: the calls `encode` and `decode` of software, each one job from its `JOB` writes to its
result (43_interfaces.md R200, R202, R205). A call is made while the engine is not BUSY (R200 step 1; log 18). -/

namespace Sys2Proof.Machine

open Sys2Proof

/-! ### One job as one function call -/

/-- What software does, action by action. -/
def State.performAll (s : State) (actions : List Action) : State := actions.foldl State.perform s

/-- Run the job to completion (R200 step 2), in at most `n` steps; a machine that is not BUSY stays. -/
def runJob : Nat → State → State
  | 0, s => s
  | n + 1, s =>
    if s.status.state = .busy then
      match step s with
      | .next t => runJob n t
      | _ => s
    else s

/-- The state after one job: "A model may present a job as one function call that returns `STATUS`" (R200). The steps a started job
still takes bound its run (70_reset_and_hazards.md R263). -/
def jobCall (s : State) (actions : List Action) : State :=
  let t := s.performAll actions
  runJob (stepsLeft t) t

/-- The bytes of `OUT` at the offsets below `n`, in order; a completed job has written all it reports. -/
def firstBytes (m : Memory) (n : Nat) : List Byte := (List.range n).filterMap (Memory.read m)

/-- The result of a job whose output is the first `n` bytes of `OUT`: those bytes where it is DONE, else its error. -/
def State.result (s : State) (n : Nat) : Except ErrCode (List Byte) :=
  if s.status.state = .done then .ok (firstBytes s.out n) else .error s.status.err

/-! ### encode -/

/-- The `JOB` writes of `encode(pixels, width, height)` and the start of its job, in the order of R202. -/
def encodeActions (pixels : Source) (nPixels ch : Nat) (framed : Bool) (cacheIn : CacheIn) (sink : Sink) : List Action :=
  [.setMode .encode, .setCh ch, .setIn pixels, .setNPixels (some nPixels), .setFramed framed, .setCacheIn cacheIn,
    .setOut sink, .start]

/-- `encode(pixels, width, height) -> bytes | error` (R202): the machine after the job, and the result. The encoder's result is the
"count of bytes written" (10_state.md R31) of `OUT`, in framed mode after the header (R206, 20_memory.md R53). `sink` is the
caller's buffer for the engine's own bytes, which exclude the header (R203). -/
def encodeCall (s : State) (pixels : Source) (width height : BitVec 32) (ch : Nat) (framed : Bool) (colourSpace : Byte)
    (cacheIn : CacheIn) (sink : Sink) : State × Except ErrCode (List Byte) :=
  let t := jobCall s (encodeActions pixels (width.toNat * height.toNat) ch framed cacheIn sink)
  (t, (t.result t.status.bytesOut).map fun bytes =>
    if framed then fullStream (Header.ofEncode width height ch colourSpace) bytes else bytes)

/-! ### decode -/

/-- The `JOB` writes of a decode and the start of its job (R205 steps 2 to 4). -/
def decodeActions (input : Source) (nPixels ch : Nat) (outCh : Option Nat) (framed : Bool) (cacheIn : CacheIn) (sink : Sink) :
    List Action :=
  [.setMode .decode, .setNPixels (some nPixels), .setCh ch, .setOutCh outCh, .setFramed framed, .setIn input,
    .setCacheIn cacheIn, .setOut sink, .start]

/-- "The pixels returned are the first `STATUS.PIXELS · OUT_CH` bytes of `OUT`" (R205). -/
def State.decodedPixels (s : State) : Except ErrCode (List Byte) := s.result (s.status.pixels * s.job.outCh)

/-- A decode in payload-only mode: "the container supplies `N_PIXELS` and `CH` itself, and the job runs with `FRAMED = false`"
(R205). -/
def decodePayloadCall (s : State) (payload : Source) (nPixels ch : Nat) (outCh : Option Nat) (cacheIn : CacheIn)
    (sink : Sink) : State × Except ErrCode (List Byte) :=
  let t := jobCall s (decodeActions payload nPixels ch outCh false cacheIn sink)
  (t, t.decodedPixels)

/-- `decode(bytes) -> (header, pixels) | error` (R205): on a bad header its error, and "no job is started"; on a good one the machine
after one framed decode job over bytes 14 to the end, and its header and pixels. `backing` is what stands behind those bytes. -/
def decodeCall (s : State) (file : List Byte) (backing : Backing) (outCh : Option Nat) (cacheIn : CacheIn) (sink : Sink) :
    State × Except ErrCode (Header × List Byte) :=
  match readHeader file with
  | .error e => (s, .error e)
  | .ok (h, rest) =>
    let t := jobCall s (decodeActions { bytes := rest, backing := backing } h.pixels h.channels.toNat outCh true cacheIn sink)
    (t, t.decodedPixels.map fun pixels => (h, pixels))

end Sys2Proof.Machine
end

