-- ==== Sys2Proof/Machine/Registers.lean ====
section
/-! DEFINITION. `JOB` and `STATUS` at the addresses of a platform's register map (10_state.md R30, R31; 20_memory.md R58;
43_interfaces.md R208). "A model takes it as an argument" (93 I10): every function here has the map as its argument. -/

namespace Sys2Proof.Machine

open Sys2Proof

/-- The fields of `JOB` (R30) and of `STATUS` (R31). `IN` is written with its length and `OUT` with its capacity, as R30 lists
them. -/
inductive Reg where
  | mode
  | ch
  | outCh
  | nPixels
  | framed
  | cacheIn
  | input
  | output
  | state
  | err
  | errActual
  | errRequired
  | bytesIn
  | bytesOut
  | pixels
  | cacheOut
  deriving DecidableEq, Repr

/-- `REG_MAP`, OPEN: the address a platform gives each field (R208, 92 D14; log 16). -/
abbrev RegMap := Reg → Nat

/-- What a field holds: the spec gives the fields values, and no widths (log 16). -/
inductive RegValue where
  | mode (m : JobMode)
  | count (n : Nat)
  /-- A count that the caller need not give: `OUT_CH`, `N_PIXELS`. -/
  | request (n : Option Nat)
  | flag (b : Bool)
  | cacheIn (c : CacheIn)
  | source (src : Source)
  | sink (k : Sink)
  | runState (r : RunState)
  | cacheOut (c : CacheOut)
  deriving DecidableEq, Repr

/-- Every field. -/
def Reg.all : List Reg :=
  [.mode, .ch, .outCh, .nPixels, .framed, .cacheIn, .input, .output, .state, .err, .errActual, .errRequired, .bytesIn,
    .bytesOut, .pixels, .cacheOut]

/-- The value a field holds (R30, R31; the number of an error kind is that of 60_exceptions.md R228). -/
def State.readReg (s : State) : Reg → RegValue
  | .mode => .mode s.job.mode
  | .ch => .count s.job.ch
  | .outCh => .request s.job.outChReq
  | .nPixels => .count s.job.nPixels
  | .framed => .flag s.job.framed
  | .cacheIn => .cacheIn s.job.cacheIn
  | .input => .source s.job.src
  | .output => .sink s.job.sink
  | .state => .runState s.status.state
  | .err => .count s.status.err.code
  | .errActual => .count s.status.errActual
  | .errRequired => .count s.status.errRequired
  | .bytesIn => .count s.status.bytesIn
  | .bytesOut => .count s.status.bytesOut
  | .pixels => .count s.status.pixels
  | .cacheOut => .cacheOut s.status.cacheOut

/-- The write of a field as an action of software. `STATUS`: "All fields are read-only to software" (R31), so a write of one is no
action; nor is a write of a value that the field cannot hold (log 16). -/
def Reg.write : Reg → RegValue → Option Action
  | .mode, .mode m => some (.setMode m)
  | .ch, .count n => some (.setCh n)
  | .outCh, .request n => some (.setOutCh n)
  | .nPixels, .request n => some (.setNPixels n)
  | .framed, .flag b => some (.setFramed b)
  | .cacheIn, .cacheIn c => some (.setCacheIn c)
  | .input, .source src => some (.setIn src)
  | .output, .sink k => some (.setOut k)
  | _, _ => none

/-- The field at an address, if the map places one there. -/
def RegMap.regAt (map : RegMap) (addr : Nat) : Option Reg := Reg.all.find? fun r => map r == addr

/-- A read of an address of the platform: the field that the map places there. An address without a field is no address of the
block, which "fixes no address" (20_memory.md R58). -/
def State.readAt (map : RegMap) (s : State) (addr : Nat) : Option RegValue := (map.regAt addr).map s.readReg

/-- A write to an address of the platform: the write of the field that the map places there. -/
def State.writeAt (map : RegMap) (s : State) (addr : Nat) (v : RegValue) : State :=
  match (map.regAt addr).bind (Reg.write · v) with
  | some a => s.perform a
  | none => s

end Sys2Proof.Machine
end

