-- ==== Sys2Proof/Safety.lean ====
section
/-! DEFINITION. What a sound state is, and the words the statements use: an invariant of the machine, what a sink takes, what an
opcode has written to OUT, and that a job completes. -/

namespace Sys2Proof.Machine

open Sys2Proof

/-! ### The invariant -/

/-- `ERR` is 0 exactly when `STATE ≠ ERROR`; `CACHE_OUT` is an image exactly when `STATE = DONE`, and then of 1088 entries
(10_state.md R31; 20_memory.md R60; 60_exceptions.md R230). -/
structure Status.Ok (t : Status) : Prop where
  err_iff : t.state = .error ↔ t.err ≠ .none
  image_iff : t.state = .done ↔ ∃ es, t.cacheOut = .image es
  image_size : ∀ es, t.cacheOut = .image es → es.length = 1088

/-- A running encode job: its counters stay in their ranges (10_state.md R23, R29), no run is pending after the last pixel
(41_encoder.md R137), what it has emitted stays within `N·(CH + 1)` bytes and the padding (R138), alpha is 255 in 3-channel
operation (10_state.md R22), and every byte up to `op` has been written. -/
structure State.EncodeOk (s : State) : Prop where
  pi_le : s.pi ≤ encodePixels s.job
  run_lt : s.run.toNat < runCap
  run_flushed : s.pi = encodePixels s.job → s.run = 0
  budget : s.op + s.run.toNat * (s.job.ch + 1) ≤ s.pi * (s.job.ch + 1) + (if s.tailDone then 8 else 0)
  alpha : s.job.ch = 3 → s.px.a = 255 ∧ s.cur.a = 255
  written : ∀ a, a < s.op → (Memory.read s.out a).isSome = true
  tail : s.tailDone = true → s.job.framed = true ∧ s.pi = encodePixels s.job

/-- A running decode job: `op` and `pc` stay in their ranges (10_state.md R28, 42_decoder.md R160), and every byte of the pixels
counted has been written (20_memory.md R54). -/
structure State.DecodeOk (s : State) : Prop where
  op_le : s.op ≤ s.job.nPixels
  pc_le : s.pc ≤ s.job.inLen
  written : ∀ a, a < s.op * s.job.outCh → (Memory.read s.out a).isSome = true
  tail : s.tailDone = true → s.job.framed = true ∧ s.op = s.job.nPixels

/-- The machine's invariant: OUT is canonical, `STATUS` is sound, and a running job is one whose START checks passed. -/
structure State.Inv (s : State) : Prop where
  out_wf : Memory.wf s.out
  status_ok : s.status.Ok
  checked : s.status.state = .busy → s.job.check = .none
  encode_ok : s.status.state = .busy → s.job.mode = .encode → s.EncodeOk
  decode_ok : s.status.state = .busy → s.job.mode = .decode → s.DecodeOk

/-! ### Sinks, pixels written -/

/-- `OUT_CH` is legal, as START checks (10_state.md R30, 60_exceptions.md R226). -/
abbrev Job.legalOut (j : Job) : Prop := j.outCh = 3 ∨ j.outCh = 4

/-- The sink takes all the bytes of the next `n` pixels, clamped to the pixels that remain. -/
abbrev State.takesPixels (s : State) (n : Nat) : Prop :=
  s.job.sink.accepts (s.op * s.job.outCh) (clampRun s n * s.job.outCh) = clampRun s n * s.job.outCh

/-- `after` is `before` with the `m` pixels from pixel `op` on holding `p`, and nothing else written: pixel `j` is the bytes
`j·OUT_CH .. j·OUT_CH + OUT_CH - 1` (20_memory.md R54, 42_decoder.md R172). -/
def pixelsWritten (j : Job) (before after : Memory) (op m : Nat) (p : Pixel) : Prop :=
  (∀ i k, i < m → k < j.outCh →
    Memory.read after ((op + i) * j.outCh + k) = (outPixel j.ch j.outCh p)[k]?) ∧
  (∀ a, a < op * j.outCh ∨ (op + m) * j.outCh ≤ a → Memory.read after a = Memory.read before a)

/-- `after` is `before` with `bytes` at the offsets from `op` on, and nothing else written (20_memory.md R53). -/
def bytesWritten (before after : Memory) (op : Nat) (bytes : List Byte) : Prop :=
  (∀ k, k < bytes.length → Memory.read after (op + k) = bytes[k]?) ∧
  (∀ a, a < op ∨ op + bytes.length ≤ a → Memory.read after a = Memory.read before a)

/-- A backing that never fails: every slice, and a stream that does not (43_interfaces.md R207). -/
abbrev Backing.reliable (b : Backing) : Prop := b.failsAt = none

/-- No address lies in both `IN` and `OUT` (20_memory.md R66; log 6). -/
abbrev disjoint (src : Source) (sink : Sink) : Prop :=
  ∀ a b x, src.backing = .slice a → sink.backing = .slice b →
    ¬(a ≤ x ∧ x < a + src.bytes.length ∧ b ≤ x ∧ x < b + sink.cap)

/-! ### Jobs that run -/

/-- The machine reaches `t` from `s`, and `t` is a completed job. -/
def completes (s t : State) : Prop :=
  ∃ k, Host.Core.run Sys2Proof.core k s = .next t ∧ t.status.state = .done

/-- Two states of a decode job agree on everything an opcode reads but the job's channel counts (42_decoder.md R174). -/
abbrev sameDecoder (s t : State) : Prop :=
  s.px = t.px ∧ s.cache = t.cache ∧ s.pc = t.pc ∧ s.op = t.op ∧ s.cfg = t.cfg ∧ s.job.nPixels = t.job.nPixels

/-- Every entry of the cache is the zero pixel or sits in the slot of its own hash (40_pixel_cache.md R101, R110). -/
def Cache.placed (c : Cache) : Prop :=
  (∀ k, c.primaryAt k = Pixel.zero ∨ primarySlot (c.primaryAt k) = k) ∧
  (∀ k, c.secondaryAt k = Pixel.zero ∨ secondarySlot (c.secondaryAt k) = k)

end Sys2Proof.Machine
end

