-- ==== Sys2Proof/Certificates/Slice0/Obligations.lean ====
section
/-! DEFINITION. The statements about the model, taken from the numbered rules of spec/. -/

open Sys2Proof Sys2Proof.Machine

/-! ### Encoding -/

/-- R70 to R83: decoding the bytes of a well-formed opcode gives the opcode and leaves the bytes after it, for every
configuration and every operand. -/
def Obligations.DecodeOfEncodeIsInstr : Prop :=
  ∀ (c : Config) (i : Instr) (rest : List Byte), i.wf c = true → decode c (encode c i ++ rest) = .ok (i, rest)

/-- What the decoder reads is well formed and encodes to the very bytes it read: every decodable word has one meaning. -/
def Obligations.EncodeOfDecodeIsBytes : Prop :=
  ∀ (c : Config) (bs rest : List Byte) (i : Instr), decode c bs = .ok (i, rest) →
    i.wf c = true ∧ encode c i ++ rest = bs

/-- R85: "No byte sequence is illegal: every leading byte and every second byte decodes to an opcode, and the only decode failure is
running out of bytes". -/
def Obligations.OnlyEndOfBytesFailsDecode : Prop :=
  ∀ (c : Config) (bs : List Byte),
    (∃ i rest, decode c bs = .ok (i, rest)) ↔ (bs ≠ [] ∧ opLen (bs.headD 0) ≤ bs.length)

/-- R70: the length of an opcode is fixed by its leading byte alone, by the table of R70, and that many bytes are read. -/
def Obligations.LeadingByteFixesLength : Prop :=
  (∀ b : Byte, opLen b = if b.toNat < 0x80 then 1 else if b.toNat < 0xC0 then 2 else if b.toNat < 0xFE then 1
    else if b.toNat = 0xFE then 4 else 5) ∧
  (∀ (c : Config) (b : Byte) (rest rest' : List Byte) (i : Instr), decode c (b :: rest) = .ok (i, rest') →
    i.len = opLen b ∧ rest'.length + opLen b = rest.length + 1)

/-- R72, R73, R74, R75, R83: the one-byte forms and how their operands are assembled. -/
def Obligations.OneByteFormsAssembleOperands : Prop :=
  ∀ (c : Config) (b : Byte) (rest : List Byte),
    (b.toNat ≤ 0x3F → decode c (b :: rest) = .ok (.idx (BitVec.ofNat 6 b.toNat), rest)) ∧
    (b.toNat = 0x40 + 21 * c.diffBias.toNat → decode c (b :: rest) = .ok (.rep1, rest)) ∧
    (0x40 ≤ b.toNat → b.toNat ≤ 0x7F → b.toNat ≠ 0x40 + 21 * c.diffBias.toNat →
      decode c (b :: rest) = .ok (.diff (BitVec.ofNat 2 (b.toNat / 16)) (BitVec.ofNat 2 (b.toNat / 4))
        (BitVec.ofNat 2 b.toNat), rest)) ∧
    (0xC0 ≤ b.toNat → b.toNat ≤ 0xFD → decode c (b :: rest) = .ok (.run (BitVec.ofNat 6 b.toNat), rest))

/-- R76 to R80, R83: in the two-byte group the first matching line decides, and the operands are assembled from both bytes. -/
def Obligations.TwoByteGroupFirstLineDecides : Prop :=
  ∀ (c : Config) (b1 b2 : Byte) (rest : List Byte), 0x80 ≤ b1.toNat → b1.toNat ≤ 0xBF →
    ((b1 = c.marker1 ∧ b2 = c.marker2) → decode c (b1 :: b2 :: rest) = .ok (.maxrun, rest)) ∧
    (¬(b1 = c.marker1 ∧ b2 = c.marker2) → b2.toNat / 16 = 15 →
      decode c (b1 :: b2 :: rest) = .ok (.lrun (BitVec.ofNat 10 (b1.toNat % 64 * 16 + b2.toNat % 16)), rest)) ∧
    (¬(b1 = c.marker1 ∧ b2 = c.marker2) → b2.toNat / 16 ≠ 15 → b2.toNat % 16 = 15 →
      decode c (b1 :: b2 :: rest) = .ok (.lidx (BitVec.ofNat 10 (b1.toNat % 64 * 16 + b2.toNat / 16)), rest)) ∧
    (¬(b1 = c.marker1 ∧ b2 = c.marker2) → b2.toNat / 16 ≠ 15 → b2.toNat % 16 ≠ 15 →
      decode c (b1 :: b2 :: rest) =
        .ok (.luma (BitVec.ofNat 6 b1.toNat) (BitVec.ofNat 4 (b2.toNat / 16)) (BitVec.ofNat 4 b2.toNat), rest))

/-- A sanity statement: words of the spec's own examples (95_test_vectors.md), one of each row, decode to their opcodes at the
default parameters. -/
def Obligations.SpecExampleWordsDecode : Prop :=
  decode Config.default [0x11] = .ok (.idx 17, []) ∧
  decode Config.default [0x7A] = .ok (.diff 3 2 2, []) ∧
  decode Config.default [0x6A] = .ok (.rep1, []) ∧
  decode Config.default [0x9C, 0x53] = .ok (.luma 28 5 3, []) ∧
  decode Config.default [0xBB, 0xFF] = .ok (.lrun 959, []) ∧
  decode Config.default [0xBC, 0xF0] = .ok (.maxrun, []) ∧
  decode Config.default [0x8D, 0x1F] = .ok (.lidx 209, []) ∧
  decode Config.default [0xC1] = .ok (.run 1, []) ∧
  decode Config.default [0xFE, 0x0B, 0x79, 0xE7] = .ok (.rgb 11 121 231, []) ∧
  decode Config.default [0xFF, 0x0B, 0x79, 0xE7, 0x37] = .ok (.rgba 11 121 231 55, [])

/-! ### Pixel arithmetic and the cache -/

/-- R100: the hash, its range, the two slots, and "the primary slot of a pixel is the low 6 bits of its secondary slot". -/
def Obligations.SlotsAreMaskedHash : Prop :=
  ∀ p : Pixel,
    pixelHash p = 3 * p.r.toNat + 5 * p.g.toNat + 7 * p.b.toNat + 11 * p.a.toNat ∧ pixelHash p ≤ 6630 ∧
    (primarySlot p).toNat = pixelHash p % 64 ∧ (secondarySlot p).toNat = pixelHash p % 1024 ∧
    lowSlot (secondarySlot p) = primarySlot p

/-- R102: a channel delta is in [-128, 127], and applying it gives the channel back; relative luma deltas may be read as wrapped
or as exact. -/
def Obligations.DeltaAppliedGivesChannel : Prop :=
  (∀ x y : Byte, -128 ≤ delta x y ∧ delta x y ≤ 127 ∧ add8 x (delta x y) = y) ∧
  (∀ dr dg : Int, -128 ≤ dr → dr ≤ 127 → -32 ≤ dg → dg ≤ 31 →
    ((-4 ≤ s8 (dr - dg) ∧ s8 (dr - dg) ≤ 3) ↔ (-4 ≤ dr - dg ∧ dr - dg ≤ 3)))

/-- R103: the bytes of `DeltaEncode` at the default parameters, by the ranges of the signed-wrapped deltas. The deltas are given by what
they are: in [-128, 127], and equal mod 256 to the differences. -/
def Obligations.DeltaEncodeBytesByRanges : Prop :=
  ∀ (prev cur : Pixel) (dr dg db drg dbg : Int) (bytes : List Byte) (small luma : Prop), cur ≠ prev →
    (-128 ≤ dr ∧ dr ≤ 127 ∧ (prev.r.toNat + dr) % 256 = cur.r.toNat) →
    (-128 ≤ dg ∧ dg ≤ 127 ∧ (prev.g.toNat + dg) % 256 = cur.g.toNat) →
    (-128 ≤ db ∧ db ≤ 127 ∧ (prev.b.toNat + db) % 256 = cur.b.toNat) →
    (-128 ≤ drg ∧ drg ≤ 127 ∧ (drg - (dr - dg)) % 256 = 0) →
    (-128 ≤ dbg ∧ dbg ≤ 127 ∧ (dbg - (db - dg)) % 256 = 0) →
    (small ↔ cur.a = prev.a ∧ -2 ≤ dr ∧ dr ≤ 1 ∧ -2 ≤ dg ∧ dg ≤ 1 ∧ -2 ≤ db ∧ db ≤ 1) →
    (luma ↔ cur.a = prev.a ∧ -32 ≤ dg ∧ dg ≤ 31 ∧ -4 ≤ drg ∧ drg ≤ 3 ∧ -4 ≤ dbg ∧ dbg ≤ 3) →
    bytes = encode Config.default (deltaEncode Config.default prev cur) →
    (small → bytes = [BitVec.ofInt 8 (0x40 + (dr + 2) * 16 + (dg + 2) * 4 + (db + 2))]) ∧
    (¬ small → luma → bytes = [BitVec.ofInt 8 (0x80 + (dg + 32)), BitVec.ofInt 8 ((drg + 4) * 16 + (dbg + 4))]) ∧
    (¬ small → ¬ luma → cur.a = prev.a → bytes = [0xFE, cur.r, cur.g, cur.b]) ∧
    (cur.a ≠ prev.a → bytes = [0xFF, cur.r, cur.g, cur.b, cur.a])

/-- R103: `DeltaEncode` takes the smallest viable form. No small delta, no luma delta with nibbles 0..7 and no literal that gives `cur`
from `prev` is shorter, and alpha decides between the literals. -/
def Obligations.DeltaEncodeTakesSmallestForm : Prop :=
  ∀ (c : Config) (prev cur : Pixel), cur ≠ prev →
    (∀ dr dg db, updateDiff c prev dr dg db = cur → (deltaEncode c prev cur).len = 1) ∧
    (∀ dg drg dbg, drg.toNat < 8 → dbg.toNat < 8 → updateLuma c prev dg drg dbg = cur →
      (deltaEncode c prev cur).len ≤ 2) ∧
    (cur.a = prev.a → (deltaEncode c prev cur).len ≤ 4) ∧
    (cur.a ≠ prev.a → deltaEncode c prev cur = .rgba cur.r cur.g cur.b cur.a)

/-- R105: for `cur ≠ prev` the output of `DeltaEncode` is a well-formed opcode of its own: never REPEAT_ONCE, and a luma delta's
nibbles are in 0..7, so it never collides with REP1, LRUN, MAXRUN or LIDX. -/
def Obligations.DeltaEncodeNeverCollides : Prop :=
  ∀ (c : Config) (prev cur : Pixel), c.wf = true → cur ≠ prev →
    (deltaEncode c prev cur).wf c = true ∧ encode c (deltaEncode c prev cur) ≠ [c.repeatOnce] ∧
    (∀ dg drg dbg, deltaEncode c prev cur = .luma dg drg dbg → drg.toNat < 8 ∧ dbg.toNat < 8) ∧
    (∃ r g b a dr dg db ddg drg dbg, deltaEncode c prev cur = .diff dr dg db ∨
      deltaEncode c prev cur = .luma ddg drg dbg ∨ deltaEncode c prev cur = .rgb r g b ∨
      deltaEncode c prev cur = .rgba r g b a)

/-- R109, with R163, R165, R170 and R171: the bytes of `DeltaEncode(prev, cur)` decode to its opcode, and executing that with
`PX = prev` gives `PX = cur` and inserts `cur` into the cache. -/
def Obligations.DeltaEncodeInverse : Prop :=
  ∀ (s : State) (cur : Pixel) (rest : List Byte), s.cfg.wf = true → cur ≠ s.px → s.job.legalOut → s.takesPixels 1 →
    decode s.cfg (encode s.cfg (deltaEncode s.cfg s.px cur) ++ rest) = .ok (deltaEncode s.cfg s.px cur, rest) ∧
    ∃ t, exec (deltaEncode s.cfg s.px cur) s = .next t ∧ t.px = cur ∧
      t.cache = s.cache.insertEvict cur (primarySlot cur) ∧ t.pc = s.pc + (deltaEncode s.cfg s.px cur).len ∧
      t.status = s.status ∧ pixelsWritten s.job s.out t.out s.op (clampRun s 1) cur

/-- R110: insert-and-evict, read back at every slot of both tables. -/
def Obligations.InsertEvictMovesOccupant : Prop :=
  ∀ (c : Cache) (p : Pixel) (k : BitVec 6),
    (c.insertEvict p k).primaryAt k = p ∧
    (∀ j, j ≠ k → (c.insertEvict p k).primaryAt j = c.primaryAt j) ∧
    (c.insertEvict p k).secondaryAt (secondarySlot (c.primaryAt k)) = c.primaryAt k ∧
    (∀ j, j ≠ secondarySlot (c.primaryAt k) → (c.insertEvict p k).secondaryAt j = c.secondaryAt j)

/-- R112: promotion writes the pixel of secondary slot `s` into primary slot `s & 63`; "the displaced primary pixel goes to the
secondary slot of its own hash ... `SECONDARY[s]` otherwise keeps `p`". -/
def Obligations.PromotionInsertsSecondary : Prop :=
  ∀ (c : Cache) (s : BitVec 10) (k : BitVec 6), k.toNat = s.toNat % 64 →
    (c.promote s).primaryAt k = c.secondaryAt s ∧
    (∀ j, j ≠ k → (c.promote s).primaryAt j = c.primaryAt j) ∧
    (c.promote s).secondaryAt (secondarySlot (c.primaryAt k)) = c.primaryAt k ∧
    (∀ j, j ≠ secondarySlot (c.primaryAt k) → (c.promote s).secondaryAt j = c.secondaryAt j) ∧
    (secondarySlot (c.primaryAt k) ≠ s → (c.promote s).secondaryAt s = c.secondaryAt s)

/-- A fresh cache is placed (R101), and every insertion at a pixel's own slot, and every promotion (R112), keeps it so: each entry is
the zero pixel or sits at the slot of its own hash, so a hit in a table means the pixel was put there. -/
def Obligations.InsertionKeepsCachePlaced : Prop :=
  Cache.fresh.placed ∧
  (∀ (c : Cache) (p : Pixel), c.placed → (c.insertEvict p (primarySlot p)).placed) ∧
  (∀ (c : Cache) (s : BitVec 10), c.placed → (c.promote s).placed)

/-- R115: the bytes written for a pixel, for each source and output channel count. -/
def Obligations.OutPixelAdaptsChannels : Prop :=
  ∀ p : Pixel, outPixel 4 4 p = [p.r, p.g, p.b, p.a] ∧ outPixel 4 3 p = [p.r, p.g, p.b] ∧
    outPixel 3 3 p = [p.r, p.g, p.b] ∧ outPixel 3 4 p = [p.r, p.g, p.b, 0xFF]

/-- R135: the bytes of a flushed run of `n` repeats, and that decoding them repeats `n` pixels. -/
def Obligations.RunFlushBytes : Prop :=
  ∀ (c : Config) (n : Nat), 1 ≤ n → n ≤ 1023 →
    pixelCount (flushRun n) = n ∧
    (n = 1 → encode c (flushRun n) = [c.repeatOnce]) ∧
    (2 ≤ n → n ≤ 63 → encode c (flushRun n) = [BitVec.ofNat 8 (0xC0 + (n - 2))]) ∧
    (64 ≤ n → encode c (flushRun n) =
      [BitVec.ofNat 8 (0x80 + (n - 64) / 16), BitVec.ofNat 8 (0xF0 + (n - 64) % 16)])

/-! ### The opcodes -/

/-- R162: IDX gives `PX = PRIMARY[i]` and one pixel; nothing else changes, the cache least of all. -/
def Obligations.IdxReadsPrimarySlot : Prop :=
  ∀ (i : BitVec 6) (s : State), s.job.legalOut → s.takesPixels 1 →
    ∃ out, exec (.idx i) s = .next { s with
        px := s.cache.primaryAt i, pc := s.pc + 1, op := s.op + min 1 (s.job.nPixels - s.op), out := out } ∧
      pixelsWritten s.job s.out out s.op (min 1 (s.job.nPixels - s.op)) (s.cache.primaryAt i)

/-- R163: DIFF adds the three unbiased deltas mod 256, keeps alpha, inserts the new pixel and writes it; nothing else changes. -/
def Obligations.DiffAddsSmallDeltas : Prop :=
  ∀ (dr dg db : BitVec 2) (s : State), s.job.legalOut → s.takesPixels 1 →
    ∃ p out, exec (.diff dr dg db) s = .next { s with
        px := p, cache := s.cache.insertEvict p (primarySlot p), pc := s.pc + 1,
        op := s.op + min 1 (s.job.nPixels - s.op), out := out } ∧
      pixelsWritten s.job s.out out s.op (min 1 (s.job.nPixels - s.op)) p ∧
      (p.r.toNat : Int) = (s.px.r.toNat + (dr.toNat - s.cfg.diffBias.toNat) : Int) % 256 ∧
      (p.g.toNat : Int) = (s.px.g.toNat + (dg.toNat - s.cfg.diffBias.toNat) : Int) % 256 ∧
      (p.b.toNat : Int) = (s.px.b.toNat + (db.toNat - s.cfg.diffBias.toNat) : Int) % 256 ∧ p.a = s.px.a

/-- R165: LUMA adds the green delta to green, and the relative deltas on top of it to red and blue, mod 256, for nibbles 8..14 too;
alpha stays, the new pixel is inserted and written; nothing else changes. -/
def Obligations.LumaAddsRelativeDeltas : Prop :=
  ∀ (dg : BitVec 6) (drg dbg : BitVec 4) (s : State), s.job.legalOut → s.takesPixels 1 →
    ∃ p out, exec (.luma dg drg dbg) s = .next { s with
        px := p, cache := s.cache.insertEvict p (primarySlot p), pc := s.pc + 2,
        op := s.op + min 1 (s.job.nPixels - s.op), out := out } ∧
      pixelsWritten s.job s.out out s.op (min 1 (s.job.nPixels - s.op)) p ∧
      (p.g.toNat : Int) = (s.px.g.toNat + (dg.toNat - s.cfg.lumaGBias.toNat) : Int) % 256 ∧
      (p.r.toNat : Int) = (s.px.r.toNat + (dg.toNat - s.cfg.lumaGBias.toNat) +
        (drg.toNat - s.cfg.lumaRbBias.toNat) : Int) % 256 ∧
      (p.b.toNat : Int) = (s.px.b.toNat + (dg.toNat - s.cfg.lumaGBias.toNat) +
        (dbg.toNat - s.cfg.lumaRbBias.toNat) : Int) % 256 ∧ p.a = s.px.a

/-- R168: LIDX gives `PX = SECONDARY[k]` and promotes it into primary slot `k & 63`; nothing else changes. -/
def Obligations.LidxPromotesSecondarySlot : Prop :=
  ∀ (k : BitVec 10) (s : State), s.job.legalOut → s.takesPixels 1 →
    ∃ out, exec (.lidx k) s = .next { s with
        px := s.cache.secondaryAt k,
        cache := s.cache.insertEvict (s.cache.secondaryAt k) (BitVec.ofNat 6 k.toNat), pc := s.pc + 2,
        op := s.op + min 1 (s.job.nPixels - s.op), out := out } ∧
      pixelsWritten s.job s.out out s.op (min 1 (s.job.nPixels - s.op)) (s.cache.secondaryAt k)

/-- R164, R166, R167, R169, R172: REP1, LRUN, MAXRUN and RUN write 1, `v + 64`, 1024 and `n + 2` pixels of `PX`, clamped to the pixels
that remain; `PX`, the cache and everything else stay. -/
def Obligations.RunOpcodesRepeatPixel : Prop :=
  ∀ s : State, s.job.legalOut →
    (s.takesPixels 1 → ∃ out, exec .rep1 s = .next { s with
        pc := s.pc + 1, op := s.op + min 1 (s.job.nPixels - s.op), out := out } ∧
      pixelsWritten s.job s.out out s.op (min 1 (s.job.nPixels - s.op)) s.px) ∧
    (∀ v : BitVec 10, s.takesPixels (v.toNat + 64) → ∃ out, exec (.lrun v) s = .next { s with
        pc := s.pc + 2, op := s.op + min (v.toNat + 64) (s.job.nPixels - s.op), out := out } ∧
      pixelsWritten s.job s.out out s.op (min (v.toNat + 64) (s.job.nPixels - s.op)) s.px) ∧
    (s.takesPixels 1024 → ∃ out, exec .maxrun s = .next { s with
        pc := s.pc + 2, op := s.op + min 1024 (s.job.nPixels - s.op), out := out } ∧
      pixelsWritten s.job s.out out s.op (min 1024 (s.job.nPixels - s.op)) s.px) ∧
    (∀ n : BitVec 6, s.takesPixels (n.toNat + 2) → ∃ out, exec (.run n) s = .next { s with
        pc := s.pc + 1, op := s.op + min (n.toNat + 2) (s.job.nPixels - s.op), out := out } ∧
      pixelsWritten s.job s.out out s.op (min (n.toNat + 2) (s.job.nPixels - s.op)) s.px)

/-- R170, R171: RGB takes the colour and keeps alpha, RGBA takes all four samples; the pixel is inserted and written; nothing else
changes. -/
def Obligations.LiteralsSetPixel : Prop :=
  ∀ (r g b : Byte) (s : State), s.job.legalOut → s.takesPixels 1 →
    (∃ p out, p = { r := r, g := g, b := b, a := s.px.a } ∧ exec (.rgb r g b) s = .next { s with
        px := p, cache := s.cache.insertEvict p (primarySlot p), pc := s.pc + 4,
        op := s.op + min 1 (s.job.nPixels - s.op), out := out } ∧
      pixelsWritten s.job s.out out s.op (min 1 (s.job.nPixels - s.op)) p) ∧
    (∀ a : Byte, ∃ p out, p = { r := r, g := g, b := b, a := a } ∧ exec (.rgba r g b a) s = .next { s with
        px := p, cache := s.cache.insertEvict p (primarySlot p), pc := s.pc + 5,
        op := s.op + min 1 (s.job.nPixels - s.op), out := out } ∧
      pixelsWritten s.job s.out out s.op (min 1 (s.job.nPixels - s.op)) p)

/-- R207, R28, R172: with a slice-backed sink every opcode completes: no error, `pc` advances by the opcode's length and `op` by the
clamped count. -/
def Obligations.SliceSinkOpcodeCompletes : Prop :=
  ∀ (i : Instr) (s : State) (b : Nat), s.job.sink.backing = .slice b →
    ∃ t, exec i s = .next t ∧ t.status = s.status ∧ t.job = s.job ∧ t.run = s.run ∧ t.cur = s.cur ∧ t.pi = s.pi ∧
      t.pc = s.pc + i.len ∧ t.op = s.op + min (pixelCount i) (s.job.nPixels - s.op)

/-- R220, R225, R230: where the sink refuses a byte, the job ends in `IoError`: the bytes it took are written, and are the first bytes of
the pixels that the same opcode writes on a slice-backed sink; `PIXELS` counts whole pixels, and `PX`, the cache, `pc` and
`op` stay as before the opcode. The model's choices: a cut pixel's bytes stay and are not counted (log 22), where the sink
fails (log 7), and that every other byte of OUT stays, of which R231 and 93 I1 say nothing from `PIXELS * OUT_CH` on (log 5). -/
def Obligations.SinkRefusalIsIoError : Prop :=
  ∀ (i : Instr) (s : State), s.job.legalOut → ¬ s.takesPixels (pixelCount i) →
    ∃ t u k, exec i s = .next t ∧
      exec i { s with job := { s.job with sink := { s.job.sink with backing := .slice 0 } } } = .next u ∧
      u.status = s.status ∧
      k = s.job.sink.accepts (s.op * s.job.outCh) (min (pixelCount i) (s.job.nPixels - s.op) * s.job.outCh) ∧
      t.px = s.px ∧ t.cache = s.cache ∧ t.pc = s.pc ∧ t.op = s.op ∧ t.job = s.job ∧
      t.status.state = .error ∧ t.status.err.code = 5 ∧ t.status.cacheOut = .poisoned ∧
      t.status.pixels = s.op + k / s.job.outCh ∧ t.status.bytesOut = (s.op + k / s.job.outCh) * s.job.outCh ∧
      (∀ j c, c < s.job.outCh → j * s.job.outCh + c < k →
        Memory.read t.out ((s.op + j) * s.job.outCh + c) = (outPixel s.job.ch s.job.outCh u.px)[c]?) ∧
      (∀ a, s.op * s.job.outCh ≤ a → a < s.op * s.job.outCh + k → Memory.read t.out a = Memory.read u.out a) ∧
      (∀ a, a < s.op * s.job.outCh ∨ s.op * s.job.outCh + k ≤ a → Memory.read t.out a = Memory.read s.out a)

/-- R174: no opcode's effect on `PX`, the cache, `pc` or `op` depends on the channel counts. -/
def Obligations.OpcodesIgnoreChannelCount : Prop :=
  ∀ (i : Instr) (s t : State) (a b : Nat), sameDecoder s t → s.job.sink.backing = .slice a →
    t.job.sink.backing = .slice b → ∃ s' t', exec i s = .next s' ∧ exec i t = .next t' ∧ sameDecoder s' t'

/-- R263: an opcode produces at least one pixel while one is owed, at most 1087, and never more than are owed; or the job ends in
an error with `op` unchanged. -/
def Obligations.OpcodeWorkIsBounded : Prop :=
  ∀ (i : Instr) (s t : State), exec i s = .next t →
    (t.op ≤ s.op + 1087 ∧ (s.op < s.job.nPixels → s.op < t.op ∧ t.op ≤ s.job.nPixels)) ∨
    (t.status.state = .error ∧ t.op = s.op)

/-! ### The decoder's steps -/

/-- R161: a step of a running decode job with a pixel owed executes the opcode that the bytes at `pc` decode to. -/
def Obligations.StepRunsDecodedInstr : Prop :=
  ∀ (s : State) (i : Instr) (rest : List Byte), s.status.state = .busy → s.job.mode = .decode →
    s.op < s.job.nPixels → (∀ f, s.job.src.backing.failsAt = some f → s.pc + i.len ≤ f) →
    decode s.cfg (s.job.src.bytes.drop s.pc) = .ok (i, rest) → step s = exec i s

/-- R161, R173, R221: an opcode whose bytes are not all there has no effect, and the job ends in `Truncated` with the opcode's offset and
the pixels written. That OUT stays from `PIXELS * OUT_CH` on, which R231 and 93 I1 leave unspecified, is the model's choice
(log 5). -/
def Obligations.TruncatedOpcodeHasNoEffect : Prop :=
  ∀ (s : State) (e : DecodeError), s.status.state = .busy → s.job.mode = .decode → s.op < s.job.nPixels →
    s.job.src.backing.reliable → decode s.cfg (s.job.src.bytes.drop s.pc) = .error e →
    ∃ t, step s = .next t ∧ t.px = s.px ∧ t.cache = s.cache ∧ t.pc = s.pc ∧ t.op = s.op ∧ t.out = s.out ∧
      t.job = s.job ∧ t.status.state = .error ∧ t.status.err.code = 1 ∧ t.status.bytesIn = s.pc ∧
      t.status.pixels = s.op ∧ t.status.cacheOut = .poisoned

/-- R225, R220: a stream-backed source that fails, other than by ending, gives `IoError` and no effect: at the leading byte or inside
the payload of a decoder's opcode, inside the padding, or inside the encoder's next pixel. The model's choices: that a stream
fails from an offset on, looked at after the end of the input (log 7), the counters of an encoder's error and its `pi` (logs 8
and 9), and that OUT stays beyond the reported length (log 5). -/
def Obligations.SourceFailureIsIoError : Prop :=
  ∀ (s : State) (f : Nat), s.status.state = .busy → s.job.src.backing = .stream (some f) →
    (s.job.mode = .decode ∧ s.op < s.job.nPixels ∧
      ((s.pc < s.job.inLen ∧ f ≤ s.pc) ∨
        ∃ i rest, decode s.cfg (s.job.src.bytes.drop s.pc) = .ok (i, rest) ∧ f < s.pc + i.len)) ∨
    (s.job.mode = .decode ∧ s.job.nPixels ≤ s.op ∧ s.job.framed = true ∧ s.tailDone = false ∧
      s.pc + 8 ≤ s.job.inLen ∧ f < s.pc + 8) ∨
    (s.job.mode = .encode ∧ s.pi < encodePixels s.job ∧ f < (s.pi + 1) * s.job.ch) →
    ∃ t, step s = .next t ∧ t.status.state = .error ∧ t.status.err.code = 5 ∧ t.status.cacheOut = .poisoned ∧
      t.px = s.px ∧ t.cache = s.cache ∧ t.pc = s.pc ∧ t.pi = s.pi ∧ t.op = s.op ∧ t.job = s.job ∧ t.out = s.out ∧
      (s.job.mode = .decode → t.status.pixels = s.op ∧ t.status.bytesOut = s.op * s.job.outCh) ∧
      (s.job.mode = .encode → t.status.pixels = s.pi ∧ t.status.bytesOut = s.op)

/-- R175, R176, R222: the padding check of a framed decode job. Fewer than 8 bytes left is `Truncated`, eight other bytes are
`InvalidPadding`, the padding itself is consumed. The model's choices: the field tailDone, which marks that TAIL is done
(log 3), and that OUT stays beyond the pixels written after an error, which R231 and 93 I1 leave unspecified (log 5). -/
def Obligations.PaddingCheckOutcomes : Prop :=
  ∀ s : State, s.status.state = .busy → s.job.mode = .decode → s.job.nPixels ≤ s.op → s.job.framed = true →
    s.tailDone = false → s.job.src.backing.reliable →
    ((s.job.src.bytes.drop s.pc).take 8 = [0, 0, 0, 0, 0, 0, 0, s.cfg.padMarker] →
      step s = .next { s with pc := s.pc + 8, tailDone := true }) ∧
    (s.job.inLen < s.pc + 8 → ∃ t, step s = .next t ∧ t.status.state = .error ∧ t.status.err.code = 1 ∧
      t.status.bytesIn = s.pc ∧ t.status.pixels = s.op ∧ t.out = s.out) ∧
    (s.pc + 8 ≤ s.job.inLen → (s.job.src.bytes.drop s.pc).take 8 ≠ [0, 0, 0, 0, 0, 0, 0, s.cfg.padMarker] →
      ∃ t, step s = .next t ∧ t.status.state = .error ∧ t.status.err.code = 2 ∧ t.status.bytesIn = s.pc ∧
        t.status.pixels = s.op ∧ t.out = s.out)

/-! ### The encoder's steps -/

/-- R131, R23: a pixel equal to the previous one extends the run; at 1024 the marker is emitted, at the last pixel the run is flushed,
and `PX` and the cache stay. -/
def Obligations.RepeatStepExtendsRun : Prop :=
  ∀ (s : State) (raw bytes : List Byte) (r : BitVec 16), s.status.state = .busy → s.job.mode = .encode →
    s.pi < encodePixels s.job → s.run.toNat < 1024 →
    memRead s.job.src (s.pi * s.job.ch) s.job.ch = .ok raw → readPixel s.job.ch raw s.cur = s.px →
    (s.run.toNat + 1 = 1024 → bytes = [s.cfg.marker1, s.cfg.marker2] ∧ r.toNat = 0) →
    (s.run.toNat + 1 ≠ 1024 → s.pi + 1 = encodePixels s.job →
      bytes = encode s.cfg (flushRun (s.run.toNat + 1)) ∧ r.toNat = 0) →
    (s.run.toNat + 1 ≠ 1024 → s.pi + 1 ≠ encodePixels s.job → bytes = [] ∧ r.toNat = s.run.toNat + 1) →
    s.job.sink.accepts s.op bytes.length = bytes.length →
    ∃ out, step s = .next { s with cur := s.px, run := r, pi := s.pi + 1, op := s.op + bytes.length, out := out } ∧
      bytesWritten s.out out s.op bytes

/-- R132, R133, R134: a changed pixel flushes the pending run, then is emitted as IDX on a primary hit (no cache change), as LIDX
where the three conditions of R134 hold, else as its delta or literal; on a miss it is inserted; `PX` becomes it. -/
def Obligations.ChangeStepEmitsOpcode : Prop :=
  ∀ (s : State) (raw own : List Byte) (cur : Pixel), s.status.state = .busy → s.job.mode = .encode →
    s.pi < encodePixels s.job → memRead s.job.src (s.pi * s.job.ch) s.job.ch = .ok raw →
    cur = readPixel s.job.ch raw s.cur → cur ≠ s.px →
    let hit := s.cache.primaryAt (BitVec.ofNat 6 (pixelHash cur)) = cur
    let delta := encode s.cfg (deltaEncode s.cfg s.px cur)
    let k := pixelHash cur % 1024
    let long := (delta.length = 2 ∨ (delta.length = 1 ∧ s.cfg.lidxOnDiff = true)) ∧
      s.cache.secondaryAt (BitVec.ofNat 10 (pixelHash cur)) = cur ∧ k % 16 ≠ 15
    let bytes := (if s.run = 0 then [] else encode s.cfg (flushRun s.run.toNat)) ++ own
    (hit → own = [BitVec.ofNat 8 (pixelHash cur % 64)]) →
    (¬ hit → long → own = [BitVec.ofNat 8 (0x80 + k / 16), BitVec.ofNat 8 (k % 16 * 16 + 15)]) →
    (¬ hit → ¬ long → own = delta) →
    s.job.sink.accepts s.op bytes.length = bytes.length →
    ∃ out cache, step s = .next { s with
        px := cur, cur := cur, run := 0, cache := cache, pi := s.pi + 1, op := s.op + bytes.length, out := out } ∧
      (hit → cache = s.cache) ∧ (¬ hit → cache = s.cache.insertEvict cur (BitVec.ofNat 6 (pixelHash cur))) ∧
      bytesWritten s.out out s.op bytes

/-- R137, R86: the encoder's TAIL step emits the 8 padding bytes. (`tailDone` is the model's own field, log 3.) -/
def Obligations.EncoderEmitsPadding : Prop :=
  ∀ s : State, s.status.state = .busy → s.job.mode = .encode → encodePixels s.job ≤ s.pi → s.job.framed = true →
    s.tailDone = false → s.job.sink.accepts s.op 8 = 8 →
    ∃ out, step s = .next { s with op := s.op + 8, out := out, tailDone := true } ∧
      bytesWritten s.out out s.op [0, 0, 0, 0, 0, 0, 0, s.cfg.padMarker]

/-- R29: an encoder step consumes exactly one pixel and emits at most 7 bytes, or the job ends in `IoError` (R225) with `PX`, the cache
and `op` kept (R220). Where the sink refuses a byte of what a BODY or TAIL step emits, what it took is written and counted in
`BYTES_OUT`: the first bytes of what the same step emits on a slice-backed sink. The model's choices: where the sink fails
(log 7), `pi` and the count of pixels after an error (logs 8 and 9), and that OUT stays beyond the bytes taken (log 5). -/
def Obligations.EncoderStepConsumesOnePixel : Prop :=
  (∀ s t : State, s.status.state = .busy → s.job.mode = .encode → s.pi < encodePixels s.job → step s = .next t →
    (t.status = s.status ∧ t.pi = s.pi + 1 ∧ s.op ≤ t.op ∧ t.op ≤ s.op + 7) ∨
    (t.status.state = .error ∧ t.status.err.code = 5 ∧ t.status.cacheOut = .poisoned ∧
      t.pi = s.pi ∧ t.op = s.op ∧ t.px = s.px ∧ t.cache = s.cache)) ∧
  (∀ (s u : State) (k : Nat), s.status.state = .busy → s.job.mode = .encode →
    step { s with job := { s.job with sink := { s.job.sink with backing := .slice 0 } } } = .next u →
    u.status.state = .busy → k = s.job.sink.accepts s.op (u.op - s.op) → k ≠ u.op - s.op →
    ∃ t, step s = .next t ∧ t.status.state = .error ∧ t.status.err.code = 5 ∧ t.status.cacheOut = .poisoned ∧
      t.status.bytesOut = s.op + k ∧ t.status.pixels = s.pi ∧
      t.pi = s.pi ∧ t.op = s.op ∧ t.px = s.px ∧ t.cache = s.cache ∧ t.job = s.job ∧
      (∀ a, s.op ≤ a → a < s.op + k → (Memory.read u.out a).isSome = true ∧ Memory.read t.out a = Memory.read u.out a) ∧
      (∀ a, a < s.op ∨ s.op + k ≤ a → Memory.read t.out a = Memory.read s.out a))

/-- R114: after the encoder's step for a pixel that differs from the previous one, and after a decoder's IDX, DIFF, LUMA, LIDX, RGB or
RGBA that has been executed (`pc` has moved), the new pixel sits in its primary slot; an IDX or LIDX is one of a canonical
stream where its slot holds a pixel whose own slot it is. -/
def Obligations.ChangedPixelIsResident : Prop :=
  (∀ s t : State, s.status.state = .busy → s.job.mode = .encode → s.pi < encodePixels s.job → step s = .next t →
    t.px ≠ s.px → t.cache.primaryAt (primarySlot t.px) = t.px) ∧
  (∀ (s t : State) (i : Instr), i ≠ .rep1 → i ≠ .maxrun → (∀ n, i ≠ .run n) → (∀ v, i ≠ .lrun v) →
    (∀ k, i = .idx k → primarySlot (s.cache.primaryAt k) = k) →
    (∀ k, i = .lidx k → secondarySlot (s.cache.secondaryAt k) = k) →
    exec i s = .next t → t.pc ≠ s.pc → t.cache.primaryAt (primarySlot t.px) = t.px)

/-- R113: when the encoder changes pixel, the opcode it emits, executed by a decoder with the same `PX` and cache, leaves the decoder
with the encoder's `PX` and cache. The opcode is well formed, so the decoder reads it back from its bytes. -/
def Obligations.ChangeStepKeepsLockstep : Prop :=
  ∀ (d : State) (cur : Pixel), d.cfg.wf = true → cur ≠ d.px → d.job.legalOut → d.takesPixels 1 →
    (changeOpcode d.cfg d.px cur d.cache).wf d.cfg = true ∧
    ∃ t, exec (changeOpcode d.cfg d.px cur d.cache) d = .next t ∧ t.px = cur ∧
      t.cache = changeCache cur d.cache ∧ t.status = d.status ∧
      pixelsWritten d.job d.out t.out d.op (clampRun d 1) cur

/-! ### Jobs -/

/-- R229, R226, R224, R223: the START checks and their order. The conditions are written out. The model's choices: two buffers overlap
when they have an address in common (log 6), a stream has none (logs 6 and 7), and JOB says whether an encode was given its
`N_PIXELS` (log 11). -/
def Obligations.StartChecksInOrder : Prop :=
  ∀ (s : State) (invalid channels length capacity : Prop),
    (invalid ↔ s.job.mode = .illegal ∨ s.job.cacheIn = .poisoned ∨
      (∃ es, s.job.cacheIn = .image es ∧ es.length ≠ 1088) ∨
      (∃ a b x, s.job.src.backing = .slice a ∧ s.job.sink.backing = .slice b ∧ a ≤ x ∧ x < a + s.job.inLen ∧
        b ≤ x ∧ x < b + s.job.sink.cap)) →
    (channels ↔ (s.job.ch ≠ 3 ∧ s.job.ch ≠ 4) ∨
      (s.job.mode = .decode ∧ s.job.outCh ≠ 3 ∧ s.job.outCh ≠ 4)) →
    (length ↔ s.job.mode = .encode ∧ (s.job.inLen % s.job.ch ≠ 0 ∨
      (s.job.nGiven = true ∧ s.job.nPixels * s.job.ch ≠ s.job.inLen))) →
    (capacity ↔ (s.job.mode = .encode ∧ s.job.sink.cap <
        s.job.inLen / s.job.ch * (s.job.ch + 1) + (if s.job.framed then 8 else 0)) ∨
      (s.job.mode = .decode ∧ s.job.sink.cap < s.job.nPixels * s.job.outCh)) →
    (invalid → (startJob s).status.state = .error ∧ (startJob s).status.err.code = 9) ∧
    (¬ invalid → channels → (startJob s).status.state = .error ∧ (startJob s).status.err.code = 6) ∧
    (¬ invalid → ¬ channels → length → (startJob s).status.state = .error ∧ (startJob s).status.err.code = 4 ∧
      (startJob s).status.errActual = 0 ∧ (startJob s).status.errRequired = 0) ∧
    (¬ invalid → ¬ channels → ¬ length → capacity → (startJob s).status.state = .error ∧ (startJob s).status.err.code = 3 ∧
      (startJob s).status.errActual = s.job.sink.cap ∧
      (s.job.mode = .encode → (startJob s).status.errRequired =
        s.job.inLen / s.job.ch * (s.job.ch + 1) + (if s.job.framed then 8 else 0)) ∧
      (s.job.mode = .decode → (startJob s).status.errRequired = s.job.nPixels * s.job.outCh)) ∧
    (¬ invalid → ¬ channels → ¬ length → ¬ capacity → (startJob s).status.state = .busy)

/-- R231, R230: a job that fails at START changes only `STATUS`: an error, counters 0, `CACHE_OUT` poisoned. -/
def Obligations.StartFailureChangesOnlyStatus : Prop :=
  ∀ s : State, (startJob s).status.state ≠ .busy →
    ∃ e a r, e ≠ ErrCode.none ∧ startJob s = { s with status :=
      { state := .error, err := e, errActual := a, errRequired := r, bytesIn := 0, bytesOut := 0, pixels := 0,
        cacheOut := .poisoned } }

/-- R35, R250: the job-start values, set when the checks pass; `PX` is (0,0,0,255) with a supplied image too. The model's choice: its
own field tailDone, which marks that TAIL is done, starts false (log 3). -/
def Obligations.JobStartValues : Prop :=
  ∀ s : State, (startJob s).status.state = .busy →
    ∃ cache, startJob s = { s with
        px := { r := 0, g := 0, b := 0, a := 255 }, cur := { r := 0, g := 0, b := 0, a := 255 }, run := 0,
        cache := cache, pc := 0, pi := 0, op := 0, tailDone := false,
        status :=
          { state := .busy, err := .none, errActual := 0, errRequired := 0, bytesIn := 0, bytesOut := 0, pixels := 0,
            cacheOut := .poisoned } } ∧
      (s.job.cacheIn = .fresh → ∀ k l, cache.primaryAt k = Pixel.zero ∧ cache.secondaryAt l = Pixel.zero) ∧
      (∀ es, s.job.cacheIn = .image es → (∀ k, es[k.toNat]? = some (cache.primaryAt k)) ∧
        (∀ l, es[64 + l.toNat]? = some (cache.secondaryAt l)))

/-- R36, R30: the reset values the spec gives. (`PX`, `CUR`, `RUN`, the tables and the offsets have none; the model's choice for them,
log 2, is not stated.) -/
def Obligations.ResetGivesSpecValues : Prop :=
  State.reset.status =
    { state := .idle, err := .none, errActual := 0, errRequired := 0, bytesIn := 0, bytesOut := 0, pixels := 0,
      cacheOut := .poisoned } ∧
  State.reset.job.mode = .encode ∧ State.reset.job.ch = 4 ∧ State.reset.job.outCh = 4 ∧
  State.reset.job.nPixels = 0 ∧ State.reset.job.framed = false ∧ State.reset.job.cacheIn = .fresh ∧
  State.reset.job.src.bytes = [] ∧ State.reset.job.inLen = 0 ∧ State.reset.job.sink.cap = 0 ∧ State.reset.out = []

/-- R40 item 4, R60: END publishes the counters and the cache image, whose entries are the table entries, and loading that image
gives the tables back. -/
def Obligations.EndPublishesCacheImage : Prop :=
  ∀ s : State, s.status.state = .busy →
    ((s.job.mode = .encode ∧ encodePixels s.job ≤ s.pi) ∨ (s.job.mode = .decode ∧ s.job.nPixels ≤ s.op)) →
    (s.job.framed = true → s.tailDone = true) →
    ∃ es t, step s = .next { s with status := t } ∧ t.state = .done ∧ t.err = .none ∧ t.cacheOut = .image es ∧
      es.length = 1088 ∧ (∀ k, es[k.toNat]? = some (s.cache.primaryAt k)) ∧
      (∀ k, es[64 + k.toNat]? = some (s.cache.secondaryAt k)) ∧ Cache.ofImage es = s.cache ∧
      (s.job.mode = .encode → t.bytesOut = s.op ∧ t.pixels = encodePixels s.job ∧ t.bytesIn = s.job.inLen) ∧
      (s.job.mode = .decode → t.bytesIn = s.pc ∧ t.pixels = s.op ∧ t.bytesOut = s.op * s.job.outCh)

/-- R60: a serialized image is 4 bytes an entry, 4352 bytes, entry `e` at bytes `4e .. 4e + 3` in the order r, g, b, a; reading it back
gives the image. -/
def Obligations.ImageSerializesInOrder : Prop :=
  ∀ es : List Pixel, (serializeImage es).length = 4 * es.length ∧
    (es.length = 1088 → (serializeImage es).length = 4352) ∧
    (∀ e p, es[e]? = some p → (serializeImage es)[4 * e]? = some p.r ∧ (serializeImage es)[4 * e + 1]? = some p.g ∧
      (serializeImage es)[4 * e + 2]? = some p.b ∧ (serializeImage es)[4 * e + 3]? = some p.a) ∧
    deserializeImage (serializeImage es) = es

/-- R254, R252: the cache of a completed job, passed on as `CACHE_IN`, is the next job's cache at its start, and `PX` is not carried. -/
def Obligations.CarriedCacheContinues : Prop :=
  ∀ s t : State, s.status.state = .busy → step s = .next t → t.status.state = .done →
    ((t.perform .carryCache).perform .start).status.state = .busy →
    ((t.perform .carryCache).perform .start).cache = s.cache ∧
    ((t.perform .carryCache).perform .start).px = { r := 0, g := 0, b := 0, a := 255 }

/-- R61, R226, R255: the poisoned image of a job that did not complete is refused as `CACHE_IN` with `InvalidJob`. -/
def Obligations.PoisonedCacheIsRefused : Prop :=
  ∀ s : State, s.status.state ≠ .busy → s.status.cacheOut = .poisoned →
    ((s.perform .carryCache).perform .start).status.state = .error ∧
    ((s.perform .carryCache).perform .start).status.err.code = 9

/-- The model's choice for R30 and R261 (log 4): while BUSY no action of software but a power cycle changes anything, so no write is seen
by the running job. -/
def Obligations.BusyJobIgnoresSoftware : Prop :=
  ∀ (s : State) (a : Action), s.status.state = .busy → a ≠ .powerCycle → s.perform a = s

/-- R40: between jobs nothing changes until software acts (log 12: the model's idle step); and software's next action is what the
step performs. -/
def Obligations.IdleStepIsSoftwareOnly : Prop :=
  ∀ s : State, s.status.state ≠ .busy →
    (s.pending = [] → step s = .next s) ∧
    (∀ a rest, s.pending = a :: rest → step s = .next (State.perform { s with pending := rest } a))

/-! ### The whole machine -/

/-- The power-on state meets the invariant. -/
def Obligations.ResetMeetsInvariant : Prop := State.reset.Inv

/-- Every step, from every state that meets the invariant, leads to one that does: OUT stays canonical, `STATUS` sound, `RUN` below
1024 and flushed at the end (R23, R137), the output within its bound (R138), alpha 255 in 3-channel operation (R22), `pc` and
`op` in range (R28, R160). -/
def Obligations.StepKeepsInvariant : Prop :=
  ∀ s t : State, s.Inv → step s = .next t → t.Inv

/-- R138, R223: what an encode job has emitted is within the worst case `N·(CH + 1)` (and the padding), which is within `OUT_CAP`; and a
decode job's pixels are within `OUT_CAP`. -/
def Obligations.OutputStaysWithinCapacity : Prop :=
  ∀ s : State, s.Inv → s.status.state = .busy →
    (s.job.mode = .encode → s.op ≤ encodePixels s.job * (s.job.ch + 1) + (if s.job.framed then 8 else 0) ∧
      s.op ≤ s.job.sink.cap) ∧
    (s.job.mode = .decode → s.op * s.job.outCh ≤ s.job.nPixels * s.job.outCh ∧
      s.op * s.job.outCh ≤ s.job.sink.cap)

/-- R54, R59: no step of a running job writes a byte of OUT at or beyond the required size, which is at most `OUT_CAP`. -/
def Obligations.NoWriteBeyondRequiredSize : Prop :=
  ∀ s t : State, s.Inv → s.status.state = .busy → step s = .next t →
    s.job.required ≤ s.job.sink.cap ∧ ∀ a, s.job.required ≤ a → Memory.read t.out a = Memory.read s.out a

/-- Every step answers a next state, whatever the state: no opcode, no input and no error stops the machine. -/
def Obligations.StepAlwaysAnswers : Prop := ∀ s : State, ∃ t, step s = .next t

/-- R30: `JOB` is read-only while it runs. The model's choices: the parameters of R9 are a record in State that no step changes (log 1),
and what software does next is a list in State that a step of a running job does not look at (log 12). -/
def Obligations.RunningJobKeepsDescriptor : Prop :=
  ∀ s t : State, step s = .next t →
    t.cfg = s.cfg ∧ (s.status.state = .busy → t.job = s.job ∧ t.pending = s.pending)

/-- R221, R222, R228: the encoder's steps end only in `IoError`; a running decode job's in `Truncated`, `InvalidPadding` or `IoError`; an
error always poisons `CACHE_OUT`. -/
def Obligations.RunningJobErrorKinds : Prop :=
  ∀ s t : State, s.status.state = .busy → s.job.mode ≠ .illegal → step s = .next t →
    t.status = s.status ∨ (t.status.state = .done ∧ t.status.err = .none) ∨
    (t.status.state = .error ∧ t.status.cacheOut = .poisoned ∧
      (s.job.mode = .encode → t.status.err = .ioError) ∧
      (s.job.mode = .decode → t.status.err = .truncated ∨ t.status.err = .invalidPadding ∨ t.status.err = .ioError))

/-- R263, 93 I19: every running job ends, within its BODY steps, TAIL and END. -/
def Obligations.EveryJobEnds : Prop :=
  ∀ s : State, s.status.state = .busy →
    ∃ k t, k ≤ stepsLeft s ∧ Host.Core.run Sys2Proof.core k s = .next t ∧ t.status.state ≠ .busy

/-- R116: for every pixel buffer, both channel counts, framed or not, and every starting cache, an encode job completes, and a decode
job over exactly its output, from the same cache, completes with the buffer's bytes, the encoder's cache image, and the
whole stream consumed. -/
def Obligations.DecodeOfEncodeIsBuffer : Prop :=
  ∀ (s u : State) (je jd : Job), s.cfg.wf = true → u.cfg = s.cfg →
    je.mode = .encode → je.check = .none → je.src.backing.reliable → je.sink.backing.reliable →
    ∃ e, completes (startJob (s.setJob je)) e ∧
      (jd.mode = .decode → jd.check = .none → jd.src.backing.reliable → jd.sink.backing.reliable →
        jd.ch = je.ch → jd.outCh = je.ch → jd.nPixels = encodePixels je → jd.framed = je.framed →
        jd.cacheIn = je.cacheIn → jd.inLen = e.status.bytesOut →
        (∀ a, a < e.status.bytesOut → Memory.read e.out a = jd.src.bytes[a]?) →
        ∃ d, completes (startJob (u.setJob jd)) d ∧
          (∀ a, a < je.inLen → Memory.read d.out a = je.src.bytes[a]?) ∧
          d.status.cacheOut = e.status.cacheOut ∧ d.status.pixels = encodePixels je ∧
          d.status.bytesIn = e.status.bytesOut ∧ d.status.bytesOut = je.inLen)

/-! ### The header collaborator and the size helper -/

/-- R206: header validation, in its order, whatever MAGIC and MAX_PIXELS are: a short stream is `Truncated`, then magic, channels and
the pixel count. Width and height are the big-endian values of bytes 4..7 and 8..11, and MAGIC is compared as a number whose
first byte is the most significant (log 16). A header that passes is given with the bytes after it (R205), and the 14 bytes
of a header are read back. -/
def Obligations.HeaderChecksInOrder : Prop :=
  (∀ bs : List Byte, bs.length < 14 → readHeader bs = .error .truncated) ∧
  (∀ (b0 b1 b2 b3 b4 b5 b6 b7 b8 b9 b10 b11 b12 b13 : Byte) (rest : List Byte) (m w h : Nat),
    m = b0.toNat * 2 ^ 24 + b1.toNat * 2 ^ 16 + b2.toNat * 2 ^ 8 + b3.toNat →
    w = b4.toNat * 2 ^ 24 + b5.toNat * 2 ^ 16 + b6.toNat * 2 ^ 8 + b7.toNat →
    h = b8.toNat * 2 ^ 24 + b9.toNat * 2 ^ 16 + b10.toNat * 2 ^ 8 + b11.toNat →
    readHeader (b0 :: b1 :: b2 :: b3 :: b4 :: b5 :: b6 :: b7 :: b8 :: b9 :: b10 :: b11 :: b12 :: b13 :: rest) =
      if m ≠ Config.magic.toNat then .error .invalidMagic
      else if b12 ≠ 3 ∧ b12 ≠ 4 then .error .invalidChannels
      else if Config.maxPixels < w * h then .error .imageTooLarge
      else .ok ({ width := BitVec.ofNat 32 w, height := BitVec.ofNat 32 h, channels := b12, colourSpace := b13 }, rest)) ∧
  (∀ (m : BitVec 32) (h : Header) (rest : List Byte), h.bytes.length = 14 ∧
    (m ≠ Config.magic → readHeader (bigEndian m ++ h.bytes.drop 4 ++ rest) = .error .invalidMagic) ∧
    (h.channels ≠ 3 → h.channels ≠ 4 → readHeader (h.bytes ++ rest) = .error .invalidChannels) ∧
    ((h.channels = 3 ∨ h.channels = 4) → readHeader (h.bytes ++ rest) =
      if Config.maxPixels < h.width.toNat * h.height.toNat then .error .imageTooLarge else .ok (h, rest)))

/-- R203: a caller whose buffer holds `max_encoded_size(...)` bytes, minus the 14 header bytes, never sees
`OutputBufferTooSmall`. -/
def Obligations.MaxEncodedSizeSuffices : Prop :=
  ∀ (j : Job) (w h : Nat), j.mode = .encode → j.inLen = w * h * j.ch → 0 < j.ch →
    j.required = maxEncodedSize w h j.ch j.framed - (if j.framed then 14 else 0) ∧
    (j.required ≤ j.sink.cap → j.check ≠ .outputBufferTooSmall)

/-- R202, R205: the calls. `encode` over a buffer of `width * height` pixels gives bytes, in framed mode the header and then the engine's
output; `decode` of those bytes from the same cache gives the header the encode wrote and the buffer, or `ImageTooLarge`;
a payload-only decode gives the buffer. A buffer of another length is `InvalidSourceLength`. The model's choices: overlap (log 6)
and how a call stands beside the engine (log 18). -/
def Obligations.CallsRoundTrip : Prop :=
  ∀ (s u : State) (pixels : Source) (width height : BitVec 32) (ch : Nat) (framed : Bool) (colourSpace : Byte)
    (cacheIn : CacheIn) (k : Sink) (n : Nat) (head : Header),
    s.status.state ≠ .busy → u.status.state ≠ .busy → s.cfg.wf = true → u.cfg = s.cfg →
    (ch = 3 ∨ ch = 4) → cacheIn.legal = true → disjoint pixels k →
    n = width.toNat * height.toNat →
    head = { width := width, height := height, channels := BitVec.ofNat 8 ch, colourSpace := colourSpace } →
    (pixels.bytes.length ≠ n * ch →
      (encodeCall s pixels width height ch framed colourSpace cacheIn k).2 = .error .invalidSourceLength) ∧
    (pixels.bytes.length = n * ch → pixels.backing.reliable → k.backing.reliable →
      n * (ch + 1) + (if framed then 8 else 0) ≤ k.cap →
      ∃ bytes, bytes.length ≤ n * (ch + 1) + (if framed then 8 else 0) ∧
        (encodeCall s pixels width height ch framed colourSpace cacheIn k).2 =
          .ok (if framed then head.bytes ++ bytes else bytes) ∧
        ∀ (b : Backing) (outCh : Option Nat) (l : Sink), b.reliable → l.backing.reliable → n * ch ≤ l.cap →
          disjoint { bytes := bytes, backing := b } l → outCh.getD ch = ch →
          (framed = false →
            (decodePayloadCall u { bytes := bytes, backing := b } n ch outCh cacheIn l).2 = .ok pixels.bytes) ∧
          (framed = true → (decodeCall u (head.bytes ++ bytes) b outCh cacheIn l).2 =
            if Config.maxPixels < n then .error .imageTooLarge else .ok (head, pixels.bytes)))
end

