-- ==== Sys2Proof/Laws/Arith.lean ====
section
/-! SUPPORT. The wrapped arithmetic and the biased fields as linear facts about integers, and everything `DeltaEncode` can answer. -/

namespace Sys2Proof.Machine

open Sys2Proof

/-- `s8` as arithmetic: the representative in [-128, 127] (00_scope.md R11). -/
theorem s8_eq (v : Int) : s8 v = (v + 128) % 256 - 128 := by
  simp only [s8, BitVec.toInt_ofInt, Int.bmod]; norm_num; split <;> omega

/-- `add8` as arithmetic (00_scope.md R11). -/
theorem add8_toNat (x : Byte) (d : Int) : ((add8 x d).toNat : Int) = (x.toNat + d) % 256 := by
  simp only [add8, BitVec.toNat_ofInt]; norm_num; omega

theorem inRange_iff {m w : Nat} (bias : BitVec m) (v : Int) :
    inRange w bias v = true ↔ -(bias.toNat : Int) ≤ v ∧ v < 2 ^ w - bias.toNat := by simp [inRange]

/-- A biased field holds `value + bias` where that fits it (30_encoding.md R71). -/
theorem biased_toNat {m : Nat} (n : Nat) (bias : BitVec m) (v : Int) (h : 0 ≤ v + bias.toNat)
    (h' : v + bias.toNat < 2 ^ n) : ((biased n bias v).toNat : Int) = v + bias.toNat := by
  simp only [biased, BitVec.toNat_ofInt]
  have e : (v + bias.toNat) % (2 ^ n : Int) = v + bias.toNat := Int.emod_eq_of_lt h h'
  push_cast
  rw [e]; omega

/-- Taking the bias off gives the value back (30_encoding.md R71). -/
theorem unbias_biased {m : Nat} (n : Nat) (bias : BitVec m) (v : Int) (h : 0 ≤ v + bias.toNat)
    (h' : v + bias.toNat < 2 ^ n) : unbias (biased n bias v) bias = v := by
  have := biased_toNat n bias v h h'
  unfold unbias; omega

theorem pixelHash_le (p : Pixel) : pixelHash p ≤ 6630 := by
  have := p.r.isLt; have := p.g.isLt; have := p.b.isLt; have := p.a.isLt
  unfold pixelHash; omega

theorem lowSlot_secondarySlot (p : Pixel) : lowSlot (secondarySlot p) = primarySlot p := by
  apply BitVec.eq_of_toNat_eq
  simp only [lowSlot, primarySlot, secondarySlot, BitVec.extractLsb'_toNat, BitVec.toNat_ofNat, Nat.shiftRight_zero]
  omega

/-- A red or blue channel of a luma delta: the wrapped relative delta on top of the wrapped green one gives the channel. -/
theorem add8_relative (x y x' y' : Byte) :
    add8 x (delta y y' + s8 (delta x x' - delta y y')) = x' := by
  apply BitVec.eq_of_toNat_eq
  have := x.isLt; have := x'.isLt
  have h := add8_toNat x (delta y y' + s8 (delta x x' - delta y y'))
  simp only [delta, s8_eq] at *; omega

theorem add8_wrapped (x y : Byte) : add8 x (delta x y) = y := by
  apply BitVec.eq_of_toNat_eq
  have := x.isLt; have := y.isLt
  have h := add8_toNat x (delta x y)
  simp only [delta, s8_eq] at *; omega

theorem eq_of_delta_zero {x y : Byte} (h : delta x y = 0) : y = x := by
  have e := add8_wrapped x y
  rw [h] at e
  simpa [add8] using e.symm

/-- Everything `DeltaEncode` can answer for two different pixels, with what each form says of them (40_pixel_cache.md R103). -/
theorem deltaEncode_cases (c : Config) (prev cur : Pixel) (hne : cur ≠ prev) :
    (∃ dr dg db, deltaEncode c prev cur = .diff dr dg db ∧ updateDiff c prev dr dg db = cur ∧
      Instr.diffOk c dr dg db = true) ∨
    (∃ dg drg dbg, deltaEncode c prev cur = .luma dg drg dbg ∧ updateLuma c prev dg drg dbg = cur ∧
      drg.toNat < 8 ∧ dbg.toNat < 8) ∨
    (deltaEncode c prev cur = .rgb cur.r cur.g cur.b ∧ cur.a = prev.a) ∨
    (deltaEncode c prev cur = .rgba cur.r cur.g cur.b cur.a ∧ cur.a ≠ prev.a) := by
  have b2 := c.diffBias.isLt; have b6 := c.lumaGBias.isLt; have b3 := c.lumaRbBias.isLt
  by_cases ha : cur.a = prev.a
  · by_cases k : (inRange 2 c.diffBias (delta prev.r cur.r) && inRange 2 c.diffBias (delta prev.g cur.g) &&
        inRange 2 c.diffBias (delta prev.b cur.b)) = true
    · refine .inl ⟨_, _, _, by simp only [deltaEncode, ha, if_true, k]; rfl, ?_, ?_⟩
      all_goals
        simp only [Bool.and_eq_true, inRange_iff] at k
        have u1 := unbias_biased 2 c.diffBias (delta prev.r cur.r) (by omega) (by omega)
        have u2 := unbias_biased 2 c.diffBias (delta prev.g cur.g) (by omega) (by omega)
        have u3 := unbias_biased 2 c.diffBias (delta prev.b cur.b) (by omega) (by omega)
      · simp only [updateDiff, u1, u2, u3, add8_wrapped]
        ext1 <;> simp [ha]
      · simp only [Instr.diffOk, Bool.not_eq_true', Bool.and_eq_false_iff, beq_eq_false_iff_ne, ne_eq]
        by_contra hc
        simp only [not_or, not_not] at hc
        obtain ⟨⟨h1, h2⟩, h3⟩ := hc
        rw [h1] at u1; rw [h2] at u2; rw [h3] at u3
        simp only [unbias, sub_self] at u1 u2 u3
        exact hne (Pixel.ext (eq_of_delta_zero u1.symm) (eq_of_delta_zero u2.symm) (eq_of_delta_zero u3.symm) ha)
    · by_cases k2 : (inRange 6 c.lumaGBias (delta prev.g cur.g) &&
          inRange 3 c.lumaRbBias (s8 (delta prev.r cur.r - delta prev.g cur.g)) &&
          inRange 3 c.lumaRbBias (s8 (delta prev.b cur.b - delta prev.g cur.g))) = true
      · refine .inr (.inl ⟨_, _, _, by simp only [deltaEncode, ha, if_true, k, k2]; rfl, ?_⟩)
        simp only [Bool.and_eq_true, inRange_iff] at k2
        have u1 := unbias_biased 6 c.lumaGBias (delta prev.g cur.g) (by omega) (by omega)
        have u2 := unbias_biased 4 c.lumaRbBias (s8 (delta prev.r cur.r - delta prev.g cur.g)) (by omega) (by omega)
        have u3 := unbias_biased 4 c.lumaRbBias (s8 (delta prev.b cur.b - delta prev.g cur.g)) (by omega) (by omega)
        have f2 := biased_toNat 4 c.lumaRbBias (s8 (delta prev.r cur.r - delta prev.g cur.g)) (by omega) (by omega)
        have f3 := biased_toNat 4 c.lumaRbBias (s8 (delta prev.b cur.b - delta prev.g cur.g)) (by omega) (by omega)
        refine ⟨?_, by omega, by omega⟩
        simp only [updateLuma, u1, u2, u3, add8_relative, add8_wrapped]
        ext1 <;> simp [ha]
      · exact .inr (.inr (.inl ⟨by simp only [deltaEncode, ha, if_true, k, k2]; rfl, ha⟩))
  · exact .inr (.inr (.inr ⟨by simp only [deltaEncode, ha, if_false], ha⟩))

/-- The length of `FlushRun`'s opcode (41_encoder.md R135). -/
theorem flushRun_len_le (n : Nat) : (flushRun n).len ≤ 2 := by
  unfold flushRun; split
  · simp [Instr.len]
  · split <;> simp [Instr.len]

/-- The pixels of `FlushRun`'s opcode (41_encoder.md R135). -/
theorem flushRun_pixelCount {n : Nat} (h : 1 ≤ n) (h' : n ≤ 1023) : pixelCount (flushRun n) = n := by
  unfold flushRun; split
  · simp [pixelCount]; omega
  · split
    · simp [pixelCount, runLength]; omega
    · simp [pixelCount, lrunLength]; omega

end Sys2Proof.Machine
end

