-- ==== Sys2Proof/Laws/Bits.lean ====
section
/-! SUPPORT. Bit fields as numbers: what appending and extracting fields does to the value of a byte. -/

namespace Sys2Proof

/-- `{a, b}` is concatenation with `a` in the more significant position (00_scope.md R10). -/
theorem toNat_append_eq {n m : Nat} (a : BitVec n) (b : BitVec m) : (a ++ b).toNat = a.toNat * 2 ^ m + b.toNat := by
  rw [BitVec.toNat_append, ← Nat.shiftLeft_add_eq_or_of_lt b.isLt, Nat.shiftLeft_eq]

theorem toNat_extract_eq {n : Nat} (a : BitVec n) (lo w : Nat) :
    (a.extractLsb' lo w).toNat = a.toNat / 2 ^ lo % 2 ^ w := by
  rw [BitVec.extractLsb'_toNat, Nat.shiftRight_eq_div_pow]

/-- A byte is its high field over its low field. -/
theorem extract_append_extract (b : Byte) (k : Nat) (h : k ≤ 8) :
    (b.extractLsb' k (8 - k)).toNat * 2 ^ k + (b.extractLsb' 0 k).toNat = b.toNat := by
  have hb : b.toNat < 2 ^ 8 := b.isLt
  rw [toNat_extract_eq, toNat_extract_eq, Nat.pow_zero, Nat.div_one,
    Nat.mod_eq_of_lt (Nat.div_lt_of_lt_mul (by rw [← Nat.pow_add]; rw [show k + (8 - k) = 8 by omega]; exact hb))]
  have := Nat.div_add_mod b.toNat (2 ^ k)
  rw [Nat.mul_comm]; exact this

theorem repeatOnce_toNat (c : Config) : c.repeatOnce.toNat = 64 + 21 * c.diffBias.toNat := by
  have := c.diffBias.isLt
  simp only [Config.repeatOnce, toNat_append_eq]
  simp
  omega

end Sys2Proof
end

