-- ==== Sys2Proof/Laws/Cache.lean ====
section
/-! SUPPORT. The laws of the cache tables: lookups after writes, insert-and-evict, promotion. -/

namespace Sys2Proof.Machine

open Sys2Proof

theorem Cache.primaryAt_setPrimary (c : Cache) (k j : BitVec 6) (p : Pixel) :
    (c.setPrimary k p).primaryAt j = if j = k then p else c.primaryAt j := by
  simp only [Cache.primaryAt, Cache.setPrimary, Vector.getElem_set]
  by_cases h : j = k
  · simp [h]
  · simp [h, show k.toNat ≠ j.toNat from fun e => h (BitVec.eq_of_toNat_eq e.symm)]

@[simp] theorem Cache.secondaryAt_setPrimary (c : Cache) (k : BitVec 6) (j : BitVec 10) (p : Pixel) :
    (c.setPrimary k p).secondaryAt j = c.secondaryAt j := rfl

theorem Cache.secondaryAt_setSecondary (c : Cache) (k j : BitVec 10) (p : Pixel) :
    (c.setSecondary k p).secondaryAt j = if j = k then p else c.secondaryAt j := by
  simp only [Cache.secondaryAt, Cache.setSecondary, Vector.getElem_set]
  by_cases h : j = k
  · simp [h]
  · simp [h, show k.toNat ≠ j.toNat from fun e => h (BitVec.eq_of_toNat_eq e.symm)]

@[simp] theorem Cache.primaryAt_setSecondary (c : Cache) (k : BitVec 10) (j : BitVec 6) (p : Pixel) :
    (c.setSecondary k p).primaryAt j = c.primaryAt j := rfl

@[simp] theorem Cache.primaryAt_fresh (k : BitVec 6) : Cache.fresh.primaryAt k = Pixel.zero := by
  simp [Cache.primaryAt, Cache.fresh]

@[simp] theorem Cache.secondaryAt_fresh (k : BitVec 10) : Cache.fresh.secondaryAt k = Pixel.zero := by
  simp [Cache.secondaryAt, Cache.fresh]

/-- Two caches whose lookups agree at every slot are the same cache. -/
theorem Cache.eq_of_lookups {c d : Cache} (h1 : ∀ k, c.primaryAt k = d.primaryAt k)
    (h2 : ∀ k, c.secondaryAt k = d.secondaryAt k) : c = d := by
  refine Cache.ext (Vector.ext fun i hi => ?_) (Vector.ext fun i hi => ?_)
  · have := h1 (BitVec.ofNat 6 i)
    simpa [Cache.primaryAt, Nat.mod_eq_of_lt hi] using this
  · have := h2 (BitVec.ofNat 10 i)
    simpa [Cache.secondaryAt, Nat.mod_eq_of_lt hi] using this

end Sys2Proof.Machine
end

