-- ==== Sys2Proof/Laws/Memory.lean ====
section
/-! SUPPORT. The laws of OUT's cells: read after write, the canonical form, and that equal contents are equal data. -/

namespace Sys2Proof.Machine

open Sys2Proof

@[simp] theorem Memory.read_nil (a : Nat) : Memory.read [] a = none := rfl

theorem Memory.read_write (m : Memory) (a x : Nat) (v : Byte) :
    Memory.read (Memory.write m a v) x = if x = a then some v else Memory.read m x := by
  induction m with
  | nil => simp [Memory.write, Memory.read]
  | cons c m ih =>
    obtain ⟨y, w⟩ := c
    simp only [Memory.write]
    split
    · rfl
    · split
      · subst_vars; simp only [Memory.read]; split <;> simp_all
      · simp only [Memory.read, ih]; split <;> split <;> simp_all

@[simp] theorem Memory.read_write_self (m : Memory) (a : Nat) (v : Byte) :
    Memory.read (Memory.write m a v) a = some v := by simp [Memory.read_write]

theorem Memory.read_write_other (m : Memory) {a x : Nat} (v : Byte) (h : x ≠ a) :
    Memory.read (Memory.write m a v) x = Memory.read m x := by simp [Memory.read_write, h]

@[simp] theorem Memory.writeBytes_nil (m : Memory) (a : Nat) : Memory.writeBytes m a [] = m := rfl

@[simp] theorem Memory.writeBytes_cons (m : Memory) (a : Nat) (v : Byte) (vs : List Byte) :
    Memory.writeBytes m a (v :: vs) = Memory.writeBytes (Memory.write m a v) (a + 1) vs := rfl

/-- What every byte reads as after a write of consecutive bytes. -/
theorem Memory.read_writeBytes (m : Memory) (a : Nat) (vs : List Byte) (x : Nat) :
    Memory.read (Memory.writeBytes m a vs) x =
      if a ≤ x ∧ x < a + vs.length then vs[x - a]? else Memory.read m x := by
  induction vs generalizing m a with
  | nil => simp
  | cons v vs ih =>
    rw [Memory.writeBytes_cons, ih, Memory.read_write]
    rcases Nat.lt_trichotomy x a with h | rfl | h
    · simp [show ¬ a + 1 ≤ x by omega, show ¬ a ≤ x by omega, show x ≠ a by omega]
    · simp
    · obtain ⟨k, rfl⟩ : ∃ k, x = a + 1 + k := ⟨x - (a + 1), by omega⟩
      have e : a + 1 + k - a = k + 1 := by omega
      by_cases hk : k < vs.length
      · simp [e, hk, show a ≤ a + 1 + k by omega, show a + 1 + k < a + (vs.length + 1) by omega]
      · simp [hk, show ¬ a + 1 + k < a + (vs.length + 1) by omega]; omega

theorem Memory.read_writeBytes_outside (m : Memory) (a : Nat) (vs : List Byte) {x : Nat}
    (h : x < a ∨ a + vs.length ≤ x) : Memory.read (Memory.writeBytes m a vs) x = Memory.read m x := by
  rw [Memory.read_writeBytes, if_neg (by omega)]

theorem Memory.read_writeBytes_inside (m : Memory) (a : Nat) (vs : List Byte) {k : Nat} (h : k < vs.length) :
    Memory.read (Memory.writeBytes m a vs) (a + k) = vs[k]? := by
  rw [Memory.read_writeBytes, if_pos (by omega)]; simp

/-- A byte that had a value still has one after a write. -/
theorem Memory.isSome_writeBytes (m : Memory) (a : Nat) (vs : List Byte) {x : Nat}
    (h : (Memory.read m x).isSome ∨ (a ≤ x ∧ x < a + vs.length)) :
    (Memory.read (Memory.writeBytes m a vs) x).isSome := by
  rw [Memory.read_writeBytes]
  split
  · rename_i hx
    simp [List.getElem?_eq_getElem (show x - a < vs.length by omega)]
  · rcases h with h | h
    · exact h
    · exact absurd h ‹_›

theorem Memory.wf_nil : Memory.wf [] := List.Pairwise.nil

theorem Memory.mem_write {m : Memory} {a : Nat} {v : Byte} {c : Host.Cell} (h : c ∈ Memory.write m a v) :
    c = (a, v) ∨ c ∈ m := by
  induction m with
  | nil => simpa [Memory.write] using h
  | cons d m ih =>
    obtain ⟨y, w⟩ := d
    simp only [Memory.write] at h
    split at h
    · simpa using h
    · split at h
      · simp at h; tauto
      · simp at h; rcases h with h | h
        · simp [h]
        · rcases ih h with h | h <;> simp [h]

/-- Writing a byte keeps the canonical form. -/
theorem Memory.wf_write {m : Memory} (h : m.wf) (a : Nat) (v : Byte) : (Memory.write m a v).wf := by
  induction m with
  | nil => simp [Memory.write, Memory.wf]
  | cons d m ih =>
    obtain ⟨y, w⟩ := d
    obtain ⟨hy, hm⟩ := List.pairwise_cons.1 h
    simp only [Memory.write]
    split
    · rename_i ha
      refine List.pairwise_cons.2 ⟨fun c hc => ?_, h⟩
      rcases List.mem_cons.1 hc with rfl | hc
      · exact ha
      · exact lt_trans ha (hy c hc)
    · split
      · rename_i ha; subst ha; exact List.pairwise_cons.2 ⟨hy, hm⟩
      · refine List.pairwise_cons.2 ⟨fun c hc => ?_, ih hm⟩
        rcases Memory.mem_write hc with rfl | hc
        · show y < a; omega
        · exact hy c hc

/-- Writing bytes keeps the canonical form. -/
theorem Memory.wf_writeBytes {m : Memory} (h : m.wf) (a : Nat) (vs : List Byte) : (Memory.writeBytes m a vs).wf := by
  induction vs generalizing m a with
  | nil => exact h
  | cons v vs ih => exact ih (Memory.wf_write h a v) _

theorem Memory.read_none_of_lt {m : Memory} {a : Nat} (h : ∀ c ∈ m, a < c.1) : Memory.read m a = none := by
  induction m with
  | nil => rfl
  | cons d m ih =>
    obtain ⟨y, w⟩ := d
    have hy : a < y := h (y, w) (by simp)
    simp only [Memory.read]
    rw [if_neg (by omega)]
    exact ih fun c hc => h c (by simp [hc])

/-- Equal contents are equal data: two canonical memories that read alike are the same list. -/
theorem Memory.eq_of_read {m n : Memory} (hm : m.wf) (hn : n.wf) (h : ∀ a, Memory.read m a = Memory.read n a) :
    m = n := by
  induction m generalizing n with
  | nil =>
    cases n with
    | nil => rfl
    | cons d n => have := h d.1; simp [Memory.read] at this
  | cons c m ih =>
    obtain ⟨x, v⟩ := c
    obtain ⟨hx, hm2⟩ := List.pairwise_cons.1 hm
    cases n with
    | nil => have := h x; simp [Memory.read] at this
    | cons d n =>
      obtain ⟨y, w⟩ := d
      obtain ⟨hy, hn2⟩ := List.pairwise_cons.1 hn
      have e1 := h x
      have e2 := h y
      simp only [Memory.read, if_true] at e1 e2
      have hxy : x = y := by
        rcases Nat.lt_trichotomy x y with hl | he | hl
        · rw [if_neg (by omega), Memory.read_none_of_lt fun c hc => lt_trans hl (hy c hc)] at e1; simp at e1
        · exact he
        · rw [if_neg (by omega), Memory.read_none_of_lt fun c hc => lt_trans hl (hx c hc)] at e2; simp at e2
      subst hxy
      simp only [if_true, Option.some.injEq] at e1
      subst e1
      congr 1
      refine ih hm2 hn2 fun a => ?_
      have ha := h a
      simp only [Memory.read] at ha
      split at ha
      · subst_vars
        rw [Memory.read_none_of_lt fun c hc => hx c hc, Memory.read_none_of_lt fun c hc => hy c hc]
      · exact ha

end Sys2Proof.Machine
end

