-- ==== Sys2Proof/Laws/State.lean ====
section
/-! SUPPORT. What each named update of the state does to each field. -/

namespace Sys2Proof.Machine

open Sys2Proof

section
variable (s : State) (p : Pixel)

@[simp] theorem State.setPx_px : (s.setPx p).px = p := rfl
@[simp] theorem State.setPx_cur : (s.setPx p).cur = s.cur := rfl
@[simp] theorem State.setPx_run : (s.setPx p).run = s.run := rfl
@[simp] theorem State.setPx_cache : (s.setPx p).cache = s.cache := rfl
@[simp] theorem State.setPx_pc : (s.setPx p).pc = s.pc := rfl
@[simp] theorem State.setPx_pi : (s.setPx p).pi = s.pi := rfl
@[simp] theorem State.setPx_op : (s.setPx p).op = s.op := rfl
@[simp] theorem State.setPx_job : (s.setPx p).job = s.job := rfl
@[simp] theorem State.setPx_status : (s.setPx p).status = s.status := rfl
@[simp] theorem State.setPx_out : (s.setPx p).out = s.out := rfl
@[simp] theorem State.setPx_cfg : (s.setPx p).cfg = s.cfg := rfl
@[simp] theorem State.setPx_tailDone : (s.setPx p).tailDone = s.tailDone := rfl
@[simp] theorem State.setPx_pending : (s.setPx p).pending = s.pending := rfl
@[simp] theorem State.setPx_freeCount : (s.setPx p).freeCount = s.freeCount := rfl

end

section
variable (s : State) (c : Cache)

@[simp] theorem State.setCache_px : (s.setCache c).px = s.px := rfl
@[simp] theorem State.setCache_cur : (s.setCache c).cur = s.cur := rfl
@[simp] theorem State.setCache_run : (s.setCache c).run = s.run := rfl
@[simp] theorem State.setCache_cache : (s.setCache c).cache = c := rfl
@[simp] theorem State.setCache_pc : (s.setCache c).pc = s.pc := rfl
@[simp] theorem State.setCache_pi : (s.setCache c).pi = s.pi := rfl
@[simp] theorem State.setCache_op : (s.setCache c).op = s.op := rfl
@[simp] theorem State.setCache_job : (s.setCache c).job = s.job := rfl
@[simp] theorem State.setCache_status : (s.setCache c).status = s.status := rfl
@[simp] theorem State.setCache_out : (s.setCache c).out = s.out := rfl
@[simp] theorem State.setCache_cfg : (s.setCache c).cfg = s.cfg := rfl
@[simp] theorem State.setCache_tailDone : (s.setCache c).tailDone = s.tailDone := rfl
@[simp] theorem State.setCache_pending : (s.setCache c).pending = s.pending := rfl
@[simp] theorem State.setCache_freeCount : (s.setCache c).freeCount = s.freeCount := rfl

end

section
variable (s : State) (n : Nat)

@[simp] theorem State.advance_px : (s.advance n).px = s.px := rfl
@[simp] theorem State.advance_cur : (s.advance n).cur = s.cur := rfl
@[simp] theorem State.advance_run : (s.advance n).run = s.run := rfl
@[simp] theorem State.advance_cache : (s.advance n).cache = s.cache := rfl
@[simp] theorem State.advance_pc : (s.advance n).pc = s.pc + n := rfl
@[simp] theorem State.advance_pi : (s.advance n).pi = s.pi := rfl
@[simp] theorem State.advance_op : (s.advance n).op = s.op := rfl
@[simp] theorem State.advance_job : (s.advance n).job = s.job := rfl
@[simp] theorem State.advance_status : (s.advance n).status = s.status := rfl
@[simp] theorem State.advance_out : (s.advance n).out = s.out := rfl
@[simp] theorem State.advance_cfg : (s.advance n).cfg = s.cfg := rfl
@[simp] theorem State.advance_tailDone : (s.advance n).tailDone = s.tailDone := rfl
@[simp] theorem State.advance_pending : (s.advance n).pending = s.pending := rfl
@[simp] theorem State.advance_freeCount : (s.advance n).freeCount = s.freeCount := rfl

end

section
variable (s : State) (m : Memory)

@[simp] theorem State.setOut_px : (s.setOut m).px = s.px := rfl
@[simp] theorem State.setOut_cur : (s.setOut m).cur = s.cur := rfl
@[simp] theorem State.setOut_run : (s.setOut m).run = s.run := rfl
@[simp] theorem State.setOut_cache : (s.setOut m).cache = s.cache := rfl
@[simp] theorem State.setOut_pc : (s.setOut m).pc = s.pc := rfl
@[simp] theorem State.setOut_pi : (s.setOut m).pi = s.pi := rfl
@[simp] theorem State.setOut_op : (s.setOut m).op = s.op := rfl
@[simp] theorem State.setOut_job : (s.setOut m).job = s.job := rfl
@[simp] theorem State.setOut_status : (s.setOut m).status = s.status := rfl
@[simp] theorem State.setOut_out : (s.setOut m).out = m := rfl
@[simp] theorem State.setOut_cfg : (s.setOut m).cfg = s.cfg := rfl
@[simp] theorem State.setOut_tailDone : (s.setOut m).tailDone = s.tailDone := rfl
@[simp] theorem State.setOut_pending : (s.setOut m).pending = s.pending := rfl
@[simp] theorem State.setOut_freeCount : (s.setOut m).freeCount = s.freeCount := rfl

end

section
variable (s : State) (n : Nat)

@[simp] theorem State.countOut_px : (s.countOut n).px = s.px := rfl
@[simp] theorem State.countOut_cur : (s.countOut n).cur = s.cur := rfl
@[simp] theorem State.countOut_run : (s.countOut n).run = s.run := rfl
@[simp] theorem State.countOut_cache : (s.countOut n).cache = s.cache := rfl
@[simp] theorem State.countOut_pc : (s.countOut n).pc = s.pc := rfl
@[simp] theorem State.countOut_pi : (s.countOut n).pi = s.pi := rfl
@[simp] theorem State.countOut_op : (s.countOut n).op = s.op + n := rfl
@[simp] theorem State.countOut_job : (s.countOut n).job = s.job := rfl
@[simp] theorem State.countOut_status : (s.countOut n).status = s.status := rfl
@[simp] theorem State.countOut_out : (s.countOut n).out = s.out := rfl
@[simp] theorem State.countOut_cfg : (s.countOut n).cfg = s.cfg := rfl
@[simp] theorem State.countOut_tailDone : (s.countOut n).tailDone = s.tailDone := rfl
@[simp] theorem State.countOut_pending : (s.countOut n).pending = s.pending := rfl
@[simp] theorem State.countOut_freeCount : (s.countOut n).freeCount = s.freeCount := rfl

end

section
variable (s : State) (p q : Pixel) (r : BitVec 16) (c : Cache)

@[simp] theorem State.setEncoder_px : (s.setEncoder p q r c).px = p := rfl
@[simp] theorem State.setEncoder_cur : (s.setEncoder p q r c).cur = q := rfl
@[simp] theorem State.setEncoder_run : (s.setEncoder p q r c).run = r := rfl
@[simp] theorem State.setEncoder_cache : (s.setEncoder p q r c).cache = c := rfl
@[simp] theorem State.setEncoder_pc : (s.setEncoder p q r c).pc = s.pc := rfl
@[simp] theorem State.setEncoder_pi : (s.setEncoder p q r c).pi = s.pi + 1 := rfl
@[simp] theorem State.setEncoder_op : (s.setEncoder p q r c).op = s.op := rfl
@[simp] theorem State.setEncoder_job : (s.setEncoder p q r c).job = s.job := rfl
@[simp] theorem State.setEncoder_status : (s.setEncoder p q r c).status = s.status := rfl
@[simp] theorem State.setEncoder_out : (s.setEncoder p q r c).out = s.out := rfl
@[simp] theorem State.setEncoder_cfg : (s.setEncoder p q r c).cfg = s.cfg := rfl
@[simp] theorem State.setEncoder_tailDone : (s.setEncoder p q r c).tailDone = s.tailDone := rfl
@[simp] theorem State.setEncoder_pending : (s.setEncoder p q r c).pending = s.pending := rfl
@[simp] theorem State.setEncoder_freeCount : (s.setEncoder p q r c).freeCount = s.freeCount := rfl

end

section
variable (s : State)

@[simp] theorem State.setTailDone_px : (s.setTailDone).px = s.px := rfl
@[simp] theorem State.setTailDone_cur : (s.setTailDone).cur = s.cur := rfl
@[simp] theorem State.setTailDone_run : (s.setTailDone).run = s.run := rfl
@[simp] theorem State.setTailDone_cache : (s.setTailDone).cache = s.cache := rfl
@[simp] theorem State.setTailDone_pc : (s.setTailDone).pc = s.pc := rfl
@[simp] theorem State.setTailDone_pi : (s.setTailDone).pi = s.pi := rfl
@[simp] theorem State.setTailDone_op : (s.setTailDone).op = s.op := rfl
@[simp] theorem State.setTailDone_job : (s.setTailDone).job = s.job := rfl
@[simp] theorem State.setTailDone_status : (s.setTailDone).status = s.status := rfl
@[simp] theorem State.setTailDone_out : (s.setTailDone).out = s.out := rfl
@[simp] theorem State.setTailDone_cfg : (s.setTailDone).cfg = s.cfg := rfl
@[simp] theorem State.setTailDone_tailDone : (s.setTailDone).tailDone = true := rfl
@[simp] theorem State.setTailDone_pending : (s.setTailDone).pending = s.pending := rfl
@[simp] theorem State.setTailDone_freeCount : (s.setTailDone).freeCount = s.freeCount := rfl

end

section
variable (s : State) (t : Status)

@[simp] theorem State.setStatus_px : (s.setStatus t).px = s.px := rfl
@[simp] theorem State.setStatus_cur : (s.setStatus t).cur = s.cur := rfl
@[simp] theorem State.setStatus_run : (s.setStatus t).run = s.run := rfl
@[simp] theorem State.setStatus_cache : (s.setStatus t).cache = s.cache := rfl
@[simp] theorem State.setStatus_pc : (s.setStatus t).pc = s.pc := rfl
@[simp] theorem State.setStatus_pi : (s.setStatus t).pi = s.pi := rfl
@[simp] theorem State.setStatus_op : (s.setStatus t).op = s.op := rfl
@[simp] theorem State.setStatus_job : (s.setStatus t).job = s.job := rfl
@[simp] theorem State.setStatus_status : (s.setStatus t).status = t := rfl
@[simp] theorem State.setStatus_out : (s.setStatus t).out = s.out := rfl
@[simp] theorem State.setStatus_cfg : (s.setStatus t).cfg = s.cfg := rfl
@[simp] theorem State.setStatus_tailDone : (s.setStatus t).tailDone = s.tailDone := rfl
@[simp] theorem State.setStatus_pending : (s.setStatus t).pending = s.pending := rfl
@[simp] theorem State.setStatus_freeCount : (s.setStatus t).freeCount = s.freeCount := rfl

end

section
variable (s : State) (j : Job)

@[simp] theorem State.setJob_px : (s.setJob j).px = s.px := rfl
@[simp] theorem State.setJob_cur : (s.setJob j).cur = s.cur := rfl
@[simp] theorem State.setJob_run : (s.setJob j).run = s.run := rfl
@[simp] theorem State.setJob_cache : (s.setJob j).cache = s.cache := rfl
@[simp] theorem State.setJob_pc : (s.setJob j).pc = s.pc := rfl
@[simp] theorem State.setJob_pi : (s.setJob j).pi = s.pi := rfl
@[simp] theorem State.setJob_op : (s.setJob j).op = s.op := rfl
@[simp] theorem State.setJob_job : (s.setJob j).job = j := rfl
@[simp] theorem State.setJob_status : (s.setJob j).status = s.status := rfl
@[simp] theorem State.setJob_out : (s.setJob j).out = s.out := rfl
@[simp] theorem State.setJob_cfg : (s.setJob j).cfg = s.cfg := rfl
@[simp] theorem State.setJob_tailDone : (s.setJob j).tailDone = s.tailDone := rfl
@[simp] theorem State.setJob_pending : (s.setJob j).pending = s.pending := rfl
@[simp] theorem State.setJob_freeCount : (s.setJob j).freeCount = s.freeCount := rfl

end

section
variable (s : State) (p : Pixel)

@[simp] theorem State.newPixel_px : (s.newPixel p).px = p := rfl
@[simp] theorem State.newPixel_cur : (s.newPixel p).cur = s.cur := rfl
@[simp] theorem State.newPixel_run : (s.newPixel p).run = s.run := rfl
@[simp] theorem State.newPixel_cache : (s.newPixel p).cache = s.cache.insertEvict p (primarySlot p) := rfl
@[simp] theorem State.newPixel_pc : (s.newPixel p).pc = s.pc := rfl
@[simp] theorem State.newPixel_pi : (s.newPixel p).pi = s.pi := rfl
@[simp] theorem State.newPixel_op : (s.newPixel p).op = s.op := rfl
@[simp] theorem State.newPixel_job : (s.newPixel p).job = s.job := rfl
@[simp] theorem State.newPixel_status : (s.newPixel p).status = s.status := rfl
@[simp] theorem State.newPixel_out : (s.newPixel p).out = s.out := rfl
@[simp] theorem State.newPixel_cfg : (s.newPixel p).cfg = s.cfg := rfl
@[simp] theorem State.newPixel_tailDone : (s.newPixel p).tailDone = s.tailDone := rfl
@[simp] theorem State.newPixel_pending : (s.newPixel p).pending = s.pending := rfl
@[simp] theorem State.newPixel_freeCount : (s.newPixel p).freeCount = s.freeCount := rfl

end

section
variable (s : State)

@[simp] theorem State.loseRun_px : (s.loseRun).px = s.px := rfl
@[simp] theorem State.loseRun_cur : (s.loseRun).cur = s.cur := rfl
@[simp] theorem State.loseRun_run : (s.loseRun).run = Config.freeRun s.freeCount := rfl
@[simp] theorem State.loseRun_cache : (s.loseRun).cache = s.cache := rfl
@[simp] theorem State.loseRun_pc : (s.loseRun).pc = s.pc := rfl
@[simp] theorem State.loseRun_pi : (s.loseRun).pi = s.pi := rfl
@[simp] theorem State.loseRun_op : (s.loseRun).op = s.op := rfl
@[simp] theorem State.loseRun_job : (s.loseRun).job = s.job := rfl
@[simp] theorem State.loseRun_status : (s.loseRun).status = s.status := rfl
@[simp] theorem State.loseRun_out : (s.loseRun).out = s.out := rfl
@[simp] theorem State.loseRun_cfg : (s.loseRun).cfg = s.cfg := rfl
@[simp] theorem State.loseRun_tailDone : (s.loseRun).tailDone = s.tailDone := rfl
@[simp] theorem State.loseRun_pending : (s.loseRun).pending = s.pending := rfl
@[simp] theorem State.loseRun_freeCount : (s.loseRun).freeCount = s.freeCount + 1 := rfl

end

section
variable (s : State) (e : ErrCode) (p : Progress)

@[simp] theorem State.raise_px : (s.raise e p).px = s.px := rfl
@[simp] theorem State.raise_cur : (s.raise e p).cur = s.cur := rfl
@[simp] theorem State.raise_run : (s.raise e p).run = Config.freeRun s.freeCount := rfl
@[simp] theorem State.raise_cache : (s.raise e p).cache = s.cache := rfl
@[simp] theorem State.raise_pc : (s.raise e p).pc = s.pc := rfl
@[simp] theorem State.raise_pi : (s.raise e p).pi = s.pi := rfl
@[simp] theorem State.raise_op : (s.raise e p).op = s.op := rfl
@[simp] theorem State.raise_job : (s.raise e p).job = s.job := rfl
@[simp] theorem State.raise_status : (s.raise e p).status = Status.failed e 0 0 p := rfl
@[simp] theorem State.raise_out : (s.raise e p).out = s.out := rfl
@[simp] theorem State.raise_cfg : (s.raise e p).cfg = s.cfg := rfl
@[simp] theorem State.raise_tailDone : (s.raise e p).tailDone = s.tailDone := rfl
@[simp] theorem State.raise_pending : (s.raise e p).pending = s.pending := rfl
@[simp] theorem State.raise_freeCount : (s.raise e p).freeCount = s.freeCount + 1 := rfl

end

section
variable (s : State) (e : ErrCode) (a r : Nat)

@[simp] theorem State.raiseAtStart_px : (s.raiseAtStart e a r).px = s.px := rfl
@[simp] theorem State.raiseAtStart_cur : (s.raiseAtStart e a r).cur = s.cur := rfl
@[simp] theorem State.raiseAtStart_run : (s.raiseAtStart e a r).run = s.run := rfl
@[simp] theorem State.raiseAtStart_cache : (s.raiseAtStart e a r).cache = s.cache := rfl
@[simp] theorem State.raiseAtStart_pc : (s.raiseAtStart e a r).pc = s.pc := rfl
@[simp] theorem State.raiseAtStart_pi : (s.raiseAtStart e a r).pi = s.pi := rfl
@[simp] theorem State.raiseAtStart_op : (s.raiseAtStart e a r).op = s.op := rfl
@[simp] theorem State.raiseAtStart_job : (s.raiseAtStart e a r).job = s.job := rfl
@[simp] theorem State.raiseAtStart_status : (s.raiseAtStart e a r).status = Status.failed e a r Progress.zero := rfl
@[simp] theorem State.raiseAtStart_out : (s.raiseAtStart e a r).out = s.out := rfl
@[simp] theorem State.raiseAtStart_cfg : (s.raiseAtStart e a r).cfg = s.cfg := rfl
@[simp] theorem State.raiseAtStart_tailDone : (s.raiseAtStart e a r).tailDone = s.tailDone := rfl
@[simp] theorem State.raiseAtStart_pending : (s.raiseAtStart e a r).pending = s.pending := rfl
@[simp] theorem State.raiseAtStart_freeCount : (s.raiseAtStart e a r).freeCount = s.freeCount := rfl

end

section
variable (s : State)

@[simp] theorem State.jobStart_px : (s.jobStart).px = Pixel.start := rfl
@[simp] theorem State.jobStart_cur : (s.jobStart).cur = Pixel.start := rfl
@[simp] theorem State.jobStart_run : (s.jobStart).run = 0 := rfl
@[simp] theorem State.jobStart_cache : (s.jobStart).cache = s.job.cacheIn.load := rfl
@[simp] theorem State.jobStart_pc : (s.jobStart).pc = 0 := rfl
@[simp] theorem State.jobStart_pi : (s.jobStart).pi = 0 := rfl
@[simp] theorem State.jobStart_op : (s.jobStart).op = 0 := rfl
@[simp] theorem State.jobStart_job : (s.jobStart).job = s.job := rfl
@[simp] theorem State.jobStart_status : (s.jobStart).status = s.status := rfl
@[simp] theorem State.jobStart_out : (s.jobStart).out = s.out := rfl
@[simp] theorem State.jobStart_cfg : (s.jobStart).cfg = s.cfg := rfl
@[simp] theorem State.jobStart_tailDone : (s.jobStart).tailDone = false := rfl
@[simp] theorem State.jobStart_pending : (s.jobStart).pending = s.pending := rfl
@[simp] theorem State.jobStart_freeCount : (s.jobStart).freeCount = s.freeCount := rfl

end

/-! ### STATUS as each phase of a job leaves it -/

@[simp] theorem Status.started_state : Status.started.state = .busy := rfl
@[simp] theorem Status.started_err : Status.started.err = .none := rfl
@[simp] theorem Status.started_errActual : Status.started.errActual = 0 := rfl
@[simp] theorem Status.started_errRequired : Status.started.errRequired = 0 := rfl
@[simp] theorem Status.started_bytesIn : Status.started.bytesIn = 0 := rfl
@[simp] theorem Status.started_bytesOut : Status.started.bytesOut = 0 := rfl
@[simp] theorem Status.started_pixels : Status.started.pixels = 0 := rfl
@[simp] theorem Status.started_cacheOut : Status.started.cacheOut = .poisoned := rfl

@[simp] theorem Status.failed_state (e : ErrCode) (a r : Nat) (p : Progress) : (Status.failed e a r p).state = .error := rfl
@[simp] theorem Status.failed_err (e : ErrCode) (a r : Nat) (p : Progress) : (Status.failed e a r p).err = e := rfl
@[simp] theorem Status.failed_errActual (e : ErrCode) (a r : Nat) (p : Progress) : (Status.failed e a r p).errActual = a := rfl
@[simp] theorem Status.failed_errRequired (e : ErrCode) (a r : Nat) (p : Progress) : (Status.failed e a r p).errRequired = r := rfl
@[simp] theorem Status.failed_bytesIn (e : ErrCode) (a r : Nat) (p : Progress) : (Status.failed e a r p).bytesIn = p.bytesIn := rfl
@[simp] theorem Status.failed_bytesOut (e : ErrCode) (a r : Nat) (p : Progress) : (Status.failed e a r p).bytesOut = p.bytesOut := rfl
@[simp] theorem Status.failed_pixels (e : ErrCode) (a r : Nat) (p : Progress) : (Status.failed e a r p).pixels = p.pixels := rfl
@[simp] theorem Status.failed_cacheOut (e : ErrCode) (a r : Nat) (p : Progress) : (Status.failed e a r p).cacheOut = .poisoned := rfl

@[simp] theorem Status.completed_state (p : Progress) (es : List Pixel) : (Status.completed p es).state = .done := rfl
@[simp] theorem Status.completed_err (p : Progress) (es : List Pixel) : (Status.completed p es).err = .none := rfl
@[simp] theorem Status.completed_errActual (p : Progress) (es : List Pixel) : (Status.completed p es).errActual = 0 := rfl
@[simp] theorem Status.completed_errRequired (p : Progress) (es : List Pixel) : (Status.completed p es).errRequired = 0 := rfl
@[simp] theorem Status.completed_bytesIn (p : Progress) (es : List Pixel) : (Status.completed p es).bytesIn = p.bytesIn := rfl
@[simp] theorem Status.completed_bytesOut (p : Progress) (es : List Pixel) : (Status.completed p es).bytesOut = p.bytesOut := rfl
@[simp] theorem Status.completed_pixels (p : Progress) (es : List Pixel) : (Status.completed p es).pixels = p.pixels := rfl
@[simp] theorem Status.completed_cacheOut (p : Progress) (es : List Pixel) : (Status.completed p es).cacheOut = .image es := rfl

end Sys2Proof.Machine
end

