-- ==== Sys2Proof/Laws/Ops.lean ====
section
/-! SUPPORT. One lemma per shared operation that says once everything it can do: reads of IN, what a sink accepts, the bytes of
output pixels, `writePixels`, `emit`, and the shape every opcode's meaning has. -/

namespace Sys2Proof.Machine

open Sys2Proof

/-! ### Reading IN -/

theorem memRead_slice (src : Source) (b addr n : Nat) (hb : src.backing = .slice b) :
    memRead src addr n =
      if src.bytes.length < addr + n then .error .ended else .ok ((src.bytes.drop addr).take n) := by
  simp [memRead, hb, Backing.failsAt]

/-- What a read gives where it succeeds: exactly the bytes asked for. -/
theorem memRead_ok {src : Source} {addr n : Nat} {bs : List Byte} (h : memRead src addr n = .ok bs) :
    bs = (src.bytes.drop addr).take n ∧ addr + n ≤ src.bytes.length ∧ bs.length = n := by
  have key : bs = (src.bytes.drop addr).take n ∧ addr + n ≤ src.bytes.length := by
    unfold memRead at h
    split at h
    · cases h
    · split at h
      · split at h
        · cases h
        · cases h; exact ⟨rfl, by omega⟩
      · cases h; exact ⟨rfl, by omega⟩
  refine ⟨key.1, key.2, ?_⟩
  rw [key.1, List.length_take, List.length_drop]; omega

/-- `ended` says that the bytes are not all there. -/
theorem memRead_ended {src : Source} {addr n : Nat} (h : memRead src addr n = .error .ended) :
    src.bytes.length < addr + n := by
  unfold memRead at h
  split at h
  · assumption
  · split at h
    · split at h <;> cases h
    · cases h

/-- `failed` says that the bytes are there and that the source's stream fails before their end. -/
theorem memRead_failed {src : Source} {addr n : Nat} (h : memRead src addr n = .error .failed) :
    addr + n ≤ src.bytes.length ∧ ∃ f, src.backing.failsAt = some f ∧ f < addr + n := by
  unfold memRead at h
  split at h
  · cases h
  · rename_i hn
    refine ⟨by omega, ?_⟩
    split at h
    · rename_i f hf
      split at h
      · exact ⟨f, hf, ‹_›⟩
      · cases h
    · cases h

/-! ### Sinks -/

@[simp] theorem Sink.accepts_slice (cap b addr n : Nat) :
    Sink.accepts { cap := cap, backing := .slice b } addr n = n := rfl

theorem Sink.accepts_of_slice {k : Sink} {b : Nat} (h : k.backing = .slice b) (addr n : Nat) : k.accepts addr n = n := by
  simp [Sink.accepts, h, Backing.failsAt]

theorem Sink.accepts_le (k : Sink) (addr n : Nat) : k.accepts addr n ≤ n := by
  unfold Sink.accepts; split <;> omega

@[simp] theorem Sink.accepts_zero (k : Sink) (addr : Nat) : k.accepts addr 0 = 0 :=
  Nat.le_zero.1 (k.accepts_le addr 0)

/-! ### The bytes of output pixels -/

theorem outPixel_length (ch outCh : Nat) (p : Pixel) : (outPixel ch outCh p).length = min outCh 4 := by
  simp [outPixel]

theorem outPixel_length_legal {outCh : Nat} (h : outCh = 3 ∨ outCh = 4) (ch : Nat) (p : Pixel) :
    (outPixel ch outCh p).length = outCh := by
  rw [outPixel_length]; omega

theorem pixelBytes_length (j : Job) (p : Pixel) (m : Nat) : (pixelBytes j p m).length = m * min j.outCh 4 := by
  simp [pixelBytes, List.length_flatten, outPixel_length]

theorem pixelBytes_length_legal {j : Job} (h : j.outCh = 3 ∨ j.outCh = 4) (p : Pixel) (m : Nat) :
    (pixelBytes j p m).length = m * j.outCh := by
  rw [pixelBytes_length]; congr 1; omega

@[simp] theorem pixelBytes_zero (j : Job) (p : Pixel) : pixelBytes j p 0 = [] := rfl

theorem pixelBytes_succ (j : Job) (p : Pixel) (m : Nat) :
    pixelBytes j p (m + 1) = outPixel j.ch j.outCh p ++ pixelBytes j p m := by
  simp [pixelBytes, List.replicate_succ]

/-- Byte `k` of copy `i` is byte `k` of the pixel. -/
theorem pixelBytes_getElem {j : Job} (h : j.outCh = 3 ∨ j.outCh = 4) (p : Pixel) {m i k : Nat} (hi : i < m)
    (hk : k < j.outCh) : (pixelBytes j p m)[i * j.outCh + k]? = (outPixel j.ch j.outCh p)[k]? := by
  induction m generalizing i with
  | zero => omega
  | succ m ih =>
    have hl := outPixel_length_legal h j.ch p
    rw [pixelBytes_succ]
    cases i with
    | zero => rw [Nat.zero_mul, Nat.zero_add, List.getElem?_append_left (by omega)]
    | succ i =>
      rw [List.getElem?_append_right (by rw [hl, Nat.succ_mul]; omega), hl]
      rw [show (i + 1) * j.outCh + k - j.outCh = i * j.outCh + k by rw [Nat.succ_mul]; omega]
      exact ih (by omega)

/-! ### Ending an opcode, and the encoder's append -/

/-- `WritePixels` where the sink takes every byte. -/
theorem writePixels_next {before after : State} {n : Nat}
    (h : after.job.sink.accepts (pixelAddr after) (pixelBytes after.job after.px (clampRun after n)).length =
      (pixelBytes after.job after.px (clampRun after n)).length) :
    writePixels before after n =
      .next ((after.setOut (Memory.writeBytes after.out (pixelAddr after)
        (pixelBytes after.job after.px (clampRun after n)))).countOut (clampRun after n)) := by
  simp only [writePixels, h, if_true, List.take_length]

/-- Everything `WritePixels` can do: the opcode's effect with its pixels written, or `IoError` with the bytes the sink took. -/
theorem writePixels_cases {before after t : State} {n : Nat} (h : writePixels before after n = .next t) :
    (after.job.sink.accepts (pixelAddr after) (pixelBytes after.job after.px (clampRun after n)).length =
        (pixelBytes after.job after.px (clampRun after n)).length ∧
      t = (after.setOut (Memory.writeBytes after.out (pixelAddr after)
        (pixelBytes after.job after.px (clampRun after n)))).countOut (clampRun after n)) ∨
    (∃ k, k = after.job.sink.accepts (pixelAddr after) (pixelBytes after.job after.px (clampRun after n)).length ∧
      k < (pixelBytes after.job after.px (clampRun after n)).length ∧
      t = (before.setOut (Memory.writeBytes after.out (pixelAddr after)
        ((pixelBytes after.job after.px (clampRun after n)).take k))).raise .ioError
          (decodeProgress before.job before.pc (before.op + k / before.job.outCh))) := by
  have hle := after.job.sink.accepts_le (pixelAddr after) (pixelBytes after.job after.px (clampRun after n)).length
  by_cases hk : after.job.sink.accepts (pixelAddr after) (pixelBytes after.job after.px (clampRun after n)).length =
      (pixelBytes after.job after.px (clampRun after n)).length
  · rw [writePixels_next hk] at h
    cases h; exact .inl ⟨hk, rfl⟩
  · simp only [writePixels, if_neg hk] at h
    cases h; exact .inr ⟨_, rfl, by omega, rfl⟩

/-- `WritePixels` always answers a next state. -/
theorem writePixels_answers (before after : State) (n : Nat) : ∃ t, writePixels before after n = .next t := by
  simp only [writePixels]; split <;> exact ⟨_, rfl⟩

/-- `Emit` where the sink takes every byte. -/
theorem emit_next {before after : State} {bytes : List Byte}
    (h : after.job.sink.accepts after.op bytes.length = bytes.length) :
    emit before after bytes =
      .next ((after.setOut (Memory.writeBytes after.out after.op bytes)).countOut bytes.length) := by
  simp only [emit, h, if_true, List.take_length]

/-- Everything `Emit` can do. -/
theorem emit_cases {before after t : State} {bytes : List Byte} (h : emit before after bytes = .next t) :
    (after.job.sink.accepts after.op bytes.length = bytes.length ∧
      t = (after.setOut (Memory.writeBytes after.out after.op bytes)).countOut bytes.length) ∨
    (∃ k, k = after.job.sink.accepts after.op bytes.length ∧ k < bytes.length ∧
      t = (before.setOut (Memory.writeBytes after.out after.op (bytes.take k))).raise .ioError
        (encodeProgress before.job before.pi (before.op + k))) := by
  have hle := after.job.sink.accepts_le after.op bytes.length
  by_cases hk : after.job.sink.accepts after.op bytes.length = bytes.length
  · rw [emit_next hk] at h
    cases h; exact .inl ⟨hk, rfl⟩
  · simp only [emit, if_neg hk] at h
    cases h; exact .inr ⟨_, rfl, by omega, rfl⟩

/-- `Emit` always answers a next state. -/
theorem emit_answers (before after : State) (bytes : List Byte) : ∃ t, emit before after bytes = .next t := by
  simp only [emit]; split <;> exact ⟨_, rfl⟩

/-! ### The shape of every opcode's meaning -/

/-- The pixel an opcode leaves in `PX`, and the cache it leaves. -/
theorem exec_shape (i : Instr) (s : State) : ∃ px cache,
    exec i s = writePixels s (((s.setPx px).setCache cache).advance i.len) (pixelCount i) := by
  cases i with
  | idx k => exact ⟨s.cache.primaryAt k, s.cache, rfl⟩
  | diff dr dg db => exact ⟨_, _, rfl⟩
  | rep1 => exact ⟨s.px, s.cache, rfl⟩
  | luma dg drg dbg => exact ⟨_, _, rfl⟩
  | lrun v => exact ⟨s.px, s.cache, rfl⟩
  | maxrun => exact ⟨s.px, s.cache, rfl⟩
  | lidx k => exact ⟨_, _, rfl⟩
  | run n => exact ⟨s.px, s.cache, rfl⟩
  | rgb r g b => exact ⟨_, _, rfl⟩
  | rgba r g b a => exact ⟨_, _, rfl⟩

/-- The same, beside the opcode's meaning with another sink: the pixel and the cache do not depend on the sink. -/
theorem exec_shape_sink (i : Instr) (s : State) (k : Sink) : ∃ px cache,
    exec i s = writePixels s (((s.setPx px).setCache cache).advance i.len) (pixelCount i) ∧
    exec i { s with job := { s.job with sink := k } } = writePixels { s with job := { s.job with sink := k } }
      (((State.setPx { s with job := { s.job with sink := k } } px).setCache cache).advance i.len) (pixelCount i) := by
  cases i with
  | idx k => exact ⟨s.cache.primaryAt k, s.cache, rfl, rfl⟩
  | diff dr dg db => exact ⟨_, _, rfl, rfl⟩
  | rep1 => exact ⟨s.px, s.cache, rfl, rfl⟩
  | luma dg drg dbg => exact ⟨_, _, rfl, rfl⟩
  | lrun v => exact ⟨s.px, s.cache, rfl, rfl⟩
  | maxrun => exact ⟨s.px, s.cache, rfl, rfl⟩
  | lidx k => exact ⟨_, _, rfl, rfl⟩
  | run n => exact ⟨s.px, s.cache, rfl, rfl⟩
  | rgb r g b => exact ⟨_, _, rfl, rfl⟩
  | rgba r g b a => exact ⟨_, _, rfl, rfl⟩

theorem pixelCount_pos (i : Instr) : 0 < pixelCount i := by
  cases i <;> simp [pixelCount, lrunLength, runLength, runCap]

/-- Everything an opcode can do: its effect with its pixels written, or `IoError` with everything but the sink's bytes as before. -/
theorem exec_cases {i : Instr} {s t : State} (h : exec i s = .next t) :
    (∃ px cache m, t = ((((s.setPx px).setCache cache).advance i.len).setOut m).countOut (clampRun s (pixelCount i)) ∧
      m = Memory.writeBytes s.out (pixelAddr s) (pixelBytes s.job px (clampRun s (pixelCount i)))) ∨
    (∃ px k, k < (pixelBytes s.job px (clampRun s (pixelCount i))).length ∧
      t = (s.setOut (Memory.writeBytes s.out (pixelAddr s)
        ((pixelBytes s.job px (clampRun s (pixelCount i))).take k))).raise .ioError
          (decodeProgress s.job s.pc (s.op + k / s.job.outCh))) := by
  obtain ⟨px, cache, he⟩ := exec_shape i s
  rw [he] at h
  rcases writePixels_cases h with ⟨_, ht⟩ | ⟨k, _, hk, ht⟩
  · exact .inl ⟨px, cache, _, ht, rfl⟩
  · exact .inr ⟨px, k, hk, ht⟩

end Sys2Proof.Machine
end

