-- ==== Sys2Proof/Laws/Step.lean ====
section
/-! SUPPORT. What a step can do, said once: of a running job, by its phase; of an idle machine, the next action of software. -/

namespace Sys2Proof.Machine

open Sys2Proof

theorem step_idle {s : State} (h : s.status.state ≠ .busy) : step s = .next (idleStep s) := by
  simp [step, h]

theorem step_busy {s : State} (h : s.status.state = .busy) :
    step s = match phase s with
      | .encodeBody => encodeStep s
      | .decodeBody => decodeStep s
      | .encodeTail => encodeTail s
      | .decodeTail => decodeTail s
      | .finish => .next (finishJob s)
      | .noMode => .next (s.raise .invalidJob Progress.zero) := if_pos h

theorem phase_encode {s : State} (h : s.job.mode = .encode) :
    phase s = if s.pi < encodePixels s.job then .encodeBody
      else if s.job.framed && !s.tailDone then .encodeTail else .finish := by
  simp only [phase, h]

theorem phase_decode {s : State} (h : s.job.mode = .decode) :
    phase s = if s.op < s.job.nPixels then .decodeBody
      else if s.job.framed && !s.tailDone then .decodeTail else .finish := by
  simp only [phase, h]

theorem phase_illegal {s : State} (h : s.job.mode = .illegal) : phase s = .noMode := by
  simp only [phase, h]

/-- Everything a step of a running job can be, with what its phase says of the state. -/
theorem step_busy_cases {s t : State} (hb : s.status.state = .busy) (h : step s = .next t) :
    (s.job.mode = .encode ∧ s.pi < encodePixels s.job ∧ encodeStep s = .next t) ∨
    (s.job.mode = .encode ∧ encodePixels s.job ≤ s.pi ∧ s.job.framed = true ∧ s.tailDone = false ∧
      encodeTail s = .next t) ∨
    (s.job.mode = .encode ∧ encodePixels s.job ≤ s.pi ∧ (s.job.framed = true → s.tailDone = true) ∧ t = finishJob s) ∨
    (s.job.mode = .decode ∧ s.op < s.job.nPixels ∧ decodeStep s = .next t) ∨
    (s.job.mode = .decode ∧ s.job.nPixels ≤ s.op ∧ s.job.framed = true ∧ s.tailDone = false ∧
      decodeTail s = .next t) ∨
    (s.job.mode = .decode ∧ s.job.nPixels ≤ s.op ∧ (s.job.framed = true → s.tailDone = true) ∧ t = finishJob s) ∨
    (s.job.mode = .illegal ∧ t = s.raise .invalidJob Progress.zero) := by
  rw [step_busy hb] at h
  rcases hm : s.job.mode with _ | _ | _
  · rw [phase_encode hm] at h
    by_cases h1 : s.pi < encodePixels s.job
    · rw [if_pos h1] at h
      exact .inl ⟨rfl, h1, h⟩
    · rw [if_neg h1] at h
      by_cases h2 : (s.job.framed && !s.tailDone) = true
      · rw [if_pos h2] at h
        simp only [Bool.and_eq_true, Bool.not_eq_true'] at h2
        exact .inr (.inl ⟨rfl, by omega, h2.1, h2.2, h⟩)
      · rw [if_neg h2] at h
        simp only [Bool.and_eq_true, Bool.not_eq_true', not_and, Bool.not_eq_false] at h2
        exact .inr (.inr (.inl ⟨rfl, by omega, h2, (Host.Outcome.next.inj h).symm⟩))
  · rw [phase_decode hm] at h
    by_cases h1 : s.op < s.job.nPixels
    · rw [if_pos h1] at h
      exact .inr (.inr (.inr (.inl ⟨rfl, h1, h⟩)))
    · rw [if_neg h1] at h
      by_cases h2 : (s.job.framed && !s.tailDone) = true
      · rw [if_pos h2] at h
        simp only [Bool.and_eq_true, Bool.not_eq_true'] at h2
        exact .inr (.inr (.inr (.inr (.inl ⟨rfl, by omega, h2.1, h2.2, h⟩))))
      · rw [if_neg h2] at h
        simp only [Bool.and_eq_true, Bool.not_eq_true', not_and, Bool.not_eq_false] at h2
        exact .inr (.inr (.inr (.inr (.inr (.inl ⟨rfl, by omega, h2, (Host.Outcome.next.inj h).symm⟩)))))
  · rw [phase_illegal hm] at h
    exact .inr (.inr (.inr (.inr (.inr (.inr ⟨rfl, (Host.Outcome.next.inj h).symm⟩)))))

/-- What the encoder's step of a pixel is, once the pixel is read. -/
theorem encodeStep_read {s : State} {raw : List Byte} (h : memRead s.job.src (s.pi * s.job.ch) s.job.ch = .ok raw) :
    encodeStep s = if readPixel s.job.ch raw s.cur = s.px then repeatStep s (readPixel s.job.ch raw s.cur)
      else changeStep s (readPixel s.job.ch raw s.cur) := by
  simp only [encodeStep, h]

/-- What the decoder's step is, once its opcode is read. -/
theorem decodeStep_fetched {s : State} {i : Instr} (h : fetch s = .ok i) : decodeStep s = exec i s := by
  simp only [decodeStep, h]

/-- What the decoder's step is, where its opcode cannot be read. -/
theorem decodeStep_unread {s : State} {e : ReadError} (h : fetch s = .error e) :
    decodeStep s = .next (s.raise e.code (decodeProgress s.job s.pc s.op)) := by
  simp only [decodeStep, h]

end Sys2Proof.Machine
end

