-- ==== Sys2Proof/Laws/Calls.lean ====
section
/-! SUPPORT. What the calls do: the job their actions start, how it is run to its end, and what the bytes of a result are. -/

namespace Sys2Proof.Machine

open Sys2Proof

/-- The descriptor that `encodeActions` writes over the one before (43_interfaces.md R202). -/
def encodeJob (j : Job) (pixels : Source) (nPixels ch : Nat) (framed : Bool) (cacheIn : CacheIn) (sink : Sink) : Job :=
  { j with mode := .encode, ch := ch, src := pixels, nPixels := nPixels, nGiven := true, framed := framed,
           cacheIn := cacheIn, sink := sink }

/-- The descriptor that `decodeActions` writes (43_interfaces.md R205): every field of `JOB`. -/
def decodeJob (input : Source) (nPixels ch : Nat) (outCh : Option Nat) (framed : Bool) (cacheIn : CacheIn) (sink : Sink) :
    Job :=
  { mode := .decode, ch := ch, outChReq := outCh, nPixels := nPixels, nGiven := true, framed := framed,
    cacheIn := cacheIn, src := input, sink := sink }

theorem performAll_encode {s : State} (h : s.status.state ≠ .busy) (pixels : Source) (n ch : Nat) (framed : Bool)
    (cacheIn : CacheIn) (sink : Sink) : s.performAll (encodeActions pixels n ch framed cacheIn sink) =
      startJob ((s.setJob (encodeJob s.job pixels n ch framed cacheIn sink)).setOut []) := by
  simp [State.performAll, encodeActions, State.perform, State.setJob, State.setOut, Action.write, encodeJob, h]

theorem performAll_decode {s : State} (h : s.status.state ≠ .busy) (input : Source) (n ch : Nat) (outCh : Option Nat)
    (framed : Bool) (cacheIn : CacheIn) (sink : Sink) : s.performAll (decodeActions input n ch outCh framed cacheIn sink) =
      startJob ((s.setJob (decodeJob input n ch outCh framed cacheIn sink)).setOut []) := by
  simp [State.performAll, decodeActions, State.perform, State.setJob, State.setOut, Action.write, decodeJob, h]

theorem runJob_idle {s : State} (h : s.status.state ≠ .busy) (n : Nat) : runJob n s = s := by
  cases n with
  | zero => rfl
  | succ n => simp only [runJob, if_neg h]

theorem runJob_step {s t : State} (hb : s.status.state = .busy) (h : step s = .next t) (n : Nat) :
    runJob (n + 1) s = runJob n t := by
  simp only [runJob, if_pos hb, h]

/-- Running a job in two parts. -/
theorem runJob_add (a b : Nat) (s : State) : runJob (a + b) s = runJob b (runJob a s) := by
  induction a generalizing s with
  | zero => rw [Nat.zero_add, runJob]
  | succ a ih =>
    by_cases hb : s.status.state = .busy
    · rw [show a + 1 + b = (a + b) + 1 by omega]
      cases hs : step s with
      | next t => rw [runJob_step hb hs, runJob_step hb hs, ih]
      | fault r => exact nomatch r
      | refused r =>
        have stay : ∀ n, runJob n s = s := fun n => by cases n <;> simp [runJob, hs]
        rw [stay, stay, stay]
    · rw [runJob_idle hb, runJob_idle hb, runJob_idle hb]

/-- Buffers without a common address do not overlap at START. -/
theorem overlap_of_disjoint {j : Job} (h : disjoint j.src j.sink) : j.overlap = false := by
  unfold Job.overlap
  split
  · rename_i a b ha hb
    rw [decide_eq_false_iff_not]
    intro hlt
    exact h a b (max a b) ha hb (by simp only [Job.inLen] at hlt; omega)
  · rfl

/-- A call whose header is bad starts no job: "No job starts when one of them is raised" (60_exceptions.md R227). -/
theorem decodeCall_bad_header {file : List Byte} {e : ErrCode} (h : readHeader file = .error e) (s : State) (b : Backing)
    (outCh : Option Nat) (cacheIn : CacheIn) (sink : Sink) :
    decodeCall s file b outCh cacheIn sink = (s, .error e) := by
  simp only [decodeCall, h]

/-- The first bytes of `OUT` are a given list, where `OUT` reads as it does. -/
theorem firstBytes_eq {m : Memory} {bytes : List Byte} (h : ∀ a, a < bytes.length → Memory.read m a = bytes[a]?) :
    firstBytes m bytes.length = bytes := by
  have : ∀ (n : Nat), n ≤ bytes.length → firstBytes m n = bytes.take n := by
    intro n hn
    induction n with
    | zero => rfl
    | succ n ih =>
      rw [firstBytes, List.range_succ, List.filterMap_append, ← firstBytes, ih (by omega), List.take_add_one]
      simp only [List.filterMap_cons, List.filterMap_nil, h n (by omega), List.getElem?_eq_getElem (show n < bytes.length by omega),
        Option.toList_some]
  rw [this _ (Nat.le_refl _), List.take_length]

end Sys2Proof.Machine
end

