-- ==== Sys2Proof/Laws/PerInstr.lean ====
section
/-! SUPPORT. Statements about every opcode as syntax, one lemma per constructor: an opcode's encoding has the opcode's length, and
its leading byte alone tells that length (30_encoding.md R70). -/

namespace Sys2Proof.Laws.EncodeLength

open Sys2Proof

/-- The encoding of an opcode is as many bytes as the opcode is long. -/
def Statement (i : Instr) : Prop := ∀ c : Config, (encode c i).length = i.len

theorem idx (i : BitVec 6) : Statement (.idx i) := fun _ => rfl
theorem diff (dr dg db : BitVec 2) : Statement (.diff dr dg db) := fun _ => rfl
theorem rep1 : Statement .rep1 := fun _ => rfl
theorem luma (dg : BitVec 6) (drg dbg : BitVec 4) : Statement (.luma dg drg dbg) := fun _ => rfl
theorem lrun (v : BitVec 10) : Statement (.lrun v) := fun _ => rfl
theorem maxrun : Statement .maxrun := fun _ => rfl
theorem lidx (s : BitVec 10) : Statement (.lidx s) := fun _ => rfl
theorem run (n : BitVec 6) : Statement (.run n) := fun _ => rfl
theorem rgb (r g b : Byte) : Statement (.rgb r g b) := fun _ => rfl
theorem rgba (r g b a : Byte) : Statement (.rgba r g b a) := fun _ => rfl

end Sys2Proof.Laws.EncodeLength

namespace Sys2Proof.Laws.LeadingByte

open Sys2Proof

/-- The leading byte of a well-formed opcode tells its length. -/
def Statement (i : Instr) : Prop := ∀ c : Config, i.wf c = true → opLen ((encode c i).headD 0) = i.len

theorem opLen_eq (b : Byte) : opLen b = if b.toNat < 128 then 1 else if b.toNat < 192 then 2 else
    if b.toNat < 254 then 1 else if b.toNat = 254 then 4 else 5 := by
  simp only [opLen, BitVec.lt_def, ← BitVec.toNat_inj]; rfl

theorem one_of_lt {b : Byte} (h : b.toNat < 128) : opLen b = 1 := by
  rw [opLen_eq, if_pos h]

theorem two_of_range {b : Byte} (h : 128 ≤ b.toNat) (h' : b.toNat < 192) : opLen b = 2 := by
  rw [opLen_eq, if_neg (by omega), if_pos h']

theorem one_of_run {b : Byte} (h : 192 ≤ b.toNat) (h' : b.toNat < 254) : opLen b = 1 := by
  rw [opLen_eq, if_neg (by omega), if_neg (by omega), if_pos h']

/-- A leading byte `10xxxxxx` is one of the two-byte group. -/
theorem two_of_group (x : BitVec 6) : opLen (2#2 ++ x) = 2 := by
  have hx := x.isLt
  have e := toNat_append_eq 2#2 x
  exact two_of_range (by rw [e]; simp) (by rw [e]; simp; omega)

theorem idx (i : BitVec 6) : Statement (.idx i) := fun _ _ => by
  have hi := i.isLt
  exact one_of_lt (by simp only [encode, List.headD_cons, toNat_append_eq]; simp; omega)

theorem diff (dr dg db : BitVec 2) : Statement (.diff dr dg db) := fun _ _ => by
  have h1 := dr.isLt
  have h2 := dg.isLt
  have h3 := db.isLt
  exact one_of_lt (by simp only [encode, List.headD_cons, toNat_append_eq]; simp; omega)

theorem rep1 : Statement .rep1 := fun c _ => by
  have h := c.diffBias.isLt
  exact one_of_lt (by simp only [encode, List.headD_cons, repeatOnce_toNat]; omega)

theorem luma (dg : BitVec 6) (drg dbg : BitVec 4) : Statement (.luma dg drg dbg) := fun _ _ => two_of_group dg

theorem lrun (v : BitVec 10) : Statement (.lrun v) := fun _ _ => two_of_group _

theorem maxrun : Statement .maxrun := fun c h => by
  have e : c.marker1.extractLsb' 6 2 = 2#2 := by simpa [Instr.wf, Instr.maxrunOk] using h
  have e' := congrArg BitVec.toNat e
  rw [toNat_extract_eq] at e'
  have hb := c.marker1.isLt
  simp at e'
  exact two_of_range (by simp only [encode, List.headD_cons]; omega) (by simp only [encode, List.headD_cons]; omega)

theorem lidx (s : BitVec 10) : Statement (.lidx s) := fun _ _ => two_of_group _

theorem run (n : BitVec 6) : Statement (.run n) := fun c h => by
  have hn : n ≤ 0x3D#6 := by simpa [Instr.wf, Instr.runOk] using h
  have hn' : n.toNat ≤ 61 := by rw [BitVec.le_def] at hn; simpa using hn
  have e := toNat_append_eq 3#2 n
  exact one_of_run (by simp only [encode, List.headD_cons, e]; simp) (by simp only [encode, List.headD_cons, e]; simp; omega)

theorem rgb (r g b : Byte) : Statement (.rgb r g b) := fun _ _ => rfl

theorem rgba (r g b a : Byte) : Statement (.rgba r g b a) := fun _ _ => rfl

end Sys2Proof.Laws.LeadingByte
end

