-- ==== Sys2Proof/Laws/Decode.lean ====
section
/-! SUPPORT. The decoder's range tests as facts about numbers, what a decoded opcode says of the bytes, and what `fetch` reads. -/

namespace Sys2Proof

theorem byte_le_iff (a b : Byte) : a ≤ b ↔ a.toNat ≤ b.toNat := BitVec.le_def

/-- A high nibble of all ones, as a number. -/
theorem high_nibble_iff (b : Byte) : b.extractLsb' 4 4 = 15#4 ↔ b.toNat / 16 = 15 := by
  have hb := b.isLt
  rw [← BitVec.toNat_inj, toNat_extract_eq]; simp; omega

/-- A low nibble of all ones, as a number. -/
theorem low_nibble_iff (b : Byte) : b.extractLsb' 0 4 = 15#4 ↔ b.toNat % 16 = 15 := by
  rw [← BitVec.toNat_inj, toNat_extract_eq]; simp

/-- A byte is its two nibbles. -/
theorem nibbles_append (b : Byte) : (b.extractLsb' 4 4 ++ b.extractLsb' 0 4 : BitVec 8) = b := by
  apply BitVec.eq_of_toNat_eq
  have := b.isLt
  simp only [toNat_append_eq, toNat_extract_eq]; omega

theorem len_pos (i : Instr) : 1 ≤ i.len := by cases i <;> simp [Instr.len]

theorem encode_length (c : Config) (i : Instr) : (encode c i).length = i.len := by cases i <;> rfl

theorem encodeAll_singleton_length (c : Config) (i : Instr) : (encodeAll c [i]).length = i.len := by
  simp [encodeAll, encode_length]

/-- The two-byte group is reached exactly by its leading bytes (30_encoding.md R76). -/
theorem decode_pair (c : Config) (b1 b2 : Byte) (rest : List Byte) (h : 0x80 ≤ b1.toNat) (h' : b1.toNat ≤ 0xBF) :
    decode c (b1 :: b2 :: rest) = .ok (decodePair c b1 b2, rest) := by
  have hd := c.diffBias.isLt
  have hr := repeatOnce_toNat c
  have n1 : ¬ b1 ≤ 0x3F := by rw [byte_le_iff]; simp; omega
  have n2 : b1 ≠ c.repeatOnce := fun e => by rw [e] at h; omega
  have n3 : ¬ b1 ≤ 0x7F := by rw [byte_le_iff]; simp; omega
  have n4 : b1 ≤ 0xBF := by rw [byte_le_iff]; exact h'
  simp only [decode, n1, n2, n3, n4, if_true, if_false]

theorem decodePair_len (c : Config) (b1 b2 : Byte) : (decodePair c b1 b2).len = 2 := by
  unfold decodePair; split
  · rfl
  · split
    · rfl
    · split <;> rfl

/-- Everything a decoded opcode says of the bytes it was read from: its length, the bytes left over, and that bytes further on do not
matter (42_decoder.md R161). -/
theorem decode_ok {c : Config} {bs rest : List Byte} {i : Instr} (h : decode c bs = .ok (i, rest)) :
    bs.length = i.len + rest.length ∧ i.len = opLen (bs.headD 0) ∧
      ∀ more, decode c (bs ++ more) = .ok (i, rest ++ more) := by
  cases bs with
  | nil => simp [decode] at h
  | cons b bs =>
    have hd := c.diffBias.isLt
    have hr := repeatOnce_toNat c
    have hE := Laws.LeadingByte.opLen_eq b
    simp only [decode] at h
    have hb := b.isLt
    simp only [List.headD_cons]
    split at h
    · rename_i h1
      cases h
      refine ⟨by simp [Instr.len]; omega, ?_, fun more => by simp only [List.cons_append, decode]; rw [if_pos h1]⟩
      rw [byte_le_iff] at h1
      have h1' : b.toNat ≤ 63 := h1
      rw [hE, if_pos (by omega)]; rfl
    · rename_i h1
      split at h
      · rename_i h2
        cases h
        refine ⟨by simp [Instr.len]; omega, ?_, fun more => by
          simp only [List.cons_append, decode]; rw [if_neg h1, if_pos h2]⟩
        rw [hE, if_pos (by rw [h2]; omega)]; rfl
      · rename_i h2
        split at h
        · rename_i h3
          cases h
          refine ⟨by simp [Instr.len]; omega, ?_, fun more => by
            simp only [List.cons_append, decode]; rw [if_neg h1, if_neg h2, if_pos h3]⟩
          rw [byte_le_iff] at h3
          have h3' : b.toNat ≤ 127 := h3
          rw [hE, if_pos (by omega)]; rfl
        · rename_i h3
          have h3' : 127 < b.toNat := by rw [byte_le_iff] at h3; exact Nat.lt_of_not_le h3
          split at h
          · rename_i h4
            have h4' : b.toNat ≤ 191 := by rw [byte_le_iff] at h4; exact h4
            split at h
            · cases h
              refine ⟨by rw [decodePair_len]; simp; omega, ?_, fun more => by
                simp only [List.cons_append, decode]; rw [if_neg h1, if_neg h2, if_neg h3, if_pos h4]⟩
              rw [decodePair_len, hE, if_neg (by omega), if_pos (by omega)]
            · cases h
          · rename_i h4
            have h4' : 191 < b.toNat := by rw [byte_le_iff] at h4; exact Nat.lt_of_not_le h4
            split at h
            · rename_i h5
              have h5' : b.toNat ≤ 253 := by rw [byte_le_iff] at h5; exact h5
              cases h
              refine ⟨by simp [Instr.len]; omega, ?_, fun more => by
                simp only [List.cons_append, decode]; rw [if_neg h1, if_neg h2, if_neg h3, if_neg h4, if_pos h5]⟩
              rw [hE, if_neg (by omega), if_neg (by omega), if_pos (by omega)]; rfl
            · rename_i h5
              have h5' : 253 < b.toNat := by rw [byte_le_iff] at h5; exact Nat.lt_of_not_le h5
              split at h
              · rename_i h6
                split at h
                · cases h
                  refine ⟨by simp [Instr.len]; omega, by rw [h6]; rfl, fun more => by
                    simp only [List.cons_append, decode]
                    rw [if_neg h1, if_neg h2, if_neg h3, if_neg h4, if_neg h5, if_pos h6]⟩
                · cases h
              · rename_i h6
                have h6' : b.toNat ≠ 254 := fun e => h6 (BitVec.eq_of_toNat_eq e)
                split at h
                · cases h
                  refine ⟨by simp [Instr.len]; omega, ?_, fun more => by
                    simp only [List.cons_append, decode]
                    rw [if_neg h1, if_neg h2, if_neg h3, if_neg h4, if_neg h5, if_neg h6]⟩
                  rw [hE, if_neg (by omega), if_neg (by omega), if_neg (by omega), if_neg (by omega)]; rfl
                · cases h

namespace Machine

/-- A read that stays inside IN and before the source's failure gives its bytes. -/
theorem memRead_of_le {src : Source} {a n : Nat} (h : a + n ≤ src.bytes.length)
    (hf : ∀ f, src.backing.failsAt = some f → a + n ≤ f) : memRead src a n = .ok ((src.bytes.drop a).take n) := by
  unfold memRead
  rw [if_neg (by omega)]
  split
  · rename_i f e
    have := hf f e
    rw [if_neg (by omega)]
  · rfl

/-- What `fetch` reads is the opcode that the bytes at `pc` decode to, and it lies inside IN. -/
theorem fetch_ok {s : State} {i : Instr} (h : fetch s = .ok i) :
    s.pc + i.len ≤ s.job.inLen ∧ ∃ rest, decode s.cfg (s.job.src.bytes.drop s.pc) = .ok (i, rest) := by
  unfold fetch at h
  split at h
  · cases h
  · rename_i lead hl
    dsimp only at h
    split at h
    · cases h
    · rename_i payload hp
      split at h
      · rename_i i' r hd
        cases h
        obtain ⟨e1, l1, n1⟩ := memRead_ok hl
        obtain ⟨e2, l2, n2⟩ := memRead_ok hp
        obtain ⟨f1, f2, f3⟩ := decode_ok hd
        simp only [List.headD_cons] at f2
        have pos : 1 ≤ opLen (lead.headD 0) := by rw [← f2]; exact len_pos i
        simp only [List.length_cons, n2] at f1
        have r0 : r = [] := List.length_eq_zero_iff.1 (by omega)
        have key : s.job.src.bytes.drop s.pc = (lead.headD 0 :: payload) ++
            s.job.src.bytes.drop (s.pc + 1 + (opLen (lead.headD 0) - 1)) := by
          have hlt : s.pc < s.job.src.bytes.length := by omega
          rw [List.drop_eq_getElem_cons hlt]
          have hx : lead = [s.job.src.bytes[s.pc]] := by
            rw [e1, List.drop_eq_getElem_cons hlt]; rfl
          rw [hx] at e2 ⊢
          simp only [List.headD_cons, List.cons_append] at e2 ⊢
          congr 1
          have tk := List.take_append_drop (opLen s.job.src.bytes[s.pc] - 1) (s.job.src.bytes.drop (s.pc + 1))
          rw [List.drop_drop] at tk
          rw [e2]; exact tk.symm
        exact ⟨by rw [f2]; simp only [Job.inLen]; omega, _, by rw [key]; exact f3 _⟩
      · cases h

end Machine

end Sys2Proof
end

