-- ==== Sys2Proof/Laws/Job.lean ====
section
/-! SUPPORT. What the START checks say of a job that passes them, everything START can do, cache images, and everything an
encoder step can do. -/

namespace Sys2Proof.Machine

open Sys2Proof

/-- What a job that passes the checks of R229 satisfies. -/
theorem check_none {j : Job} (h : j.check = .none) :
    j.invalid = false ∧ j.badChannels = false ∧ j.badLength = false ∧ j.required ≤ j.sink.cap := by
  unfold Job.check at h
  split at h
  · cases h
  · split at h
    · cases h
    · split at h
      · cases h
      · split at h
        · cases h
        · simp_all

theorem check_none_ch {j : Job} (h : j.check = .none) : j.ch = 3 ∨ j.ch = 4 := by
  have := (check_none h).2.1
  simp [Job.badChannels, legalChannels] at this
  tauto

theorem check_none_outCh {j : Job} (h : j.check = .none) (hm : j.mode = .decode) : j.outCh = 3 ∨ j.outCh = 4 := by
  have := (check_none h).2.1
  simp [Job.badChannels, legalChannels, hm] at this
  tauto

/-- Everything START can do: the job-start values, or the error of the first check that fails. -/
theorem startJob_cases (s : State) :
    (s.job.check = .none ∧ startJob s = (s.setStatus Status.started).jobStart) ∨
    (∃ e a r, e ≠ ErrCode.none ∧ s.job.check = e ∧ startJob s = (s.setStatus Status.started).raiseAtStart e a r ∧
      (e = .outputBufferTooSmall → a = s.job.sink.cap ∧ r = s.job.required) ∧
      (e ≠ .outputBufferTooSmall → a = 0 ∧ r = 0)) := by
  have hj : (s.setStatus Status.started).job = s.job := rfl
  rcases hc : s.job.check with _ | _ | _ | _ | _ | _ | _ | _ | _ | _
  case none => exact .inl ⟨rfl, by simp only [startJob, hj, hc]⟩
  case outputBufferTooSmall =>
    exact .inr ⟨_, _, _, by simp, rfl, by simp only [startJob, hj, hc], fun _ => ⟨rfl, rfl⟩, fun h => absurd rfl h⟩
  all_goals exact .inr ⟨_, 0, 0, by simp, rfl, by simp only [startJob, hj, hc], by simp, by simp⟩

/-- The tables loaded from an image hold its entries (20_memory.md R60). -/
theorem ofImage_lookups (es : List Pixel) (h : es.length = 1088) :
    (∀ k : BitVec 6, es[k.toNat]? = some ((Cache.ofImage es).primaryAt k)) ∧
    (∀ k : BitVec 10, es[64 + k.toNat]? = some ((Cache.ofImage es).secondaryAt k)) := by
  constructor
  · intro k
    have := k.isLt
    simp [Cache.ofImage, Cache.primaryAt, List.getElem?_eq_getElem (show k.toNat < es.length by omega)]
  · intro k
    have := k.isLt
    simp [Cache.ofImage, Cache.secondaryAt, List.getElem?_eq_getElem (show 64 + k.toNat < es.length by omega)]

/-- The image of the tables holds their entries (20_memory.md R60). -/
theorem toImage_lookups (c : Cache) : c.toImage.length = 1088 ∧
    (∀ k : BitVec 6, c.toImage[k.toNat]? = some (c.primaryAt k)) ∧
    (∀ k : BitVec 10, c.toImage[64 + k.toNat]? = some (c.secondaryAt k)) := by
  refine ⟨by simp [Cache.toImage], fun k => ?_, fun k => ?_⟩
  · have := k.isLt
    rw [Cache.toImage, List.getElem?_append_left (by simpa using this)]
    simp [Cache.primaryAt]
  · have := k.isLt
    rw [Cache.toImage, List.getElem?_append_right (by simp)]
    simp [Cache.secondaryAt]

theorem deltaEncode_len_le (c : Config) (prev cur : Pixel) :
    (deltaEncode c prev cur).len ≤ 5 ∧ (cur.a = prev.a → (deltaEncode c prev cur).len ≤ 4) := by
  constructor
  · cases deltaEncode c prev cur <;> simp [Instr.len]
  · intro h
    simp only [deltaEncode, h, if_true]; split
    · simp [Instr.len]
    · split <;> simp [Instr.len]

theorem changeOpcode_len_le (c : Config) (px cur : Pixel) (cache : Cache) :
    (changeOpcode c px cur cache).len ≤ 5 ∧ (cur.a = px.a → (changeOpcode c px cur cache).len ≤ 4) := by
  unfold changeOpcode
  split
  · simp [Instr.len]
  · split
    · simp [Instr.len]
    · exact deltaEncode_len_le c px cur

/-- Everything an encoder step can do: it emits at most 7 bytes and keeps `PX` and the cache, or takes the new pixel and updates the
cache as `ChangeStep` does (41_encoder.md R131, R132); or its read fails. -/
theorem encodeStep_cases {s t : State} (h : encodeStep s = .next t) :
    (∃ px cur run cache is, emit s (s.setEncoder px cur run cache) (encodeAll s.cfg is) = .next t ∧
      (encodeAll s.cfg is).length ≤ 7 ∧
      ((px = s.px ∧ cache = s.cache) ∨ (px ≠ s.px ∧ cache = changeCache px s.cache))) ∨
    (∃ e, memRead s.job.src (s.pi * s.job.ch) s.job.ch = .error e ∧
      t = s.raise (ReadError.code e) (encodeProgress s.job s.pi s.op)) := by
  unfold encodeStep at h
  split at h
  · cases h; exact .inr ⟨_, ‹_›, rfl⟩
  · left
    dsimp only at h
    split at h
    · refine ⟨_, _, _, _, _, h, ?_, .inl ⟨rfl, rfl⟩⟩
      unfold repeatEmits
      split
      · simp [encodeAll, encode]
      · split
        · rw [encodeAll_singleton_length]
          have := flushRun_len_le (s.run + 1).toNat
          omega
        · simp [encodeAll]
    · rename_i raw _ hne
      refine ⟨_, _, _, _, _, h, ?_, .inr ⟨hne, rfl⟩⟩
      have h1 := (changeOpcode_len_le s.cfg s.px (readPixel s.job.ch raw s.cur) s.cache).1
      have h2 : (encodeAll s.cfg (pendingRun s.run)).length ≤ 2 := by
        simp only [pendingRun]; split
        · simp [encodeAll]
        · rw [encodeAll_singleton_length]; exact flushRun_len_le _
      simp only [encodeAll, List.flatMap_append, List.length_append, List.flatMap_cons, List.flatMap_nil,
        List.append_nil, encode_length] at *
      omega

end Sys2Proof.Machine
end

