-- ==== Sys2Proof/Laws/Registers.lean ====
section
/-! SUPPORT. Access by address: under a map that gives every field its own address, an address of a field reaches that field, a
write of a `STATUS` field changes nothing, and an address without a field reaches nothing. -/

namespace Sys2Proof.Machine

open Sys2Proof

theorem Reg.mem_all (r : Reg) : r ∈ Reg.all := by cases r <;> decide

theorem regAt_field {map : RegMap} (h : ∀ r q, map r = map q → r = q) (r : Reg) : map.regAt (map r) = some r := by
  obtain ⟨q, hq⟩ : ∃ q, map.regAt (map r) = some q :=
    Option.isSome_iff_exists.mp (List.find?_isSome.mpr ⟨r, r.mem_all, by simp⟩)
  rw [hq, h q r (by simpa using List.find?_some hq)]

theorem regAt_none {map : RegMap} {addr : Nat} (h : ∀ r, map r ≠ addr) : map.regAt addr = none :=
  List.find?_eq_none.mpr fun r _ => by simpa using h r

theorem readAt_field {map : RegMap} (h : ∀ r q, map r = map q → r = q) (s : State) (r : Reg) :
    s.readAt map (map r) = some (s.readReg r) := by
  simp only [State.readAt, regAt_field h, Option.map_some]

theorem readAt_none {map : RegMap} {addr : Nat} (h : ∀ r, map r ≠ addr) (s : State) : s.readAt map addr = none := by
  simp only [State.readAt, regAt_none h, Option.map_none]

theorem writeAt_field {map : RegMap} (h : ∀ r q, map r = map q → r = q) (s : State) {r : Reg} {v : RegValue} {a : Action}
    (hw : r.write v = some a) : s.writeAt map (map r) v = s.perform a := by
  simp only [State.writeAt, regAt_field h, Option.bind_some, hw]

/-- "All fields are read-only to software" (10_state.md R31). -/
theorem Reg.write_status (v : RegValue) : ∀ r ∈ [Reg.state, .err, .errActual, .errRequired, .bytesIn, .bytesOut, .pixels,
    .cacheOut], r.write v = none := by
  intro r hr
  simp only [List.mem_cons, List.not_mem_nil, or_false] at hr
  rcases hr with rfl | rfl | rfl | rfl | rfl | rfl | rfl | rfl <;> cases v <;> rfl

theorem writeAt_status {map : RegMap} (h : ∀ r q, map r = map q → r = q) (s : State) {r : Reg} (v : RegValue)
    (hr : r ∈ [Reg.state, .err, .errActual, .errRequired, .bytesIn, .bytesOut, .pixels, .cacheOut]) :
    s.writeAt map (map r) v = s := by
  simp only [State.writeAt, regAt_field h, Option.bind_some, Reg.write_status v r hr]

theorem writeAt_none {map : RegMap} {addr : Nat} (h : ∀ r, map r ≠ addr) (s : State) (v : RegValue) :
    s.writeAt map addr v = s := by
  simp only [State.writeAt, regAt_none h, Option.bind_none]

end Sys2Proof.Machine
end

