-- ==== Sys2Proof/Tests/Slice0.lean ====
section
/-! SUPPORT. Tests. Expected values are the spec's worked vectors (95_test_vectors.md DV, EV, SV and W) or worked by hand from the
rules; the last part shows, for each statement with hypotheses, a state and operands that meet them all. -/

namespace Sys2Proof.Tests

open Sys2Proof Sys2Proof.Machine

/-! ### Well-formedness refuses ill-formed terms -/

theorem test_wf_refuses_diff : Instr.wf Config.default (.diff 2 2 2) = false := by decide
theorem test_wf_refuses_luma_red : Instr.wf Config.default (.luma 0 15 0) = false := by decide
theorem test_wf_refuses_luma_blue : Instr.wf Config.default (.luma 0 0 15) = false := by decide
theorem test_wf_refuses_lrun_marker : Instr.wf Config.default (.lrun 960) = false := by decide
theorem test_wf_refuses_lidx_nibble : Instr.wf Config.default (.lidx 191) = false := by decide
theorem test_wf_refuses_run : Instr.wf Config.default (.run 0x3E) = false := by decide
theorem test_wf_refuses_marker_outside_group :
    Instr.wf { Config.default with marker1 := 0x7C } .maxrun = false := by decide
theorem test_wf_refuses_luma_marker :
    Instr.wf { Config.default with marker1 := 0x85, marker2 := 0x9E } (.luma 5 9 14) = false := by decide
theorem test_wf_refuses_lidx_marker :
    Instr.wf { Config.default with marker1 := 0x8D, marker2 := 0x1F } (.lidx 209) = false := by decide
theorem test_config_refuses_canonical_marker :
    Config.wf { Config.default with marker1 := 0xBB, marker2 := 0xFF } = false := by decide

/-! ### Words written out from the encodings (30_encoding.md), one for each constructor -/

theorem test_decode_idx : decode Config.default [0b00010001] = .ok (.idx 17, []) := by decide
theorem test_decode_diff : decode Config.default [0b01111010] = .ok (.diff 3 2 2, []) := by decide
theorem test_decode_rep1 : decode Config.default [0b01101010] = .ok (.rep1, []) := by decide
theorem test_decode_luma : decode Config.default [0b10011100, 0b01010011] = .ok (.luma 28 5 3, []) := by decide
theorem test_decode_lrun : decode Config.default [0b10111011, 0b11111111] = .ok (.lrun 959, []) := by decide
theorem test_decode_maxrun : decode Config.default [0b10111100, 0b11110000] = .ok (.maxrun, []) := by decide
theorem test_decode_lidx : decode Config.default [0b10001101, 0b00011111] = .ok (.lidx 209, []) := by decide
theorem test_decode_run : decode Config.default [0b11111101] = .ok (.run 61, []) := by decide
theorem test_decode_rgb : decode Config.default [0b11111110, 11, 121, 231] = .ok (.rgb 11 121 231, []) := by decide
theorem test_decode_rgba :
    decode Config.default [0b11111111, 11, 121, 231, 55, 0x11] = .ok (.rgba 11 121 231 55, [0x11]) := by decide
/-- `8B FF` is a long run, not a long-index (R76). -/
theorem test_decode_both_nibbles : decode Config.default [0x8B, 0xFF] = .ok (.lrun 191, []) := by decide
theorem test_decode_cut : decode Config.default [0xFE, 0x0B] = .error .payloadCut := by decide
theorem test_tableWord_luma : decodeTableWord 16 0x9C53 = some (.luma 28 5 3) := by decide
theorem test_tableWord_rgba : decodeTableWord 8 0xFF = some (.rgba 0 0 0 0) := by decide

/-! ### One step on a small state -/

/-- A running decode job, 4 to 4 channels, payload-only, fresh cache. -/
def decoder (bytes : List Byte) (n : Nat) : State :=
  { State.reset with
    px := Pixel.start, cur := Pixel.start, status := Status.started
    job := { Job.reset with
      mode := .decode, nPixels := n, src := { bytes := bytes, backing := .slice 0 }
      sink := { cap := 4 * n, backing := .slice 10000 } } }

/-- A running encode job, payload-only, fresh cache. -/
def encoder (ch : Nat) (bytes : List Byte) : State :=
  { State.reset with
    px := Pixel.start, cur := Pixel.start, status := Status.started
    job := { Job.reset with
      ch := ch, src := { bytes := bytes, backing := .slice 0 }, sink := { cap := 100, backing := .slice 10000 } } }

/-- The next state of an outcome. -/
def result (o : Host.Outcome State Fault Refusal) : State :=
  match o with
  | .next t => t
  | _ => State.reset

/-- The first `n` bytes of OUT. -/
def outBytes (s : State) (n : Nat) : List (Option Byte) := (List.range n).map (Memory.read s.out)

/-- The cache after `A` then `B` (W7): `P[17] = B`, `S[209] = A`. -/
def cacheAB : Cache :=
  (Cache.fresh.insertEvict { r := 100, g := 100, b := 100, a := 255 } 17).insertEvict
    { r := 97, g := 96, b := 95, a := 255 } 17

/-- DV1. -/
theorem test_idx_fresh : (result (step (decoder [0x00] 1))).px = Pixel.zero := by decide
/-- DV23, last byte. -/
theorem test_idx_resident :
    (result (step { decoder [0x11] 1 with cache := cacheAB })).px = { r := 97, g := 96, b := 95, a := 255 } := by decide
/-- DV2. -/
theorem test_diff_inserts : (result (step (decoder [0x7F] 1))).cache.primaryAt 4 = { r := 1, g := 1, b := 1, a := 255 } := by
  decide
/-- DV3. -/
theorem test_diff_wraps : outBytes (result (step (decoder [0x55] 1))) 4 = [some 255, some 255, some 255, some 255] := by
  decide
/-- DV4. -/
theorem test_rep1_no_insert : (result (step (decoder [0x6A] 1))).cache.primaryAt 53 = Pixel.zero := by decide
/-- DV7: nibbles 8 and 14. -/
theorem test_luma_noncanonical : (result (step (decoder [0xA0, 0x8E] 1))).px = { r := 4, g := 0, b := 10, a := 255 } := by
  decide
/-- DV6. -/
theorem test_luma_zero_inserts : (result (step (decoder [0xA0, 0x44] 1))).cache.primaryAt 53 = Pixel.start := by decide
/-- DV8: a run of 64 clamped to 3, `pc` by 2. -/
theorem test_lrun_clamped :
    (result (step (decoder [0x80, 0xF0] 3))).op = 3 ∧ (result (step (decoder [0x80, 0xF0] 3))).pc = 2 := by decide
/-- DV11. -/
theorem test_maxrun_clamped : (result (step (decoder [0xBC, 0xF0] 2))).op = 2 := by decide
/-- W7: the third opcode of `FE 64 64 64 9C 53 8D 1F`. -/
theorem test_lidx_promotes :
    (result (exec (.lidx 209) { decoder [] 1 with cache := cacheAB })).cache.secondaryAt 145 =
      { r := 97, g := 96, b := 95, a := 255 } := by decide
theorem test_lidx_primary :
    (result (exec (.lidx 209) { decoder [] 1 with cache := cacheAB })).cache.primaryAt 17 =
      { r := 100, g := 100, b := 100, a := 255 } := by decide
/-- DV14: the longest short run, clamped. -/
theorem test_run_clamped : (result (step (decoder [0xFD] 2))).op = 2 := by decide
/-- DV18: RGB keeps the alpha 55. -/
theorem test_rgb_keeps_alpha :
    (result (exec (.rgb 1 2 3) { decoder [] 1 with px := { r := 11, g := 121, b := 231, a := 55 } })).px =
      { r := 1, g := 2, b := 3, a := 55 } := by decide
/-- DV19: a 3-channel source writes alpha 0xFF while `PX` takes the payload alpha. -/
theorem test_rgba_alpha_out :
    outBytes (result (step { decoder [0xFF, 1, 2, 3, 4] 1 with
      job := { (decoder [0xFF, 1, 2, 3, 4] 1).job with ch := 3 } })) 4 = [some 1, some 2, some 3, some 255] := by decide
/-- DV27: a cut literal. -/
theorem test_truncated :
    (result (step (decoder [0xFE, 0x0B] 1))).status.err = .truncated ∧
      (result (step (decoder [0xFE, 0x0B] 1))).status.bytesIn = 0 := by decide
/-- EV1: one RGB pixel of a 3-channel image. -/
theorem test_encode_rgb :
    outBytes (result (step (encoder 3 [0x0B, 0x79, 0xE7]))) 5 = [some 0xFE, some 0x0B, some 0x79, some 0xE7, none] := by
  decide
/-- EV16: (0,0,0,0) is a primary hit in a fresh cache. -/
theorem test_encode_idx : outBytes (result (step (encoder 4 [0, 0, 0, 0]))) 2 = [some 0x00, none] := by decide
/-- EV4: one repeat, flushed at the last pixel. -/
theorem test_encode_rep1 : outBytes (result (step (encoder 4 [0, 0, 0, 255]))) 2 = [some 0x6A, none] := by decide
/-- EV15: the last A of A B A is `LIDX 209`. -/
theorem test_encode_lidx :
    outBytes (result (step { encoder 4 [100, 100, 100, 255] with
      px := { r := 97, g := 96, b := 95, a := 255 }, cache := cacheAB })) 3 = [some 0x8D, some 0x1F, none] := by decide
/-- EV19: a slot with low nibble 0xF is not emitted as a long-index. -/
theorem test_encode_no_lidx :
    outBytes (result (step { encoder 4 [36, 0, 50, 255] with
      px := { r := 30, g := 251, b := 47, a := 255 }
      cache := Cache.fresh.setSecondary 191 { r := 36, g := 0, b := 50, a := 255 } })) 3 =
      [some 0xA5, some 0x52, none] := by decide
/-- SV3. -/
theorem test_start_capacity :
    (startJob (State.setJob State.reset { Job.reset with
      src := { bytes := [0, 0, 0, 255, 0, 0, 0, 255], backing := .slice 0 }, sink := { cap := 9, backing := .slice 100 } })).status =
      Status.failed .outputBufferTooSmall 9 10 Progress.zero := by decide
/-- SV11: IN and OUT overlapping by 1 byte. -/
theorem test_start_overlap :
    Job.check { Job.reset with
      src := { bytes := [0, 0, 0, 0], backing := .slice 0 }, sink := { cap := 100, backing := .slice 3 } } = .invalidJob := by
  decide
/-- DV33. -/
theorem test_padding_corrupt :
    (result (decodeTail (decoder [0, 0, 0, 0, 0, 0, 0, 2] 0))).status.err = .invalidPadding := by decide

/-! ### Witnesses: each statement's hypotheses can be met -/

theorem witness_decodeOfEncode : Instr.wf Config.default (.lidx 209) = true := by decide
theorem witness_encodeOfDecode : decode Config.default [0x8D, 0x1F, 0x11] = .ok (.lidx 209, [0x11]) := by decide
theorem witness_lengthFromByte : decode Config.default (0xFE :: [1, 2, 3, 4]) = .ok (.rgb 1 2 3, [4]) := by decide
theorem witness_oneByte_idx : (0x3F : Byte).toNat ≤ 0x3F := by decide
theorem witness_oneByte_rep1 : (0x6A : Byte).toNat = 0x40 + 21 * Config.default.diffBias.toNat := by decide
theorem witness_oneByte_diff :
    0x40 ≤ (0x7F : Byte).toNat ∧ (0x7F : Byte).toNat ≤ 0x7F ∧
      (0x7F : Byte).toNat ≠ 0x40 + 21 * Config.default.diffBias.toNat := by decide
theorem witness_oneByte_run : 0xC0 ≤ (0xFD : Byte).toNat ∧ (0xFD : Byte).toNat ≤ 0xFD := by decide
theorem witness_twoByte_marker : 0x80 ≤ (0xBC : Byte).toNat ∧ (0xBC : Byte).toNat ≤ 0xBF ∧
    (0xBC : Byte) = Config.default.marker1 ∧ (0xF0 : Byte) = Config.default.marker2 := by decide
theorem witness_twoByte_lrun : 0x80 ≤ (0xBF : Byte).toNat ∧ (0xBF : Byte).toNat ≤ 0xBF ∧
    ¬((0xBF : Byte) = Config.default.marker1 ∧ (0xFF : Byte) = Config.default.marker2) ∧
    (0xFF : Byte).toNat / 16 = 15 := by decide
theorem witness_twoByte_lidx : 0x80 ≤ (0x80 : Byte).toNat ∧ (0x80 : Byte).toNat ≤ 0xBF ∧
    ¬((0x80 : Byte) = Config.default.marker1 ∧ (0xEF : Byte) = Config.default.marker2) ∧
    (0xEF : Byte).toNat / 16 ≠ 15 ∧ (0xEF : Byte).toNat % 16 = 15 := by decide
theorem witness_twoByte_luma : 0x80 ≤ (0xBF : Byte).toNat ∧ (0xBF : Byte).toNat ≤ 0xBF ∧
    ¬((0xBF : Byte) = Config.default.marker1 ∧ (0xEE : Byte) = Config.default.marker2) ∧
    (0xEE : Byte).toNat / 16 ≠ 15 ∧ (0xEE : Byte).toNat % 16 ≠ 15 := by decide
theorem witness_deltaWrapped : (-128 : Int) ≤ 127 ∧ (127 : Int) ≤ 127 ∧ (-32 : Int) ≤ 31 ∧ (31 : Int) ≤ 31 := by decide
theorem witness_smallest_diff : ({ r := 255, g := 255, b := 255, a := 255 } : Pixel) ≠ Pixel.start ∧
    updateDiff Config.default Pixel.start 1 1 1 = { r := 255, g := 255, b := 255, a := 255 } := by decide
theorem witness_smallest_luma : (7#4).toNat < 8 ∧ (0#4).toNat < 8 ∧
    updateLuma Config.default { r := 100, g := 100, b := 100, a := 255 } 32 7 0 = { r := 103, g := 100, b := 96, a := 255 } ∧
    ({ r := 103, g := 100, b := 96, a := 255 } : Pixel) ≠ { r := 100, g := 100, b := 100, a := 255 } := by decide
theorem witness_smallest_rgb : ({ r := 9, g := 0, b := 0, a := 255 } : Pixel) ≠ Pixel.start ∧
    ({ r := 9, g := 0, b := 0, a := 255 } : Pixel).a = Pixel.start.a := by decide
theorem witness_smallest_rgba : Pixel.zero ≠ Pixel.start ∧ Pixel.zero.a ≠ Pixel.start.a := by decide
theorem witness_neverCollides : Config.default.wf = true ∧ Pixel.zero ≠ Pixel.start := by decide
theorem witness_neverCollides_luma :
    deltaEncode Config.default { r := 100, g := 100, b := 100, a := 255 } { r := 97, g := 96, b := 95, a := 255 } =
      .luma 28 5 3 := by decide
theorem witness_deltaInverse : (decoder [] 1).cfg.wf = true ∧ Pixel.zero ≠ (decoder [] 1).px ∧
    (decoder [] 1).job.legalOut ∧ (decoder [] 1).takesPixels 1 := by decide
/-- Deltas -2, 0, 1: a small delta at both ends of its range. -/
theorem witness_bytes_small :
    let cur : Pixel := { r := 254, g := 0, b := 1, a := 255 }
    cur ≠ Pixel.start ∧ cur.a = Pixel.start.a ∧ ((Pixel.start.r.toNat : Int) + -2) % 256 = cur.r.toNat ∧
      ((Pixel.start.g.toNat : Int) + 0) % 256 = cur.g.toNat ∧ ((Pixel.start.b.toNat : Int) + 1) % 256 = cur.b.toNat ∧
      ((-2 : Int) - (-2 - 0)) % 256 = 0 ∧ ((1 : Int) - (1 - 0)) % 256 = 0 := by decide
/-- Green delta -32, relative deltas -4 and 3: a luma delta at both ends of its ranges. -/
theorem witness_bytes_luma :
    let cur : Pixel := { r := 220, g := 224, b := 227, a := 255 }
    cur ≠ Pixel.start ∧ cur.a = Pixel.start.a ∧ ((Pixel.start.r.toNat : Int) + -36) % 256 = cur.r.toNat ∧
      ((Pixel.start.g.toNat : Int) + -32) % 256 = cur.g.toNat ∧ ((Pixel.start.b.toNat : Int) + -29) % 256 = cur.b.toNat ∧
      ((-4 : Int) - (-36 - -32)) % 256 = 0 ∧ ((3 : Int) - (-29 - -32)) % 256 = 0 ∧ ¬ (-2 : Int) ≤ -36 := by decide
/-- EV1's pixel: deltas 11, 121 and -25, relative deltas -110 and 110. -/
theorem witness_bytes_rgb :
    let cur : Pixel := { r := 11, g := 121, b := 231, a := 255 }
    cur ≠ Pixel.start ∧ cur.a = Pixel.start.a ∧ ((Pixel.start.r.toNat : Int) + 11) % 256 = cur.r.toNat ∧
      ((Pixel.start.g.toNat : Int) + 121) % 256 = cur.g.toNat ∧ ((Pixel.start.b.toNat : Int) + -25) % 256 = cur.b.toNat ∧
      ((-110 : Int) - (11 - 121)) % 256 = 0 ∧ ((110 : Int) - (-25 - 121)) % 256 = 0 ∧ ¬ (11 : Int) ≤ 1 ∧
      ¬ (121 : Int) ≤ 31 := by decide
theorem witness_bytes_rgba : Pixel.zero ≠ Pixel.start ∧ Pixel.zero.a ≠ Pixel.start.a ∧
    ((Pixel.start.r.toNat : Int) + 0) % 256 = Pixel.zero.r.toNat := by decide
theorem witness_promotion : (17#6).toNat = (209#10).toNat % 64 := by decide
theorem witness_promotion_displaced : secondarySlot (cacheAB.primaryAt 17) ≠ 209#10 := by decide
theorem witness_placed : Cache.fresh.placed :=
  ⟨fun _ => .inl (Cache.primaryAt_fresh _), fun _ => .inl (Cache.secondaryAt_fresh _)⟩
/-- A cache with one pixel, in its own secondary slot. -/
theorem witness_placed_promote :
    (Cache.fresh.setSecondary 209 { r := 100, g := 100, b := 100, a := 255 }).placed ∧
      (Cache.fresh.setSecondary 209 { r := 100, g := 100, b := 100, a := 255 }).secondaryAt 209 ≠ Pixel.zero := by
  refine ⟨⟨fun k => .inl (by simp), fun k => ?_⟩, by decide⟩
  rw [Cache.secondaryAt_setSecondary]
  split
  · rename_i h; subst h; exact .inr (by decide)
  · exact .inl (by simp)
/-- A fresh cache: slot 209 holds the zero pixel. -/
theorem witness_placed_zero : Cache.fresh.placed ∧ Cache.fresh.secondaryAt 209 = Pixel.zero := ⟨witness_placed, by simp⟩
theorem witness_runFlush : 1 ≤ 1023 ∧ 1023 ≤ 1023 ∧ 64 ≤ 1023 ∧ 2 ≤ 63 ∧ 63 ≤ 63 := by decide
/-- One pixel owed, a sink that takes it. -/
theorem witness_onePixel : (decoder [] 1).job.legalOut ∧ (decoder [] 1).takesPixels 1 := by decide
/-- A run longer than the pixels owed, on a stream that takes exactly the clamped bytes. -/
theorem witness_runs :
    let s := { decoder [] 2 with
      job := { (decoder [] 2).job with sink := { cap := 8, backing := .stream (some 8) } } }
    s.job.legalOut ∧ s.takesPixels 1 ∧ s.takesPixels ((1023#10).toNat + 64) ∧ s.takesPixels 1024 ∧
      s.takesPixels ((61#6).toNat + 2) := by decide
theorem witness_slice : (decoder [] 1).job.sink.backing = .slice 10000 := by decide
/-- A stream that fails inside the second pixel. -/
theorem witness_sinkRefuses :
    let s := { decoder [] 2 with
      job := { (decoder [] 2).job with sink := { cap := 8, backing := .stream (some 6) } } }
    s.job.legalOut ∧ ¬ s.takesPixels (pixelCount (.run 0)) := by decide
theorem witness_sameDecoder :
    sameDecoder (decoder [] 1) { decoder [] 1 with job := { (decoder [] 1).job with ch := 3, outChReq := none } } :=
  ⟨rfl, rfl, rfl, rfl, rfl, rfl⟩
theorem witness_workBounded : ∃ t, exec .rep1 (decoder [] 1) = .next t ∧ (decoder [] 1).op < (decoder [] 1).job.nPixels :=
  ⟨_, rfl, by decide⟩
theorem witness_stepRuns :
    let s := decoder [0x8D, 0x1F, 0x11] 1
    s.status.state = .busy ∧ s.job.mode = .decode ∧ s.op < s.job.nPixels ∧ s.job.src.backing.failsAt = none ∧
      decode s.cfg (s.job.src.bytes.drop s.pc) = .ok (.lidx 209, [0x11]) := by decide
/-- A stream that fails right behind the opcode. -/
theorem witness_stepRuns_stream :
    let s := { decoder [0x8D, 0x1F, 0x11] 1 with
      job := { (decoder [0x8D, 0x1F, 0x11] 1).job with src := { bytes := [0x8D, 0x1F, 0x11], backing := .stream (some 2) } } }
    s.job.src.backing.failsAt = some 2 ∧ s.pc + (Instr.lidx 209).len ≤ 2 := by decide
theorem witness_truncated :
    let s := decoder [0xFE, 0x0B] 1
    s.status.state = .busy ∧ s.job.mode = .decode ∧ s.op < s.job.nPixels ∧ s.job.src.backing.reliable ∧
      decode s.cfg (s.job.src.bytes.drop s.pc) = .error .payloadCut := by decide
theorem witness_truncated_at_boundary : decode Config.default ((decoder [] 1).job.src.bytes.drop 0) = .error .noLeadingByte := by
  decide
/-- `s` with its source a stream that fails from offset `f` on. -/
def failing (s : State) (f : Nat) : State :=
  { s with job := { s.job with src := { s.job.src with backing := .stream (some f) } } }
theorem witness_sourceFails_lead :
    let s := failing (decoder [0x11] 1) 0
    s.status.state = .busy ∧ s.job.src.backing = .stream (some 0) ∧ s.job.mode = .decode ∧ s.op < s.job.nPixels ∧
      s.pc < s.job.inLen ∧ 0 ≤ s.pc := by decide
/-- The last byte of a literal is the first that fails. -/
theorem witness_sourceFails_payload :
    let s := failing (decoder [0xFE, 1, 2, 3] 1) 3
    s.status.state = .busy ∧ s.job.src.backing = .stream (some 3) ∧ s.job.mode = .decode ∧ s.op < s.job.nPixels ∧
      decode s.cfg (s.job.src.bytes.drop s.pc) = .ok (.rgb 1 2 3, []) ∧ 3 < s.pc + (Instr.rgb 1 2 3).len := by decide
/-- A framed decode job with no pixel owed. -/
def paddingCheck (bytes : List Byte) : State :=
  { decoder bytes 0 with job := { (decoder bytes 0).job with framed := true } }
theorem witness_padding_good :
    let s := paddingCheck [0, 0, 0, 0, 0, 0, 0, 1]
    s.status.state = .busy ∧ s.job.mode = .decode ∧ s.job.nPixels ≤ s.op ∧ s.job.framed = true ∧ s.tailDone = false ∧
      s.job.src.backing.reliable ∧
      (s.job.src.bytes.drop s.pc).take 8 = [0, 0, 0, 0, 0, 0, 0, s.cfg.padMarker] := by decide
theorem witness_padding_short : (paddingCheck [0, 0, 0, 0, 0, 0, 0]).job.inLen < (paddingCheck []).pc + 8 := by decide
theorem witness_padding_bad :
    let s := paddingCheck [0, 0, 0, 0, 0, 0, 0, 2]
    s.pc + 8 ≤ s.job.inLen ∧ (s.job.src.bytes.drop s.pc).take 8 ≠ [0, 0, 0, 0, 0, 0, 0, s.cfg.padMarker] := by decide
/-- The last padding byte is the first that fails. -/
theorem witness_sourceFails_padding :
    let s := failing (paddingCheck [0, 0, 0, 0, 0, 0, 0, 1]) 7
    s.status.state = .busy ∧ s.job.src.backing = .stream (some 7) ∧ s.job.mode = .decode ∧ s.job.nPixels ≤ s.op ∧
      s.job.framed = true ∧ s.tailDone = false ∧ s.pc + 8 ≤ s.job.inLen ∧ 7 < s.pc + 8 := by decide
/-- The last byte of the encoder's pixel is the first that fails. -/
theorem witness_sourceFails_encoder :
    let s := failing (encoder 3 [11, 121, 231]) 2
    s.status.state = .busy ∧ s.job.src.backing = .stream (some 2) ∧ s.job.mode = .encode ∧ s.pi < encodePixels s.job ∧
      2 < (s.pi + 1) * s.job.ch := by decide
/-- The last of two repeats: the run is flushed. -/
theorem witness_repeat_flush :
    let s := { encoder 4 [0, 0, 0, 255, 0, 0, 0, 255] with run := 1, pi := 1 }
    s.status.state = .busy ∧ s.job.mode = .encode ∧ s.pi < encodePixels s.job ∧ s.run.toNat < 1024 ∧
      memRead s.job.src (s.pi * s.job.ch) s.job.ch = .ok [0, 0, 0, 255] ∧
      readPixel s.job.ch [0, 0, 0, 255] s.cur = s.px ∧ s.run.toNat + 1 ≠ 1024 ∧ s.pi + 1 = encodePixels s.job ∧
      s.job.sink.accepts s.op 1 = 1 := by decide
/-- The first of two repeats: the run goes on. -/
theorem witness_repeat_goes_on :
    let s := encoder 4 [0, 0, 0, 255, 0, 0, 0, 255]
    s.pi < encodePixels s.job ∧ memRead s.job.src (s.pi * s.job.ch) s.job.ch = .ok [0, 0, 0, 255] ∧
      readPixel s.job.ch [0, 0, 0, 255] s.cur = s.px ∧ s.run.toNat + 1 ≠ 1024 ∧ s.pi + 1 ≠ encodePixels s.job := by decide
/-- The 1024th repeat, at the last pixel too: the marker. -/
theorem witness_repeat_marker :
    let s := { encoder 4 [0, 0, 0, 255] with run := 1023 }
    s.pi < encodePixels s.job ∧ s.run.toNat < 1024 ∧ s.run.toNat + 1 = 1024 := by decide
/-- A changed pixel that hits: EV16. -/
theorem witness_change_hit :
    let s := encoder 4 [0, 0, 0, 0]
    s.status.state = .busy ∧ s.job.mode = .encode ∧ s.pi < encodePixels s.job ∧
      memRead s.job.src (s.pi * s.job.ch) s.job.ch = .ok [0, 0, 0, 0] ∧
      Pixel.zero = readPixel s.job.ch [0, 0, 0, 0] s.cur ∧ Pixel.zero ≠ s.px ∧
      s.cache.primaryAt (BitVec.ofNat 6 (pixelHash Pixel.zero)) = Pixel.zero ∧ s.job.sink.accepts s.op 1 = 1 := by decide
/-- A changed pixel that misses and is a long-index: EV15. -/
theorem witness_change_long :
    let a : Pixel := { r := 100, g := 100, b := 100, a := 255 }
    let s := { encoder 4 [100, 100, 100, 255] with px := { r := 97, g := 96, b := 95, a := 255 }, cache := cacheAB }
    s.pi < encodePixels s.job ∧ memRead s.job.src (s.pi * s.job.ch) s.job.ch = .ok [100, 100, 100, 255] ∧
      a = readPixel s.job.ch [100, 100, 100, 255] s.cur ∧ a ≠ s.px ∧
      s.cache.primaryAt (BitVec.ofNat 6 (pixelHash a)) ≠ a ∧ (encode s.cfg (deltaEncode s.cfg s.px a)).length = 2 ∧
      s.cache.secondaryAt (BitVec.ofNat 10 (pixelHash a)) = a ∧ pixelHash a % 1024 % 16 ≠ 15 := by decide
/-- A changed pixel that misses and is a delta: EV1. -/
theorem witness_change_delta :
    let p : Pixel := { r := 11, g := 121, b := 231, a := 255 }
    let s := encoder 3 [11, 121, 231]
    s.pi < encodePixels s.job ∧ memRead s.job.src (s.pi * s.job.ch) s.job.ch = .ok [11, 121, 231] ∧
      p = readPixel s.job.ch [11, 121, 231] s.cur ∧ p ≠ s.px ∧
      s.cache.primaryAt (BitVec.ofNat 6 (pixelHash p)) ≠ p ∧ (encode s.cfg (deltaEncode s.cfg s.px p)).length = 4 := by decide
theorem witness_encoderPadding :
    let s := { encoder 4 [] with job := { (encoder 4 []).job with framed := true } }
    s.status.state = .busy ∧ s.job.mode = .encode ∧ encodePixels s.job ≤ s.pi ∧ s.job.framed = true ∧
      s.tailDone = false ∧ s.job.sink.accepts s.op 8 = 8 := by decide
theorem witness_encoderStep : ∃ t, step (encoder 4 [0, 0, 0, 0]) = .next t ∧ t.px ≠ (encoder 4 [0, 0, 0, 0]).px ∧
    (encoder 4 [0, 0, 0, 0]).status.state = .busy ∧ (encoder 4 [0, 0, 0, 0]).job.mode = .encode ∧
    (encoder 4 [0, 0, 0, 0]).pi < encodePixels (encoder 4 [0, 0, 0, 0]).job :=
  ⟨_, rfl, by decide, by decide, by decide, by decide⟩
/-- `s` with its sink a stream that fails from offset `f` on, and with a slice-backed one. -/
def refusing (s : State) (f : Nat) : State :=
  { s with job := { s.job with sink := { s.job.sink with backing := .stream (some f) } } }
def sliced (s : State) : State :=
  { s with job := { s.job with sink := { s.job.sink with backing := .slice 0 } } }
/-- EV1's literal on a sink that takes 3 of its 4 bytes. -/
theorem witness_encoderRefused :
    let s := refusing (encoder 3 [11, 121, 231]) 3
    s.status.state = .busy ∧ s.job.mode = .encode ∧ (∃ u, step (sliced s) = .next u ∧ u.status.state = .busy ∧
      3 = s.job.sink.accepts s.op (u.op - s.op) ∧ 3 ≠ u.op - s.op) :=
  ⟨rfl, rfl, _, rfl, by decide, by decide, by decide⟩
/-- The padding on a sink that takes 7 of its 8 bytes. -/
theorem witness_paddingRefused :
    let s := refusing { encoder 4 [] with job := { (encoder 4 []).job with framed := true } } 7
    s.status.state = .busy ∧ s.job.mode = .encode ∧ (∃ u, step (sliced s) = .next u ∧ u.status.state = .busy ∧
      7 = s.job.sink.accepts s.op (u.op - s.op) ∧ 7 ≠ u.op - s.op) :=
  ⟨rfl, rfl, _, rfl, by decide, by decide, by decide⟩
theorem test_encoder_refused :
    (result (step (refusing (encoder 3 [11, 121, 231]) 3))).status.err = .ioError ∧
      outBytes (result (step (refusing (encoder 3 [11, 121, 231]) 3))) 4 = [some 0xFE, some 11, some 121, none] := by decide
theorem witness_resident_decoder : ∃ t, exec (.rgb 1 2 3) (decoder [] 1) = .next t ∧ t.pc ≠ (decoder [] 1).pc :=
  ⟨_, rfl, by decide⟩
/-- W7's cache: `B` in primary slot 17, `A` in secondary slot 209, each its own. -/
theorem witness_resident_index : primarySlot (cacheAB.primaryAt 17) = 17 ∧ secondarySlot (cacheAB.secondaryAt 209) = 209 := by
  decide
theorem witness_lockstep : (decoder [] 1).cfg.wf = true ∧ Pixel.zero ≠ (decoder [] 1).px ∧
    (decoder [] 1).job.legalOut ∧ (decoder [] 1).takesPixels 1 := by decide

/-! Start checks: a job for each clause. -/

theorem witness_start_invalid : { Job.reset with mode := JobMode.illegal, ch := 5 }.mode = .illegal := by decide
theorem witness_start_channels :
    let j := { Job.reset with ch := 5, src := { bytes := [0, 0, 0, 0, 0, 0, 0], backing := .slice 0 } }
    (j.mode ≠ .illegal ∧ j.cacheIn = .fresh ∧ j.overlap = false) ∧ j.ch ≠ 3 ∧ j.ch ≠ 4 := by decide
theorem witness_start_length :
    let j := { Job.reset with ch := 3, src := { bytes := [0, 0, 0, 0, 0, 0, 0], backing := .slice 0 } }
    (j.mode = .encode ∧ j.cacheIn = .fresh ∧ j.overlap = false) ∧ j.ch = 3 ∧ j.inLen % j.ch ≠ 0 := by decide
theorem witness_start_capacity :
    let j := { Job.reset with mode := .decode, nPixels := 2, sink := { cap := 7, backing := .slice 0 } }
    (j.mode = .decode ∧ j.cacheIn = .fresh ∧ j.overlap = false) ∧ j.ch = 4 ∧ j.outCh = 4 ∧
      j.sink.cap < j.nPixels * j.outCh := by decide
theorem witness_start_passes :
    (startJob (State.setJob State.reset { Job.reset with
      mode := .decode, nPixels := 2, sink := { cap := 8, backing := .slice 0 } })).status.state = .busy := by decide
theorem witness_start_image :
    (startJob (State.setJob State.reset { Job.reset with
      cacheIn := .image (List.replicate 1088 Pixel.start) })).status.state = .busy := by decide +kernel
theorem witness_start_fails : (startJob (State.setJob State.reset { Job.reset with ch := 7 })).status.state ≠ .busy := by
  decide
theorem witness_end_encode :
    (encoder 4 []).status.state = .busy ∧ (encoder 4 []).job.mode = .encode ∧
      encodePixels (encoder 4 []).job ≤ (encoder 4 []).pi ∧ (encoder 4 []).job.framed = false := by decide
theorem witness_end_decode :
    let s := { paddingCheck [] with tailDone := true }
    s.status.state = .busy ∧ s.job.mode = .decode ∧ s.job.nPixels ≤ s.op ∧ s.tailDone = true := by decide
theorem witness_image : (List.replicate 1088 Pixel.start).length = 1088 := List.length_replicate
theorem witness_carry :
    ∃ t, step (encoder 4 []) = .next t ∧ t.status.state = .done ∧
      ((t.perform .carryCache).perform .start).status.state = .busy := ⟨_, rfl, rfl, by decide +kernel⟩
theorem witness_poisoned : State.reset.status.state ≠ .busy ∧ State.reset.status.cacheOut = .poisoned := by decide
theorem witness_busy : (encoder 4 []).status.state = .busy ∧ (Action.setCh 3) ≠ .powerCycle := by decide
theorem witness_idle : State.reset.status.state ≠ .busy ∧ State.reset.pending = [] := by decide
theorem witness_idle_action : { State.reset with pending := [.start] }.pending = [Action.start] := by decide

/-- A running decode job that meets the invariant. -/
theorem witness_inv_decode : (decoder [0x11] 1).Inv where
  out_wf := Memory.wf_nil
  status_ok := ⟨by decide, by simp [decoder], by simp [decoder]⟩
  checked := fun _ => by decide
  encode_ok := fun _ h => by simp [decoder] at h
  decode_ok := fun _ _ => ⟨by decide, by decide, by simp [decoder, State.reset], by decide⟩

/-- A running encode job that meets the invariant, in the middle of a run. -/
theorem witness_inv_encode : { encoder 3 [0, 0, 0, 0, 0, 0] with run := 1, pi := 1 }.Inv where
  out_wf := Memory.wf_nil
  status_ok := ⟨by decide, by simp [encoder], by simp [encoder]⟩
  checked := fun _ => by decide
  encode_ok := fun _ _ => ⟨by decide, by decide, by decide, by decide, by decide, by simp [encoder, State.reset], by decide⟩
  decode_ok := fun _ h => by simp [encoder, Job.reset] at h

theorem witness_inv_steps : ∃ t, step (decoder [0x11] 1) = .next t := ⟨_, rfl⟩
theorem witness_errorKinds : (decoder [] 1).status.state = .busy ∧ (decoder [] 1).job.mode ≠ .illegal := by decide

/-- One pixel of 3 channels, framed: an encode job, and the decode job over its 12 bytes (W1, DV31). -/
def jobW1 : Job :=
  { Job.reset with
    ch := 3, outChReq := none, framed := true, src := { bytes := [11, 121, 231], backing := .slice 0 }
    sink := { cap := 12, backing := .slice 100 } }
def jobW1back : Job :=
  { jobW1 with
    mode := .decode, nPixels := 1
    src := { bytes := [0xFE, 11, 121, 231, 0, 0, 0, 0, 0, 0, 0, 1], backing := .slice 0 }
    sink := { cap := 3, backing := .slice 100 } }
/-- What that encode job leaves: three steps, BODY, TAIL and END. -/
def endW1 : State := result (step (result (step (result (step (startJob (State.setJob State.reset jobW1)))))))

theorem witness_roundTrip_encode : Config.default.wf = true ∧ jobW1.mode = .encode ∧ jobW1.check = .none ∧
    jobW1.src.backing.reliable ∧ jobW1.sink.backing.reliable := by decide
theorem witness_roundTrip_completes : completes (startJob (State.setJob State.reset jobW1)) endW1 := ⟨3, rfl, by decide⟩
theorem witness_roundTrip_decode : jobW1back.mode = .decode ∧ jobW1back.check = .none ∧
    jobW1back.src.backing.reliable ∧ jobW1back.sink.backing.reliable ∧ jobW1back.ch = jobW1.ch ∧
    jobW1back.outCh = jobW1.ch ∧ jobW1back.nPixels = encodePixels jobW1 ∧ jobW1back.framed = jobW1.framed ∧
    jobW1back.cacheIn = jobW1.cacheIn ∧ jobW1back.inLen = endW1.status.bytesOut ∧
    ∀ a, a < endW1.status.bytesOut → Memory.read endW1.out a = jobW1back.src.bytes[a]? := by decide

/-! The calls and the register map. -/

/-- W1's pixel, the caller's buffers, and the two sides of the call in payload-only mode. -/
def pixelW1 : Source := { bytes := [11, 121, 231], backing := .slice 0 }
def bufferAt100 (cap : Nat) : Sink := { cap := cap, backing := .slice 100 }
theorem test_encodeCall :
    (encodeCall State.reset pixelW1 1 1 3 false 0 .fresh (bufferAt100 4)).2 = .ok [0xFE, 11, 121, 231] := by decide +kernel
theorem test_encodeCall_length :
    (encodeCall State.reset pixelW1 2 1 3 false 0 .fresh (bufferAt100 8)).2 = .error .invalidSourceLength := by decide +kernel
theorem test_decodePayloadCall :
    (decodePayloadCall State.reset { bytes := [0xFE, 11, 121, 231], backing := .stream none } 1 3 none .fresh
      (bufferAt100 3)).2 = .ok [11, 121, 231] := by decide +kernel
theorem test_decodePayloadCall_cut :
    (decodePayloadCall State.reset { bytes := [0xFE, 11, 121], backing := .stream none } 1 3 none .fresh
      (bufferAt100 3)).2 = .error .truncated := by decide +kernel
theorem witness_calls : State.reset.status.state ≠ .busy ∧ State.reset.cfg.wf = true ∧ CacheIn.fresh.legal = true ∧
    pixelW1.bytes.length = (1#32).toNat * (1#32).toNat * 3 ∧ pixelW1.backing.reliable ∧ (bufferAt100 12).backing.reliable ∧
    (1#32).toNat * (1#32).toNat * (3 + 1) + 8 ≤ (bufferAt100 12).cap ∧ pixelW1.bytes.length ≠ (2#32).toNat * (1#32).toNat * 3 := by
  decide
theorem witness_calls_buffers : disjoint pixelW1 (bufferAt100 12) ∧
    disjoint { bytes := [0xFE, 11, 121, 231], backing := .stream none } (bufferAt100 3) := by
  constructor
  · rintro _ _ x ⟨⟩ ⟨⟩ ⟨_, h, _, _⟩
    simp only [pixelW1, List.length_cons, List.length_nil] at h
    omega
  · rintro _ _ x ⟨⟩

/-- A platform's map: the fields in the order of R30 and R31, 4 apart from 0x40 on. -/
def mapAt0x40 : RegMap := fun r => 0x40 + 4 * Reg.all.idxOf r
theorem test_map_injective : ∀ r ∈ Reg.all, ∀ q ∈ Reg.all, mapAt0x40 r = mapAt0x40 q → r = q := by decide
theorem test_writeAt : (State.reset.writeAt mapAt0x40 0x44 (.count 3)).job.ch = 3 := by decide
theorem test_readAt : State.reset.readAt mapAt0x40 0x60 = some (.runState .idle) := by decide

theorem witness_header_ok : ({ width := 0, height := 0, channels := 3, colourSpace := 0 } : Header).channels = 3 := rfl
theorem witness_header_short : ([0, 0, 0] : List Byte).length < 14 := by decide
/-- Width 0x01020304, height 0x00000005 in a header's bytes 4..11. -/
theorem witness_header_bytes : (0x01020304 : Nat) =
    (1 : Byte).toNat * 2 ^ 24 + (2 : Byte).toNat * 2 ^ 16 + (3 : Byte).toNat * 2 ^ 8 + (4 : Byte).toNat := by decide
theorem witness_header_magic : Config.magic + 1 ≠ Config.magic := by
  intro h
  have := congrArg BitVec.toNat h
  have hm := Config.magic.isLt
  simp [BitVec.toNat_add] at this
  omega
theorem witness_header_channels : (5 : Byte) ≠ 3 ∧ (5 : Byte) ≠ 4 := by decide
theorem witness_maxSize : jobW1.mode = .encode ∧ jobW1.inLen = 1 * 1 * jobW1.ch ∧ 0 < jobW1.ch ∧
    jobW1.required ≤ jobW1.sink.cap := by decide

end Sys2Proof.Tests
end

section
/-! PROOFS. Facts about the steps and the jobs that the statements about the machine share: the step of each phase, the inversions
that Laws leaves out, the bytes an encoder step may append, and what software does between jobs. -/

namespace Sys2Proof.Machine

open Sys2Proof

/-! ### The step of each phase -/

theorem step_encodeBody {s : State} (hb : s.status.state = .busy) (hm : s.job.mode = .encode)
    (hpi : s.pi < encodePixels s.job) : step s = encodeStep s := by
  rw [step_busy hb, phase_encode hm, if_pos hpi]

theorem step_encodeTail {s : State} (hb : s.status.state = .busy) (hm : s.job.mode = .encode)
    (hpi : encodePixels s.job ≤ s.pi) (hf : s.job.framed = true) (ht : s.tailDone = false) : step s = encodeTail s := by
  rw [step_busy hb, phase_encode hm, if_neg (Nat.not_lt.2 hpi), if_pos (by simp [hf, ht])]

theorem step_finish {s : State} (hb : s.status.state = .busy)
    (hmode : (s.job.mode = .encode ∧ encodePixels s.job ≤ s.pi) ∨ (s.job.mode = .decode ∧ s.job.nPixels ≤ s.op))
    (htail : s.job.framed = true → s.tailDone = true) : step s = .next (finishJob s) := by
  have hdone : ¬ (s.job.framed && !s.tailDone) = true := by simpa using htail
  rcases hmode with ⟨hm, hn⟩ | ⟨hm, hn⟩
  · rw [step_busy hb, phase_encode hm, if_neg (Nat.not_lt.2 hn), if_neg hdone]
  · rw [step_busy hb, phase_decode hm, if_neg (Nat.not_lt.2 hn), if_neg hdone]

/-- What the encoder's step of a pixel is, where the pixel cannot be read. -/
theorem encodeStep_unread {s : State} {e : ReadError} (h : memRead s.job.src (s.pi * s.job.ch) s.job.ch = .error e) :
    encodeStep s = .next (s.raise e.code (encodeProgress s.job s.pi s.op)) := by
  simp only [encodeStep, h]

/-- Everything the decoder's padding check can do (42_decoder.md R175). -/
theorem decodeTail_cases {s t : State} (h : decodeTail s = .next t) :
    (memRead s.job.src s.pc 8 = .ok s.cfg.padding ∧ t = (s.advance 8).setTailDone) ∨
    (∃ e, memRead s.job.src s.pc 8 = .error e ∧ t = s.raise e.code (decodeProgress s.job s.pc s.op)) ∨
    (∃ bytes, memRead s.job.src s.pc 8 = .ok bytes ∧ bytes ≠ s.cfg.padding ∧
      t = s.raise .invalidPadding (decodeProgress s.job s.pc s.op)) := by
  cases hr : memRead s.job.src s.pc 8 with
  | error e =>
    simp only [decodeTail, hr] at h
    cases h; exact .inr (.inl ⟨e, rfl, rfl⟩)
  | ok bytes =>
    simp only [decodeTail, hr] at h
    split at h
    · rename_i hp
      cases h; exact .inl ⟨by rw [hp], rfl⟩
    · rename_i hp
      cases h; exact .inr (.inr ⟨bytes, rfl, hp, rfl⟩)

/-! ### Emission -/

/-- `Emit` where the sink refuses a byte. -/
theorem emit_refused {before after : State} {bytes : List Byte}
    (h : after.job.sink.accepts after.op bytes.length ≠ bytes.length) :
    emit before after bytes =
      .next ((before.setOut (Memory.writeBytes after.out after.op
          (bytes.take (after.job.sink.accepts after.op bytes.length)))).raise .ioError
        (encodeProgress before.job before.pi (before.op + after.job.sink.accepts after.op bytes.length))) := by
  simp only [emit, if_neg h]

/-- The first bytes of a write are those of the whole write. -/
theorem Memory.read_writeBytes_take (m : Memory) (a : Nat) (bytes : List Byte) {k x : Nat} (hk : k ≤ bytes.length)
    (hax : a ≤ x) (hxk : x < a + k) :
    Memory.read (Memory.writeBytes m a (bytes.take k)) x = Memory.read (Memory.writeBytes m a bytes) x := by
  rw [Memory.read_writeBytes, Memory.read_writeBytes, List.length_take, if_pos (by omega), if_pos (by omega),
    List.getElem?_take_of_lt (by omega)]

/-- After `Emit` every byte up to the new `op` has been written. -/
theorem written_after_emit {m : Memory} {op : Nat} (h : ∀ a, a < op → (Memory.read m a).isSome = true) (bytes : List Byte) :
    ∀ a, a < op + bytes.length → (Memory.read (Memory.writeBytes m op bytes) a).isSome = true := by
  intro a ha
  refine Memory.isSome_writeBytes m op bytes ?_
  by_cases hlt : a < op
  · exact .inl (h a hlt)
  · exact .inr ⟨by omega, ha⟩

/-! ### The encoder -/

/-- The pixels of an encode job lie inside IN. -/
theorem pixel_inside_input {j : Job} {p : Nat} (h : p < encodePixels j) : p * j.ch + j.ch ≤ j.inLen := by
  have h1 : (p + 1) * j.ch ≤ encodePixels j * j.ch := Nat.mul_le_mul_right _ h
  have h2 : encodePixels j * j.ch ≤ j.inLen := Nat.div_mul_le_self _ _
  rw [Nat.succ_mul] at h1; omega

/-- A 3-channel source leaves alpha as it was (10_state.md R22). -/
theorem readPixel_alpha {ch : Nat} (h : ch = 3) (raw : List Byte) (cur : Pixel) : (readPixel ch raw cur).a = cur.a := by
  simp [readPixel, h]

theorem encodeAll_append_singleton_length (c : Config) (is : List Instr) (i : Instr) :
    (encodeAll c (is ++ [i])).length = (encodeAll c is).length + i.len := by
  simp [encodeAll, encode_length]

/-- What a repeated pixel does to the run (41_encoder.md R131): it goes on, or its at most two bytes are emitted and
it is over. -/
theorem repeat_cases (c : Config) (last : Bool) {run : BitVec 16} (hr : run.toNat < runCap) :
    (last = false ∧ repeatEmits last run = [] ∧ (repeatRun last run).toNat = run.toNat + 1 ∧ run.toNat + 1 < runCap) ∨
    ((encodeAll c (repeatEmits last run)).length ≤ 2 ∧ repeatRun last run = 0) := by
  have hsucc : (run + 1).toNat = run.toNat + 1 := by simp only [runCap] at hr; bv_omega
  by_cases hcap : (run + 1).toNat = runCap
  · rw [repeatEmits, repeatRun, if_pos hcap, if_pos hcap]
    exact .inr ⟨Nat.le_refl 2, rfl⟩
  · rw [repeatEmits, repeatRun, if_neg hcap, if_neg hcap]
    cases last
    · exact .inl ⟨rfl, rfl, hsucc, by omega⟩
    · exact .inr ⟨by rw [if_pos rfl, encodeAll_singleton_length]; exact flushRun_len_le _, rfl⟩

/-- Flushing a run never costs more than the pixels it stands for. -/
theorem repeatEmits_budget (c : Config) (last : Bool) {run : BitVec 16} (hr : run.toNat < runCap) {w : Nat} (hw : 2 ≤ w) :
    (encodeAll c (repeatEmits last run)).length + (repeatRun last run).toNat * w ≤ (run.toNat + 1) * w := by
  rcases repeat_cases c last hr with ⟨_, hemits, hrun, _⟩ | ⟨hlen, hrun⟩
  · rw [hemits, hrun]; exact Nat.le_of_eq (Nat.zero_add _)
  · have h1 : w ≤ (run.toNat + 1) * w := Nat.le_mul_of_pos_left w (Nat.succ_pos _)
    rw [hrun, show (0 : BitVec 16).toNat = 0 from rfl, Nat.zero_mul]; omega

theorem repeatRun_lt (last : Bool) {run : BitVec 16} (hr : run.toNat < runCap) : (repeatRun last run).toNat < runCap := by
  rcases repeat_cases Config.default last hr with ⟨_, _, hrun, hlt⟩ | ⟨_, hrun⟩
  · rw [hrun]; exact hlt
  · rw [hrun]; decide

/-- After the last pixel no run is pending (41_encoder.md R137). -/
theorem repeatRun_last (run : BitVec 16) : repeatRun true run = 0 := by
  unfold repeatRun; split <;> rfl

/-- Flushing the pending run before a changed pixel costs no more than the pixels of the run. -/
theorem pendingRun_budget (c : Config) (run : BitVec 16) {w : Nat} (hw : 2 ≤ w) :
    (encodeAll c (pendingRun run)).length ≤ run.toNat * w := by
  unfold pendingRun
  split
  · simp [encodeAll]
  · rename_i hne
    have hpos : 0 < run.toNat := by bv_omega
    rw [encodeAll_singleton_length]
    calc (flushRun run.toNat).len ≤ 2 := flushRun_len_le _
      _ ≤ w := hw
      _ ≤ run.toNat * w := Nat.le_mul_of_pos_left w hpos

/-! ### START, images, and software between jobs -/

theorem check_none_cacheIn {j : Job} (h : j.check = .none) : j.cacheIn.legal = true := by
  have hinvalid := (check_none h).1
  simp only [Job.invalid, Bool.or_eq_false_iff, Bool.not_eq_false'] at hinvalid
  exact hinvalid.1.2

/-- Loading the image of the tables gives the tables back (20_memory.md R60). -/
theorem ofImage_toImage (c : Cache) : Cache.ofImage c.toImage = c := by
  obtain ⟨hlen, hp, hs⟩ := toImage_lookups c
  obtain ⟨hp', hs'⟩ := ofImage_lookups c.toImage hlen
  exact Cache.eq_of_lookups (fun k => Option.some.inj ((hp' k).symm.trans (hp k)))
    fun k => Option.some.inj ((hs' k).symm.trans (hs k))

theorem startJob_cfg (s : State) : (startJob s).cfg = s.cfg := by
  rcases startJob_cases s with ⟨_, h⟩ | ⟨_, _, _, _, _, h, _⟩ <;> rw [h] <;> rfl

/-- Everything an action of software can do between jobs. -/
theorem perform_cases {s : State} (hb : s.status.state ≠ .busy) (a : Action) :
    (a = .powerCycle ∧ s.perform a = s.powerCycle) ∨ (a = .start ∧ s.perform a = startJob s) ∨
    (∃ k, a = .setOut k ∧ s.perform a = (s.setJob (a.write s.job s.status.cacheOut)).setOut []) ∨
    s.perform a = s.setJob (a.write s.job s.status.cacheOut) := by
  cases a
  case powerCycle => exact .inl ⟨rfl, rfl⟩
  case start => exact .inr (.inl ⟨rfl, if_neg hb⟩)
  case setOut k => exact .inr (.inr (.inl ⟨k, rfl, if_neg hb⟩))
  all_goals exact .inr (.inr (.inr (if_neg hb)))

theorem perform_cfg {s : State} (hb : s.status.state ≠ .busy) (a : Action) : (s.perform a).cfg = s.cfg := by
  rcases perform_cases hb a with ⟨_, h⟩ | ⟨_, h⟩ | ⟨_, _, h⟩ | h <;> rw [h]
  · rfl
  · exact startJob_cfg s
  · rfl
  · rfl

theorem idleStep_nil {s : State} (h : s.pending = []) : idleStep s = s := by simp only [idleStep, h]

theorem idleStep_cons {s : State} {a : Action} {rest : List Action} (h : s.pending = a :: rest) :
    idleStep s = State.perform { s with pending := rest } a := by simp only [idleStep, h]

theorem idleStep_cfg {s : State} (hb : s.status.state ≠ .busy) : (idleStep s).cfg = s.cfg := by
  cases hp : s.pending with
  | nil => rw [idleStep_nil hp]
  | cons a rest => rw [idleStep_cons hp]; exact perform_cfg (s := { s with pending := rest }) hb a

end Sys2Proof.Machine
end

section
/-! PROOFS. The invariant of the machine: it holds after power-on and every step keeps it (O49, O50). -/

namespace Sys2Proof.Machine

open Sys2Proof

/-! ### `STATUS` -/

theorem Status.ok_of_not_error_not_done {t : Status} (he : t.state ≠ .error) (hd : t.state ≠ .done)
    (herr : t.err = .none) (hc : t.cacheOut = .poisoned) : t.Ok where
  err_iff := by simp [he, herr]
  image_iff := by simp [hd, hc]
  image_size := by simp [hc]

theorem Status.started_ok : Status.started.Ok :=
  Status.ok_of_not_error_not_done (by simp) (by simp) rfl rfl

theorem Status.reset_ok : Status.reset.Ok :=
  Status.ok_of_not_error_not_done (by simp [Status.reset]) (by simp [Status.reset]) rfl rfl

theorem Status.failed_ok {e : ErrCode} (he : e ≠ .none) (a r : Nat) (p : Progress) : (Status.failed e a r p).Ok where
  err_iff := by simp [he]
  image_iff := by simp
  image_size := by simp

theorem Status.completed_ok {es : List Pixel} (h : es.length = 1088) (p : Progress) : (Status.completed p es).Ok where
  err_iff := by simp
  image_iff := by simp
  image_size := by simp [h]

theorem ReadError.code_ne_none (e : ReadError) : e.code ≠ .none := by cases e <;> simp [ReadError.code]

/-! ### From the parts of the invariant to the whole -/

/-- Without a running job the invariant speaks only of OUT and `STATUS`. -/
theorem State.inv_of_not_busy {s : State} (hout : Memory.wf s.out) (hok : s.status.Ok) (hb : s.status.state ≠ .busy) :
    s.Inv where
  out_wf := hout
  status_ok := hok
  checked := fun h => absurd h hb
  encode_ok := fun h => absurd h hb
  decode_ok := fun h => absurd h hb

theorem State.inv_of_encodeOk {s : State} (hout : Memory.wf s.out) (hok : s.status.Ok) (hc : s.job.check = .none)
    (hm : s.job.mode = .encode) (he : s.EncodeOk) : s.Inv where
  out_wf := hout
  status_ok := hok
  checked := fun _ => hc
  encode_ok := fun _ _ => he
  decode_ok := fun _ h => by simp [hm] at h

theorem State.inv_of_decodeOk {s : State} (hout : Memory.wf s.out) (hok : s.status.Ok) (hc : s.job.check = .none)
    (hm : s.job.mode = .decode) (hd : s.DecodeOk) : s.Inv where
  out_wf := hout
  status_ok := hok
  checked := fun _ => hc
  encode_ok := fun _ h => by simp [hm] at h
  decode_ok := fun _ _ => hd

/-- A job that ends in an error keeps the invariant. -/
theorem State.inv_raise {s : State} (hout : Memory.wf s.out) {e : ErrCode} (he : e ≠ .none) (p : Progress) :
    (s.raise e p).Inv :=
  State.inv_of_not_busy hout (Status.failed_ok he 0 0 p) (by simp)

theorem State.reset_inv : State.reset.Inv :=
  State.inv_of_not_busy Memory.wf_nil Status.reset_ok (by simp [State.reset, Status.reset])

/-! ### Between jobs, and at START -/

/-- A job starts with nothing consumed, nothing emitted and no run pending. -/
theorem jobStart_encodeOk (s : State) : s.jobStart.EncodeOk where
  pi_le := Nat.zero_le _
  run_lt := by simp [runCap]
  run_flushed := fun _ => rfl
  budget := by simp
  alpha := fun _ => ⟨rfl, rfl⟩
  written := fun a h => by simp at h
  tail := by simp

theorem jobStart_decodeOk (s : State) : s.jobStart.DecodeOk where
  op_le := Nat.zero_le _
  pc_le := Nat.zero_le _
  written := fun a h => by simp at h
  tail := by simp

theorem startJob_inv {s : State} (hs : s.Inv) : (startJob s).Inv := by
  rcases startJob_cases s with ⟨hc, h⟩ | ⟨e, a, r, he, _, h, _⟩
  · rw [h]
    exact { out_wf := hs.out_wf, status_ok := Status.started_ok, checked := fun _ => hc
            encode_ok := fun _ _ => jobStart_encodeOk _, decode_ok := fun _ _ => jobStart_decodeOk _ }
  · rw [h]
    exact State.inv_of_not_busy hs.out_wf (Status.failed_ok he a r Progress.zero) (by simp)

/-- The invariant survives software: no job runs, so an action writes `JOB`, clears `OUT`, starts a job or
resets the machine. -/
theorem perform_inv {s : State} (hs : s.Inv) (hb : s.status.state ≠ .busy) (a : Action) : (s.perform a).Inv := by
  rcases perform_cases hb a with ⟨_, h⟩ | ⟨_, h⟩ | ⟨_, _, h⟩ | h <;> rw [h]
  · exact State.inv_of_not_busy Memory.wf_nil Status.reset_ok (by simp [State.powerCycle, State.reset, Status.reset])
  · exact startJob_inv hs
  · exact State.inv_of_not_busy Memory.wf_nil hs.status_ok hb
  · exact State.inv_of_not_busy hs.out_wf hs.status_ok hb

theorem idleStep_inv {s : State} (hs : s.Inv) (hb : s.status.state ≠ .busy) : (idleStep s).Inv := by
  cases hp : s.pending with
  | nil => rw [idleStep_nil hp]; exact hs
  | cons a rest =>
    rw [idleStep_cons hp]
    exact perform_inv (s := { s with pending := rest }) (State.inv_of_not_busy hs.out_wf hs.status_ok hb) hb a

/-! ### The encoder -/

/-- A pixel's emission keeps what holds of a running encode job, where its bytes pay for no more than the pending run and
the pixel. -/
theorem State.EncodeOk.emit_pixel {s : State} (hs : s.EncodeOk) (hpi : s.pi < encodePixels s.job) {px cur : Pixel}
    {run : BitVec 16} (cache : Cache) {bytes : List Byte} (hrun : run.toNat < runCap)
    (hflush : s.pi + 1 = encodePixels s.job → run = 0)
    (hbudget : bytes.length + run.toNat * (s.job.ch + 1) ≤ (s.run.toNat + 1) * (s.job.ch + 1))
    (halpha : s.job.ch = 3 → px.a = 255 ∧ cur.a = 255) :
    (((s.setEncoder px cur run cache).setOut (Memory.writeBytes s.out s.op bytes)).countOut bytes.length).EncodeOk where
  pi_le := hpi
  run_lt := hrun
  run_flushed := hflush
  budget := by
    have hbefore := hs.budget
    have ht : s.tailDone = false := Bool.eq_false_iff.2 fun h => absurd (hs.tail h).2 (by omega)
    rw [Nat.succ_mul] at hbudget
    show s.op + bytes.length + run.toNat * (s.job.ch + 1) ≤ (s.pi + 1) * (s.job.ch + 1) + (if s.tailDone then 8 else 0)
    rw [Nat.succ_mul]
    simp only [ht, Bool.false_eq_true, if_false] at hbefore ⊢
    omega
  alpha := halpha
  written := written_after_emit hs.written bytes
  tail := fun h => absurd (hs.tail h).2 (by omega)

/-- The padding keeps what holds of a running encode job: the bound grows by its 8 bytes (41_encoder.md R138). -/
theorem State.EncodeOk.emit_padding {s : State} (hs : s.EncodeOk) (hpi : encodePixels s.job ≤ s.pi)
    (hf : s.job.framed = true) (ht : s.tailDone = false) {bytes : List Byte} (hlen : bytes.length = 8) :
    ((s.setTailDone.setOut (Memory.writeBytes s.out s.op bytes)).countOut bytes.length).EncodeOk where
  pi_le := hs.pi_le
  run_lt := hs.run_lt
  run_flushed := hs.run_flushed
  budget := by
    have := hs.budget
    simp [ht, hlen] at this ⊢
    omega
  alpha := hs.alpha
  written := written_after_emit hs.written bytes
  tail := fun _ => ⟨hf, Nat.le_antisymm hs.pi_le hpi⟩

/-- `Emit` in a running encode job keeps the invariant, where its success does; its refusal ends the job. -/
theorem emit_inv {before after t : State} {bytes : List Byte} (hb : before.Inv) (hbusy : before.status.state = .busy)
    (hm : before.job.mode = .encode) (h : emit before after bytes = .next t)
    (hsame : after.job = before.job ∧ after.status = before.status ∧ after.out = before.out ∧ after.op = before.op)
    (hok : ((after.setOut (Memory.writeBytes before.out before.op bytes)).countOut bytes.length).EncodeOk) : t.Inv := by
  obtain ⟨hjob, hstatus, hout, hop⟩ := hsame
  rcases emit_cases h with ⟨_, rfl⟩ | ⟨k, _, _, rfl⟩
  · rw [hout, hop]
    refine State.inv_of_encodeOk (Memory.wf_writeBytes hb.out_wf _ _) ?_ ?_ ?_ hok
    · simpa [hstatus] using hb.status_ok
    · simpa [hjob] using hb.checked hbusy
    · simpa [hjob] using hm
  · rw [hout]
    exact State.inv_raise (Memory.wf_writeBytes hb.out_wf _ _) (by simp) _

theorem repeatStep_inv {s t : State} (hs : s.Inv) (hb : s.status.state = .busy) (hm : s.job.mode = .encode)
    (hpi : s.pi < encodePixels s.job) {cur : Pixel} (halpha : s.job.ch = 3 → cur.a = 255)
    (h : repeatStep s cur = .next t) : t.Inv := by
  have hok := hs.encode_ok hb hm
  have hch := check_none_ch (hs.checked hb)
  refine emit_inv hs hb hm h ⟨rfl, rfl, rfl, rfl⟩ (hok.emit_pixel hpi s.cache (repeatRun_lt _ hok.run_lt) ?_
    (repeatEmits_budget s.cfg _ hok.run_lt (by omega)) fun h3 => ⟨(hok.alpha h3).1, halpha h3⟩)
  intro hlast
  rw [hlast, beq_self_eq_true]; exact repeatRun_last s.run

/-- A changed pixel costs at most `CH + 1` bytes, since alpha cannot change in 3-channel operation (41_encoder.md R138). -/
theorem changeStep_inv {s t : State} (hs : s.Inv) (hb : s.status.state = .busy) (hm : s.job.mode = .encode)
    (hpi : s.pi < encodePixels s.job) {cur : Pixel} (halpha : s.job.ch = 3 → cur.a = 255)
    (h : changeStep s cur = .next t) : t.Inv := by
  have hok := hs.encode_ok hb hm
  have hch := check_none_ch (hs.checked hb)
  have hown : (changeOpcode s.cfg s.px cur s.cache).len ≤ s.job.ch + 1 := by
    obtain ⟨h5, h4⟩ := changeOpcode_len_le s.cfg s.px cur s.cache
    rcases hch with h3 | h3
    · have := h4 ((halpha h3).trans (hok.alpha h3).1.symm); omega
    · omega
  have hpend := pendingRun_budget s.cfg s.run (w := s.job.ch + 1) (by omega)
  refine emit_inv hs hb hm h ⟨rfl, rfl, rfl, rfl⟩ (hok.emit_pixel hpi _ (by simp [runCap]) (fun _ => rfl) ?_
    fun h3 => ⟨halpha h3, halpha h3⟩)
  rw [encodeAll_append_singleton_length, Nat.succ_mul]
  simp only [BitVec.ofNat_eq_ofNat, BitVec.toNat_zero, Nat.zero_mul]; omega

theorem encodeStep_inv {s t : State} (hs : s.Inv) (hb : s.status.state = .busy) (hm : s.job.mode = .encode)
    (hpi : s.pi < encodePixels s.job) (h : encodeStep s = .next t) : t.Inv := by
  cases hr : memRead s.job.src (s.pi * s.job.ch) s.job.ch with
  | error e =>
    rw [encodeStep_unread hr] at h
    cases h
    exact State.inv_raise hs.out_wf e.code_ne_none _
  | ok raw =>
    have halpha : s.job.ch = 3 → (readPixel s.job.ch raw s.cur).a = 255 := fun h3 =>
      (readPixel_alpha h3 raw s.cur).trans ((hs.encode_ok hb hm).alpha h3).2
    rw [encodeStep_read hr] at h
    split at h
    · exact repeatStep_inv hs hb hm hpi halpha h
    · exact changeStep_inv hs hb hm hpi halpha h

theorem encodeTail_inv {s t : State} (hs : s.Inv) (hb : s.status.state = .busy) (hm : s.job.mode = .encode)
    (hpi : encodePixels s.job ≤ s.pi) (hf : s.job.framed = true) (ht : s.tailDone = false)
    (h : encodeTail s = .next t) : t.Inv :=
  emit_inv hs hb hm h ⟨rfl, rfl, rfl, rfl⟩ ((hs.encode_ok hb hm).emit_padding hpi hf ht rfl)

/-! ### The decoder, and END -/

/-- The pixels of an opcode that lies inside IN keep what holds of a running decode job. -/
theorem State.DecodeOk.write_pixels {s : State} (hs : s.DecodeOk) (hop : s.op < s.job.nPixels) (hlegal : s.job.legalOut)
    {len : Nat} (hlen : s.pc + len ≤ s.job.inLen) (px : Pixel) (cache : Cache) (n : Nat) :
    (((((s.setPx px).setCache cache).advance len).setOut (Memory.writeBytes s.out (pixelAddr s)
      (pixelBytes s.job px (clampRun s n)))).countOut (clampRun s n)).DecodeOk where
  op_le := by
    have : clampRun s n ≤ s.job.nPixels - s.op := Nat.min_le_right _ _
    simp; omega
  pc_le := hlen
  written := by
    have := written_after_emit hs.written (pixelBytes s.job px (clampRun s n))
    rwa [pixelBytes_length_legal hlegal, ← Nat.add_mul] at this
  tail := fun h => absurd (hs.tail h).2 (by omega)

theorem decodeStep_inv {s t : State} (hs : s.Inv) (hb : s.status.state = .busy) (hm : s.job.mode = .decode)
    (hop : s.op < s.job.nPixels) (h : decodeStep s = .next t) : t.Inv := by
  cases hf : fetch s with
  | error e =>
    rw [decodeStep_unread hf] at h
    cases h
    exact State.inv_raise hs.out_wf e.code_ne_none _
  | ok i =>
    rw [decodeStep_fetched hf] at h
    have hok := hs.decode_ok hb hm
    have hlegal := check_none_outCh (hs.checked hb) hm
    rcases exec_cases h with ⟨px, cache, _, rfl, rfl⟩ | ⟨px, k, _, rfl⟩
    · exact State.inv_of_decodeOk (Memory.wf_writeBytes hs.out_wf _ _) hs.status_ok (hs.checked hb) hm
        (hok.write_pixels hop hlegal (fetch_ok hf).1 px cache (pixelCount i))
    · exact State.inv_raise (Memory.wf_writeBytes hs.out_wf _ _) (by simp) _

theorem decodeTail_inv {s t : State} (hs : s.Inv) (hb : s.status.state = .busy) (hm : s.job.mode = .decode)
    (hop : s.job.nPixels ≤ s.op) (hf : s.job.framed = true) (h : decodeTail s = .next t) : t.Inv := by
  rcases decodeTail_cases h with ⟨hr, rfl⟩ | ⟨e, _, rfl⟩ | ⟨_, _, _, rfl⟩
  · have hok := hs.decode_ok hb hm
    exact State.inv_of_decodeOk hs.out_wf hs.status_ok (hs.checked hb) hm
      { op_le := hok.op_le, pc_le := (memRead_ok hr).2.1, written := hok.written
        tail := fun _ => ⟨hf, Nat.le_antisymm hok.op_le hop⟩ }
  · exact State.inv_raise hs.out_wf e.code_ne_none _
  · exact State.inv_raise hs.out_wf (by simp) _

theorem finishJob_inv {s : State} (hs : s.Inv) : (finishJob s).Inv :=
  State.inv_of_not_busy hs.out_wf (Status.completed_ok (toImage_lookups s.cache).1 _) (by simp [finishJob])

/-! ### The obligations -/

/-- Settles O49: no job runs after power-on, OUT is empty and `STATUS` sound. -/
theorem resetMeetsInvariant : Obligations.ResetMeetsInvariant := by
  unfold Obligations.ResetMeetsInvariant
  exact State.reset_inv

/-- Settles O50, by the phases of a running job and, between jobs, the actions of software. -/
theorem stepKeepsInvariant : Obligations.StepKeepsInvariant := by
  unfold Obligations.StepKeepsInvariant
  intro s t hs h
  by_cases hb : s.status.state = .busy
  · rcases step_busy_cases hb h with ⟨hm, hpi, h⟩ | ⟨hm, hpi, hf, ht, h⟩ | ⟨_, _, _, rfl⟩ | ⟨hm, hop, h⟩ |
      ⟨hm, hop, hf, _, h⟩ | ⟨_, _, _, rfl⟩ | ⟨_, rfl⟩
    · exact encodeStep_inv hs hb hm hpi h
    · exact encodeTail_inv hs hb hm hpi hf ht h
    · exact finishJob_inv hs
    · exact decodeStep_inv hs hb hm hop h
    · exact decodeTail_inv hs hb hm hop hf h
    · exact finishJob_inv hs
    · exact State.inv_raise hs.out_wf (by simp) _
  · rw [step_idle hb] at h
    cases h
    exact idleStep_inv hs hb

end Sys2Proof.Machine
end

section
/-! PROOFS. What no step of a running job changes (O54). -/

namespace Sys2Proof.Machine

open Sys2Proof

/-- What no step of a running job changes: the parameters, `JOB`, and what software does next. -/
abbrev sameDescriptor (s t : State) : Prop := t.cfg = s.cfg ∧ t.job = s.job ∧ t.pending = s.pending

theorem emit_sameDescriptor {before after t : State} {bytes : List Byte} (ha : sameDescriptor before after)
    (h : emit before after bytes = .next t) : sameDescriptor before t := by
  rcases emit_cases h with ⟨_, rfl⟩ | ⟨_, _, _, rfl⟩
  · exact ha
  · exact ⟨rfl, rfl, rfl⟩

theorem encodeStep_sameDescriptor {s t : State} (h : encodeStep s = .next t) : sameDescriptor s t := by
  rcases encodeStep_cases h with ⟨px, cur, run, cache, is, he, _⟩ | ⟨e, _, rfl⟩
  · exact emit_sameDescriptor (after := s.setEncoder px cur run cache) ⟨rfl, rfl, rfl⟩ he
  · exact ⟨rfl, rfl, rfl⟩

theorem decodeStep_sameDescriptor {s t : State} (h : decodeStep s = .next t) : sameDescriptor s t := by
  cases hf : fetch s with
  | error e => rw [decodeStep_unread hf] at h; cases h; exact ⟨rfl, rfl, rfl⟩
  | ok i =>
    rw [decodeStep_fetched hf] at h
    rcases exec_cases h with ⟨_, _, _, rfl, _⟩ | ⟨_, _, _, rfl⟩ <;> exact ⟨rfl, rfl, rfl⟩

theorem decodeTail_sameDescriptor {s t : State} (h : decodeTail s = .next t) : sameDescriptor s t := by
  rcases decodeTail_cases h with ⟨_, rfl⟩ | ⟨_, _, rfl⟩ | ⟨_, _, _, rfl⟩ <;> exact ⟨rfl, rfl, rfl⟩

theorem step_busy_sameDescriptor {s t : State} (hb : s.status.state = .busy) (h : step s = .next t) :
    sameDescriptor s t := by
  rcases step_busy_cases hb h with ⟨_, _, h⟩ | ⟨_, _, _, _, h⟩ | ⟨_, _, _, rfl⟩ | ⟨_, _, h⟩ | ⟨_, _, _, _, h⟩ |
    ⟨_, _, _, rfl⟩ | ⟨_, rfl⟩
  · exact encodeStep_sameDescriptor h
  · exact emit_sameDescriptor (after := s.setTailDone) ⟨rfl, rfl, rfl⟩ h
  · exact ⟨rfl, rfl, rfl⟩
  · exact decodeStep_sameDescriptor h
  · exact decodeTail_sameDescriptor h
  · exact ⟨rfl, rfl, rfl⟩
  · exact ⟨rfl, rfl, rfl⟩

/-- Settles O54: every phase keeps the descriptor, and between jobs every action of software keeps the parameters. -/
theorem runningJobKeepsDescriptor : Obligations.RunningJobKeepsDescriptor := by
  unfold Obligations.RunningJobKeepsDescriptor
  intro s t h
  by_cases hb : s.status.state = .busy
  · obtain ⟨hcfg, hjob, hpending⟩ := step_busy_sameDescriptor hb h
    exact ⟨hcfg, fun _ => ⟨hjob, hpending⟩⟩
  · rw [step_idle hb] at h
    cases h
    exact ⟨idleStep_cfg hb, fun h => absurd h hb⟩

end Sys2Proof.Machine
end

section
/-! PROOFS. An encoder step and its sink: what it appends does not depend on the sink, and what a refusing sink takes are the first of
those bytes (O36). -/

namespace Sys2Proof.Machine

open Sys2Proof

/-- The state with another sink in `JOB`. -/
def State.withSink (s : State) (k : Sink) : State := { s with job := { s.job with sink := k } }

theorem State.withSink_self (s : State) : s.withSink s.job.sink = s := rfl

/-- What an encoder's step `f` leaves in the registers, `after`, and what it appends, `bytes`, are the same on every sink. -/
def emitsOnAnySink (s : State) (f : State → Host.Outcome State Fault Refusal) : Prop :=
  ∃ (after : State) (bytes : List Byte), after.op = s.op ∧ after.out = s.out ∧ after.job = s.job ∧
    ∀ k, f (s.withSink k) = emit (s.withSink k) (after.withSink k) bytes

theorem emitsOnAnySink_congr {s : State} {f g : State → Host.Outcome State Fault Refusal}
    (h : emitsOnAnySink s f) (hfg : ∀ k, g (s.withSink k) = f (s.withSink k)) : emitsOnAnySink s g := by
  obtain ⟨after, bytes, hop, hout, hjob, hemit⟩ := h
  exact ⟨after, bytes, hop, hout, hjob, fun k => (hfg k).trans (hemit k)⟩

theorem repeatStep_emitsOnAnySink (s : State) (cur : Pixel) : emitsOnAnySink s (repeatStep · cur) :=
  ⟨s.setEncoder s.px cur (repeatRun (s.pi + 1 == encodePixels s.job) s.run) s.cache,
    encodeAll s.cfg (repeatEmits (s.pi + 1 == encodePixels s.job) s.run), rfl, rfl, rfl, fun _ => rfl⟩

theorem changeStep_emitsOnAnySink (s : State) (cur : Pixel) : emitsOnAnySink s (changeStep · cur) :=
  ⟨s.setEncoder cur cur 0 (changeCache cur s.cache),
    encodeAll s.cfg (pendingRun s.run ++ [changeOpcode s.cfg s.px cur s.cache]), rfl, rfl, rfl, fun _ => rfl⟩

theorem encodeStep_emitsOnAnySink {s : State} {raw : List Byte}
    (hr : memRead s.job.src (s.pi * s.job.ch) s.job.ch = .ok raw) : emitsOnAnySink s encodeStep := by
  by_cases heq : readPixel s.job.ch raw s.cur = s.px
  · exact emitsOnAnySink_congr (repeatStep_emitsOnAnySink s (readPixel s.job.ch raw s.cur))
      fun k => (encodeStep_read (s := s.withSink k) hr).trans (if_pos heq)
  · exact emitsOnAnySink_congr (changeStep_emitsOnAnySink s (readPixel s.job.ch raw s.cur))
      fun k => (encodeStep_read (s := s.withSink k) hr).trans (if_neg heq)

theorem encodeTail_emitsOnAnySink (s : State) : emitsOnAnySink s encodeTail :=
  ⟨s.setTailDone, s.cfg.padding, rfl, rfl, rfl, fun _ => rfl⟩

/-- A step of an encode job after which the job still runs is an emission, of a pixel or of the padding. -/
theorem step_emitsOnAnySink {s u : State} {l : Sink} (hb : s.status.state = .busy) (hm : s.job.mode = .encode)
    (h : step (s.withSink l) = .next u) (hu : u.status.state = .busy) : emitsOnAnySink s step := by
  rcases step_busy_cases (s := s.withSink l) hb h with ⟨_, hpi, h⟩ | ⟨_, hpi, hf, ht, _⟩ | ⟨_, _, _, rfl⟩ | ⟨hd, _⟩ |
    ⟨hd, _⟩ | ⟨hd, _⟩ | ⟨hd, _⟩
  case inl =>
    cases hr : memRead s.job.src (s.pi * s.job.ch) s.job.ch with
    | error e =>
      rw [encodeStep_unread (s := s.withSink l) hr] at h
      cases h
      simp at hu
    | ok raw =>
      exact emitsOnAnySink_congr (encodeStep_emitsOnAnySink hr) fun k => step_encodeBody (s := s.withSink k) hb hm hpi
  case inr.inl =>
    exact emitsOnAnySink_congr (encodeTail_emitsOnAnySink s) fun k => step_encodeTail (s := s.withSink k) hb hm hpi hf ht
  case inr.inr.inl => simp [finishJob] at hu
  all_goals exact absurd (hm.symm.trans hd) (by simp)

/-- Where the sink refuses a byte of what the same step appends on a slice-backed sink, the job ends in `IoError` and the sink's
bytes are the first of those (60_exceptions.md R220, R225). -/
theorem step_encode_refused {s u : State} {k b : Nat} (hb : s.status.state = .busy) (hm : s.job.mode = .encode)
    (h : step (s.withSink { s.job.sink with backing := .slice b }) = .next u) (hu : u.status.state = .busy)
    (hk : k = s.job.sink.accepts s.op (u.op - s.op)) (hne : k ≠ u.op - s.op) :
    ∃ bytes, k < bytes.length ∧ u.out = Memory.writeBytes s.out s.op bytes ∧
      step s = .next ((s.setOut (Memory.writeBytes s.out s.op (bytes.take k))).raise .ioError
        (encodeProgress s.job s.pi (s.op + k))) := by
  obtain ⟨after, bytes, hop, hout, hjob, hemit⟩ := step_emitsOnAnySink hb hm h hu
  rw [hemit, emit_next (Sink.accepts_of_slice rfl _ _)] at h
  cases h
  have hlen : (after.op + bytes.length) - s.op = bytes.length := by rw [hop]; omega
  replace hk : k = s.job.sink.accepts s.op bytes.length := hlen ▸ hk
  replace hne : k ≠ bytes.length := hlen ▸ hne
  have hlt : k < bytes.length := lt_of_le_of_ne (hk ▸ Sink.accepts_le _ _ _) hne
  have hself : after.withSink s.job.sink = after := by rw [← hjob]; rfl
  have hs := hemit s.job.sink
  rw [State.withSink_self, hself, emit_refused (by rw [hjob, hop, ← hk]; exact hne), hjob, hop, hout, ← hk] at hs
  exact ⟨bytes, hlt, by rw [← hop, ← hout]; rfl, hs⟩

/-- A BODY step of the encoder takes its pixel or ends in `IoError`: the end of IN cannot be reached inside a pixel. -/
theorem encodeStep_pixel_or_ioError {s t : State} (hpi : s.pi < encodePixels s.job) (h : encodeStep s = .next t) :
    (t.status = s.status ∧ t.pi = s.pi + 1 ∧ s.op ≤ t.op ∧ t.op ≤ s.op + 7) ∨
    (∃ m p, t = (s.setOut m).raise .ioError p) := by
  rcases encodeStep_cases h with ⟨px, cur, run, cache, is, he, hlen, _⟩ | ⟨e, hr, rfl⟩
  · rcases emit_cases he with ⟨_, rfl⟩ | ⟨k, _, _, rfl⟩
    · exact .inl ⟨rfl, rfl, Nat.le_add_right _ _, Nat.add_le_add_left hlen _⟩
    · exact .inr ⟨_, _, rfl⟩
  · cases e with
    | ended => exact absurd (memRead_ended hr) (Nat.not_lt.2 (pixel_inside_input hpi))
    | failed => exact .inr ⟨s.out, _, rfl⟩

/-- Settles O36: the first part by what `Emit` can do, the second by the same step on a slice-backed sink. -/
theorem encoderStepConsumesOnePixel : Obligations.EncoderStepConsumesOnePixel := by
  unfold Obligations.EncoderStepConsumesOnePixel
  constructor
  · intro s t hb hm hpi h
    rw [step_encodeBody hb hm hpi] at h
    rcases encodeStep_pixel_or_ioError hpi h with hnext | ⟨m, p, rfl⟩
    · exact .inl hnext
    · exact .inr ⟨rfl, rfl, rfl, rfl, rfl, rfl, rfl⟩
  · intro s u k hb hm h hu hk hne
    obtain ⟨bytes, hlt, hout, hs⟩ := step_encode_refused hb hm h hu hk hne
    refine ⟨_, hs, rfl, rfl, rfl, rfl, rfl, rfl, rfl, rfl, rfl, rfl, fun a hle ha => ?_, fun a ha => ?_⟩
    · rw [hout]
      exact ⟨Memory.isSome_writeBytes _ _ _ (.inr ⟨hle, by omega⟩),
        Memory.read_writeBytes_take _ _ _ (Nat.le_of_lt hlt) hle ha⟩
    · exact Memory.read_writeBytes_outside _ _ _ (by rw [List.length_take]; omega)

end Sys2Proof.Machine
end

section
/-! PROOFS. The two ends of a job, the reset values and the idle step (O41, O42, O43, O48). -/

namespace Sys2Proof.Machine

open Sys2Proof

/-- Settles O43: the step is END, and what it publishes is `toImage`, whose entries `toImage_lookups` gives. -/
theorem endPublishesCacheImage : Obligations.EndPublishesCacheImage := by
  unfold Obligations.EndPublishesCacheImage
  intro s hb hmode htail
  obtain ⟨hlen, hp, hs⟩ := toImage_lookups s.cache
  refine ⟨s.cache.toImage, _, step_finish hb hmode htail, rfl, rfl, rfl, hlen, hp, hs, ofImage_toImage s.cache, ?_, ?_⟩
  · intro hm
    simp [endProgress, hm]
  · intro hm
    simp [endProgress, hm, decodeProgress]

/-- Settles O41: of the outcomes of `startJob_cases` only the one whose checks passed is BUSY. -/
theorem jobStartValues : Obligations.JobStartValues := by
  unfold Obligations.JobStartValues
  intro s hb
  rcases startJob_cases s with ⟨hc, h⟩ | ⟨e, a, r, _, _, h, _⟩
  · refine ⟨s.job.cacheIn.load, h, fun hfresh k l => ?_, fun es himage => ?_⟩
    · rw [hfresh]
      exact ⟨Cache.primaryAt_fresh k, Cache.secondaryAt_fresh l⟩
    · have hlegal := check_none_cacheIn hc
      rw [himage] at hlegal ⊢
      exact ofImage_lookups es (by simpa [CacheIn.legal] using hlegal)
  · rw [h] at hb
    simp at hb

/-- Settles O42: each field of the reset state is the value named. -/
theorem resetGivesSpecValues : Obligations.ResetGivesSpecValues := by
  unfold Obligations.ResetGivesSpecValues
  exact ⟨rfl, rfl, rfl, rfl, rfl, rfl, rfl, rfl, rfl, rfl, rfl⟩

/-- Settles O48, by the two cases of the idle step. -/
theorem idleStepIsSoftwareOnly : Obligations.IdleStepIsSoftwareOnly := by
  unfold Obligations.IdleStepIsSoftwareOnly
  intro s hb
  rw [step_idle hb]
  exact ⟨fun hp => by rw [idleStep_nil hp], fun a rest hp => by rw [idleStep_cons hp]⟩

end Sys2Proof.Machine
end

section
/-! PROOFS. Serialized cache images (O44), and where a step of a running job may write OUT (O52). -/

namespace Sys2Proof.Machine

open Sys2Proof

/-! ### Serialized cache images -/

theorem serializeImage_cons (p : Pixel) (es : List Pixel) :
    serializeImage (p :: es) = [p.r, p.g, p.b, p.a] ++ serializeImage es := rfl

theorem serializeImage_length (es : List Pixel) : (serializeImage es).length = 4 * es.length := by
  simp [serializeImage, List.length_flatMap, Nat.mul_comm]

/-- Byte `k` of entry `e` (20_memory.md R60). -/
theorem serializeImage_entry {es : List Pixel} {e : Nat} {p : Pixel} (h : es[e]? = some p) {k : Nat} (hk : k < 4) :
    (serializeImage es)[4 * e + k]? = [p.r, p.g, p.b, p.a][k]? := by
  induction es generalizing e with
  | nil => simp at h
  | cons q es ih =>
    rw [serializeImage_cons]
    cases e with
    | zero =>
      obtain rfl : q = p := by simpa using h
      rw [Nat.mul_zero, Nat.zero_add, List.getElem?_append_left (by simpa using hk)]
    | succ e =>
      have hrest : (serializeImage es)[4 * e + k]? = [p.r, p.g, p.b, p.a][k]? := ih (by simpa using h)
      rw [List.getElem?_append_right (by simp; omega), ← hrest]
      congr 1
      simp; omega

theorem deserializeImage_serializeImage (es : List Pixel) : deserializeImage (serializeImage es) = es := by
  induction es with
  | nil => rfl
  | cons p es ih => exact congrArg (p :: ·) ih

/-- Settles O44: length, order and the way back, entry by entry. -/
theorem imageSerializesInOrder : Obligations.ImageSerializesInOrder := by
  unfold Obligations.ImageSerializesInOrder
  intro es
  refine ⟨serializeImage_length es, fun hlen => ?_, fun e p h => ?_, deserializeImage_serializeImage es⟩
  · rw [serializeImage_length, hlen]
  · exact ⟨serializeImage_entry h (k := 0) (by decide), serializeImage_entry h (k := 1) (by decide),
      serializeImage_entry h (k := 2) (by decide), serializeImage_entry h (k := 3) (by decide)⟩

/-! ### The required size -/

theorem required_encode {j : Job} (hm : j.mode = .encode) :
    j.required = encodePixels j * (j.ch + 1) + (if j.framed then 8 else 0) := by simp only [Job.required, hm]

theorem required_decode {j : Job} (hm : j.mode = .decode) : j.required = j.nPixels * j.outCh := by
  simp only [Job.required, hm]

/-- `t` has every byte of OUT at or beyond offset `n` as `s` has it. -/
def sameOutFrom (n : Nat) (s t : State) : Prop := ∀ a, n ≤ a → Memory.read t.out a = Memory.read s.out a

theorem sameOutFrom_of_out_eq {s t : State} (h : t.out = s.out) (n : Nat) : sameOutFrom n s t := by
  intro a _
  rw [h]

/-- A write that ends at or before offset `n` changes nothing from there on, in full or cut short by the sink. -/
theorem sameOutFrom_of_writeBytes {s t : State} {addr n : Nat} {bytes : List Byte}
    (h : t.out = Memory.writeBytes s.out addr bytes) (hn : addr + bytes.length ≤ n) : sameOutFrom n s t := by
  intro a ha
  rw [h, Memory.read_writeBytes_outside _ _ _ (.inr (hn.trans ha))]

/-! ### The encoder -/

/-- What `Emit` writes ends within its bytes, also where the sink refuses some. -/
theorem emit_sameOutFrom {before after t : State} {bytes : List Byte} {n : Nat}
    (h : emit before after bytes = .next t) (hout : after.out = before.out) (hn : after.op + bytes.length ≤ n) : sameOutFrom n before t := by
  rcases emit_cases h with ⟨_, rfl⟩ | ⟨k, _, _, rfl⟩
  · exact sameOutFrom_of_writeBytes (bytes := bytes) (by rw [← hout]; rfl) hn
  · refine sameOutFrom_of_writeBytes (bytes := bytes.take k) (by rw [← hout]; rfl) ?_
    rw [List.length_take]; omega

/-- A changed pixel and the flush before it cost at most `CH + 1` bytes a pixel, where alpha is fixed in 3-channel operation
(41_encoder.md R138). -/
theorem changeStep_budget (c : Config) (px cur : Pixel) (cache : Cache) (run : BitVec 16) {ch : Nat}
    (hch : ch = 3 ∨ ch = 4) (halpha : ch = 3 → cur.a = px.a) :
    (encodeAll c (pendingRun run ++ [changeOpcode c px cur cache])).length ≤ (run.toNat + 1) * (ch + 1) := by
  have hown : (changeOpcode c px cur cache).len ≤ ch + 1 := by
    obtain ⟨h5, h4⟩ := changeOpcode_len_le c px cur cache
    rcases hch with rfl | rfl
    · exact h4 (halpha rfl)
    · exact h5
  have hpending := pendingRun_budget c run (w := ch + 1) (by omega)
  rw [encodeAll_append_singleton_length, Nat.succ_mul]
  exact Nat.add_le_add hpending hown

/-- The bytes that the pending run and one more pixel pay for stay within the required size. -/
theorem State.EncodeOk.pixel_le_required {s : State} (hs : s.EncodeOk) (hm : s.job.mode = .encode)
    (hpi : s.pi < encodePixels s.job) {n : Nat} (hn : n ≤ (s.run.toNat + 1) * (s.job.ch + 1)) :
    s.op + n ≤ s.job.required := by
  have hbudget := hs.budget
  have ht : s.tailDone = false := Bool.eq_false_iff.2 fun h => absurd (hs.tail h).2 (by omega)
  simp only [ht, Bool.false_eq_true, if_false] at hbudget
  have hpixels : (s.pi + 1) * (s.job.ch + 1) ≤ encodePixels s.job * (s.job.ch + 1) := Nat.mul_le_mul_right _ hpi
  rw [Nat.succ_mul] at hn hpixels
  rw [required_encode hm]; omega

/-- The padding stays within the required size: no run is pending, and the 8 bytes are part of the size. -/
theorem State.EncodeOk.padding_le_required {s : State} (hs : s.EncodeOk) (hm : s.job.mode = .encode)
    (hpi : encodePixels s.job ≤ s.pi) (hf : s.job.framed = true) (ht : s.tailDone = false) :
    s.op + 8 ≤ s.job.required := by
  have hlast : s.pi = encodePixels s.job := Nat.le_antisymm hs.pi_le hpi
  have hbudget := hs.budget
  simp only [ht, Bool.false_eq_true, if_false, hlast] at hbudget
  rw [required_encode hm, if_pos hf]; omega

theorem encodeStep_sameOutFrom {s t : State} (hs : s.EncodeOk) (hch : s.job.ch = 3 ∨ s.job.ch = 4)
    (hm : s.job.mode = .encode) (hpi : s.pi < encodePixels s.job) (h : encodeStep s = .next t) :
    sameOutFrom s.job.required s t := by
  cases hr : memRead s.job.src (s.pi * s.job.ch) s.job.ch with
  | error e =>
    rw [encodeStep_unread hr] at h
    cases h
    exact sameOutFrom_of_out_eq rfl _
  | ok raw =>
    rw [encodeStep_read hr] at h
    split at h
    · exact emit_sameOutFrom h rfl (hs.pixel_le_required hm hpi
        (Nat.le_of_add_right_le (repeatEmits_budget s.cfg _ hs.run_lt (by omega))))
    · refine emit_sameOutFrom h rfl (hs.pixel_le_required hm hpi (changeStep_budget _ _ _ _ _ hch fun h3 => ?_))
      rw [readPixel_alpha h3, (hs.alpha h3).1, (hs.alpha h3).2]

/-! ### The decoder -/

/-- The pixels of an opcode, clamped to those that remain, end within the required size (42_decoder.md R172). -/
theorem pixels_le_required {s : State} (hm : s.job.mode = .decode) (hop : s.op ≤ s.job.nPixels)
    (hlegal : s.job.legalOut) (px : Pixel) (n : Nat) :
    pixelAddr s + (pixelBytes s.job px (clampRun s n)).length ≤ s.job.required := by
  have hclamp : clampRun s n ≤ s.job.nPixels - s.op := Nat.min_le_right _ _
  rw [pixelBytes_length_legal hlegal, pixelAddr, ← Nat.add_mul, required_decode hm]
  exact Nat.mul_le_mul_right _ (by omega)

theorem decodeStep_sameOutFrom {s t : State} (hs : s.DecodeOk) (hlegal : s.job.legalOut) (hm : s.job.mode = .decode)
    (h : decodeStep s = .next t) : sameOutFrom s.job.required s t := by
  cases hf : fetch s with
  | error e =>
    rw [decodeStep_unread hf] at h
    cases h
    exact sameOutFrom_of_out_eq rfl _
  | ok i =>
    rw [decodeStep_fetched hf] at h
    rcases exec_cases h with ⟨px, _, _, rfl, rfl⟩ | ⟨px, k, _, rfl⟩
    all_goals have hle := pixels_le_required hm hs.op_le hlegal px (pixelCount i)
    · exact sameOutFrom_of_writeBytes rfl hle
    · refine sameOutFrom_of_writeBytes rfl ?_
      rw [List.length_take]; omega

/-- Settles O52: START has checked the size against `OUT_CAP`, and of the phases of a running job only those that emit or
write pixels change OUT, within the bounds of the invariant. -/
theorem noWriteBeyondRequiredSize : Obligations.NoWriteBeyondRequiredSize := by
  unfold Obligations.NoWriteBeyondRequiredSize
  intro s t hs hb h
  have hcheck := hs.checked hb
  obtain ⟨_, _, _, hcap⟩ := check_none hcheck
  refine ⟨hcap, ?_⟩
  show sameOutFrom s.job.required s t
  rcases step_busy_cases hb h with ⟨hm, hpi, h⟩ | ⟨hm, hpi, hf, ht, h⟩ | ⟨_, _, _, rfl⟩ | ⟨hm, _, h⟩ |
    ⟨_, _, _, _, h⟩ | ⟨_, _, _, rfl⟩ | ⟨_, rfl⟩
  · exact encodeStep_sameOutFrom (hs.encode_ok hb hm) (check_none_ch hcheck) hm hpi h
  · exact emit_sameOutFrom h rfl ((hs.encode_ok hb hm).padding_le_required hm hpi hf ht)
  · exact sameOutFrom_of_out_eq rfl _
  · exact decodeStep_sameOutFrom (hs.decode_ok hb hm) (check_none_outCh hcheck hm) hm h
  · rcases decodeTail_cases h with ⟨_, rfl⟩ | ⟨_, _, rfl⟩ | ⟨_, _, _, rfl⟩ <;> exact sameOutFrom_of_out_eq rfl _
  · exact sameOutFrom_of_out_eq rfl _
  · exact sameOutFrom_of_out_eq rfl _

end Sys2Proof.Machine
end

section
/-! PROOFS. Encoding (O1 to O7): what the decoder reads for each class of leading bytes, and that every byte sequence that is long
enough begins with the encoding of a well-formed opcode, so that decoding and encoding undo each other. -/

namespace Sys2Proof

/-! ### Fields of a byte -/

theorem extract_eq_ofNat (b : Byte) (lo w : Nat) : b.extractLsb' lo w = BitVec.ofNat w (b.toNat / 2 ^ lo) := by
  apply BitVec.eq_of_toNat_eq
  rw [toNat_extract_eq, BitVec.toNat_ofNat]

theorem low_field_eq_ofNat (b : Byte) (w : Nat) : b.extractLsb' 0 w = BitVec.ofNat w b.toNat := by
  rw [extract_eq_ofNat, Nat.pow_zero, Nat.div_one]

/-- The 10-bit operand of the two-byte group, its high six bits first (30_encoding.md R78, R80). -/
theorem append_eq_ofNat_ten (x : BitVec 6) (y : BitVec 4) : x ++ y = BitVec.ofNat 10 (x.toNat * 16 + y.toNat) := by
  apply BitVec.eq_of_toNat_eq
  rw [toNat_append_eq, BitVec.toNat_ofNat]
  omega

/-- The top two bits name the quarter of the leading bytes (30_encoding.md R70). -/
theorem top_field_eq {b : Byte} {k : BitVec 2} (h : b.toNat / 64 = k.toNat) : b.extractLsb' 6 2 = k := by
  apply BitVec.eq_of_toNat_eq
  rw [toNat_extract_eq, ← h]
  have := b.isLt
  omega

theorem top_append_low {b : Byte} {k : BitVec 2} (h : b.extractLsb' 6 2 = k) : k ++ b.extractLsb' 0 6 = b := by
  rw [← h]
  exact BitVec.extractLsb'_append_extractLsb' (w := 2) (len := 6)

theorem top_append_fields {b : Byte} {k : BitVec 2} (h : b.extractLsb' 6 2 = k) :
    k ++ b.extractLsb' 4 2 ++ b.extractLsb' 2 2 ++ b.extractLsb' 0 2 = b := by
  rw [← h, BitVec.extractLsb'_append_extractLsb'_eq_extractLsb' (by decide),
    BitVec.extractLsb'_append_extractLsb'_eq_extractLsb' (by decide),
    BitVec.extractLsb'_append_extractLsb'_eq_extractLsb' (by decide)]
  exact BitVec.extractLsb'_eq_self

/-- A byte with the top field `k` lies in the quarter `k` of the leading bytes. -/
theorem top_append_toNat (k : BitVec 2) (x : BitVec 6) : (k ++ x : Byte).toNat = k.toNat * 64 + x.toNat :=
  toNat_append_eq k x

/-! ### REPEAT_ONCE and the small deltas -/

theorem eq_repeatOnce_iff (c : Config) (b : Byte) : b = c.repeatOnce ↔ b.toNat = 0x40 + 21 * c.diffBias.toNat := by
  rw [← BitVec.toNat_inj, repeatOnce_toNat]

theorem ne_repeatOnce_of_lt (c : Config) {b : Byte} (h : 0x7F < b.toNat) : b ≠ c.repeatOnce := by
  have := c.diffBias.isLt
  rw [ne_eq, eq_repeatOnce_iff]
  omega

section
variable (dr dg db : BitVec 2)

theorem diff_byte_red : (1#2 ++ dr ++ dg ++ db : Byte).extractLsb' 4 2 = dr := by
  rw [BitVec.extractLsb'_append_eq_of_le (by decide), BitVec.extractLsb'_append_eq_of_le (by decide)]
  exact BitVec.extractLsb'_append_eq_right

theorem diff_byte_green : (1#2 ++ dr ++ dg ++ db : Byte).extractLsb' 2 2 = dg := by
  rw [BitVec.extractLsb'_append_eq_of_le (by decide)]
  exact BitVec.extractLsb'_append_eq_right

theorem diff_byte_blue : (1#2 ++ dr ++ dg ++ db : Byte).extractLsb' 0 2 = db :=
  BitVec.extractLsb'_append_eq_right

theorem diff_byte_range : 0x40 ≤ (1#2 ++ dr ++ dg ++ db : Byte).toNat ∧ (1#2 ++ dr ++ dg ++ db : Byte).toNat ≤ 0x7F := by
  have := dr.isLt; have := dg.isLt; have := db.isLt
  simp only [toNat_append_eq, BitVec.toNat_ofNat]
  omega

/-- The small deltas that are opcodes are those whose byte is not REPEAT_ONCE (30_encoding.md R73, R74). -/
theorem diffOk_iff (c : Config) : Instr.diffOk c dr dg db = true ↔ (1#2 ++ dr ++ dg ++ db : Byte) ≠ c.repeatOnce := by
  have hfields : (1#2 ++ dr ++ dg ++ db : Byte) = c.repeatOnce ↔ (dr = c.diffBias ∧ dg = c.diffBias) ∧ db = c.diffBias := by
    constructor
    · intro h
      have hr := diff_byte_red dr dg db
      have hg := diff_byte_green dr dg db
      have hb := diff_byte_blue dr dg db
      rw [h] at hr hg hb
      exact ⟨⟨hr.symm.trans (diff_byte_red _ _ _), hg.symm.trans (diff_byte_green _ _ _)⟩,
        hb.symm.trans (diff_byte_blue _ _ _)⟩
    · rintro ⟨⟨rfl, rfl⟩, rfl⟩
      rfl
  rw [ne_eq, hfields]
  simp only [Instr.diffOk, Bool.not_eq_true', ← Bool.not_eq_true, Bool.and_eq_true, beq_iff_eq]

end

/-! ### What the decoder reads, by the class of the leading byte -/

/-- The classes of 30_encoding.md R70 to R75, R81 and R82. -/
theorem leading_byte_cases (c : Config) (b : Byte) :
    b.toNat ≤ 0x3F ∨ b = c.repeatOnce ∨ (0x40 ≤ b.toNat ∧ b.toNat ≤ 0x7F ∧ b ≠ c.repeatOnce) ∨
    (0x80 ≤ b.toNat ∧ b.toNat ≤ 0xBF) ∨ (0xC0 ≤ b.toNat ∧ b.toNat ≤ 0xFD) ∨ b = 0xFE ∨ b = 0xFF := by
  have := b.isLt
  have hfe : b = 0xFE ↔ b.toNat = 0xFE := BitVec.toNat_inj.symm
  have hff : b = 0xFF ↔ b.toNat = 0xFF := BitVec.toNat_inj.symm
  rw [hfe, hff]
  by_cases hr : b = c.repeatOnce
  · exact .inr (.inl hr)
  · simp only [hr, ne_eq, not_false_eq_true, and_true, false_or]
    omega

theorem not_byte_le {a b : Byte} (h : b.toNat < a.toNat) : ¬ a ≤ b := fun hle =>
  Nat.not_le_of_lt h ((byte_le_iff a b).1 hle)

section
variable (c : Config) {b : Byte} (rest : List Byte)

theorem decode_idx (h : b.toNat ≤ 0x3F) : decode c (b :: rest) = .ok (.idx (b.extractLsb' 0 6), rest) := by
  have hle : b ≤ 0x3F := (byte_le_iff b 0x3F).2 h
  simp only [decode, if_pos hle]

theorem decode_repeatOnce : decode c (c.repeatOnce :: rest) = .ok (.rep1, rest) := by
  have hgt : ¬ c.repeatOnce ≤ 0x3F := not_byte_le (by rw [repeatOnce_toNat]; exact Nat.le_add_right 64 _)
  simp only [decode, if_neg hgt, if_true]

theorem decode_diff (h : 0x40 ≤ b.toNat) (h' : b.toNat ≤ 0x7F) (hr : b ≠ c.repeatOnce) :
    decode c (b :: rest) = .ok (.diff (b.extractLsb' 4 2) (b.extractLsb' 2 2) (b.extractLsb' 0 2), rest) := by
  have hgt : ¬ b ≤ 0x3F := not_byte_le h
  have hle : b ≤ 0x7F := (byte_le_iff b 0x7F).2 h'
  simp only [decode, if_neg hgt, if_neg hr, if_pos hle]

theorem decode_run (h : 0xC0 ≤ b.toNat) (h' : b.toNat ≤ 0xFD) :
    decode c (b :: rest) = .ok (.run (b.extractLsb' 0 6), rest) := by
  have n1 : ¬ b ≤ 0x3F := not_byte_le (Nat.lt_of_lt_of_le (by decide) h)
  have n2 : b ≠ c.repeatOnce := ne_repeatOnce_of_lt c (Nat.lt_of_lt_of_le (by decide) h)
  have n3 : ¬ b ≤ 0x7F := not_byte_le (Nat.lt_of_lt_of_le (by decide) h)
  have n4 : ¬ b ≤ 0xBF := not_byte_le h
  have hle : b ≤ 0xFD := (byte_le_iff b 0xFD).2 h'
  simp only [decode, if_neg n1, if_neg n2, if_neg n3, if_neg n4, if_pos hle]

theorem decode_rgb (r g b : Byte) : decode c (0xFE :: r :: g :: b :: rest) = .ok (.rgb r g b, rest) := by
  have n2 : (0xFE : Byte) ≠ c.repeatOnce := ne_repeatOnce_of_lt c (by decide)
  simp only [decode, if_neg n2]
  rfl

theorem decode_rgba (r g b a : Byte) : decode c (0xFF :: r :: g :: b :: a :: rest) = .ok (.rgba r g b a, rest) := by
  have n2 : (0xFF : Byte) ≠ c.repeatOnce := ne_repeatOnce_of_lt c (by decide)
  simp only [decode, if_neg n2]
  rfl

end

/-! ### The two-byte group (30_encoding.md R76) -/

theorem notMarker_iff (c : Config) (b1 b2 : Byte) :
    Instr.notMarker c b1 b2 = true ↔ ¬(b1 = c.marker1 ∧ b2 = c.marker2) := by
  simp only [Instr.notMarker, Bool.not_eq_true', ← Bool.not_eq_true, Bool.and_eq_true, beq_iff_eq]

section
variable {c : Config} {b1 b2 : Byte}

theorem decodePair_maxrun (h : b1 = c.marker1 ∧ b2 = c.marker2) : decodePair c b1 b2 = .maxrun := if_pos h

theorem decodePair_lrun (hm : ¬(b1 = c.marker1 ∧ b2 = c.marker2)) (hh : b2.extractLsb' 4 4 = 15#4) :
    decodePair c b1 b2 = .lrun (b1.extractLsb' 0 6 ++ b2.extractLsb' 0 4) := by
  rw [decodePair, if_neg hm, if_pos hh]

theorem decodePair_lidx (hm : ¬(b1 = c.marker1 ∧ b2 = c.marker2)) (hh : b2.extractLsb' 4 4 ≠ 15#4)
    (hl : b2.extractLsb' 0 4 = 15#4) : decodePair c b1 b2 = .lidx (b1.extractLsb' 0 6 ++ b2.extractLsb' 4 4) := by
  rw [decodePair, if_neg hm, if_neg hh, if_pos hl]

theorem decodePair_luma (hm : ¬(b1 = c.marker1 ∧ b2 = c.marker2)) (hh : b2.extractLsb' 4 4 ≠ 15#4)
    (hl : b2.extractLsb' 0 4 ≠ 15#4) :
    decodePair c b1 b2 = .luma (b1.extractLsb' 0 6) (b2.extractLsb' 4 4) (b2.extractLsb' 0 4) := by
  rw [decodePair, if_neg hm, if_neg hh, if_neg hl]

end

/-! The line of R76 that reads the two bytes of a well-formed opcode gives back its operands. -/

theorem decodePair_of_lumaOk {c : Config} {dg : BitVec 6} {drg dbg : BitVec 4} (h : Instr.lumaOk c dg drg dbg = true) :
    decodePair c (2#2 ++ dg) (drg ++ dbg) = .luma dg drg dbg := by
  simp only [Instr.lumaOk, Bool.and_eq_true, bne_iff_ne, notMarker_iff] at h
  obtain ⟨⟨hr, hb⟩, hm⟩ := h
  rw [decodePair_luma hm (by rwa [BitVec.extractLsb'_append_eq_left]) (by rwa [BitVec.extractLsb'_append_eq_right]),
    BitVec.extractLsb'_append_eq_right, BitVec.extractLsb'_append_eq_left, BitVec.extractLsb'_append_eq_right]

theorem decodePair_of_lrunOk {c : Config} {v : BitVec 10} (h : Instr.lrunOk c v = true) :
    decodePair c (2#2 ++ v.extractLsb' 4 6) (15#4 ++ v.extractLsb' 0 4) = .lrun v := by
  rw [decodePair_lrun ((notMarker_iff _ _ _).1 h) BitVec.extractLsb'_append_eq_left,
    BitVec.extractLsb'_append_eq_right, BitVec.extractLsb'_append_eq_right,
    BitVec.extractLsb'_append_extractLsb' (w := 6) (len := 4)]

theorem decodePair_of_lidxOk {c : Config} {s : BitVec 10} (h : Instr.lidxOk c s = true) :
    decodePair c (2#2 ++ s.extractLsb' 4 6) (s.extractLsb' 0 4 ++ 15#4) = .lidx s := by
  simp only [Instr.lidxOk, Bool.and_eq_true, bne_iff_ne, notMarker_iff] at h
  obtain ⟨hl, hm⟩ := h
  rw [decodePair_lidx hm (by rwa [BitVec.extractLsb'_append_eq_left]) BitVec.extractLsb'_append_eq_right,
    BitVec.extractLsb'_append_eq_right, BitVec.extractLsb'_append_eq_left,
    BitVec.extractLsb'_append_extractLsb' (w := 6) (len := 4)]

/-- A leading byte `10xxxxxx` belongs to the two-byte group. -/
theorem decode_group (c : Config) (x : BitVec 6) (b2 : Byte) (rest : List Byte) :
    decode c ((2#2 ++ x) :: b2 :: rest) = .ok (decodePair c (2#2 ++ x) b2, rest) := by
  have := x.isLt
  have hx : (2#2 ++ x : Byte).toNat = 128 + x.toNat := top_append_toNat 2#2 x
  exact decode_pair c _ b2 rest (by omega) (by omega)

/-- Every pair of the group is the encoding of the opcode that its first matching line names, and that opcode is well formed. -/
theorem encode_decodePair (c : Config) {b1 : Byte} (b2 : Byte) (h : b1.toNat / 64 = 2) :
    (decodePair c b1 b2).wf c = true ∧ encode c (decodePair c b1 b2) = [b1, b2] := by
  have htop : b1.extractLsb' 6 2 = 2#2 := top_field_eq h
  have hb1 := top_append_low htop
  have hb2 := nibbles_append b2
  by_cases hm : b1 = c.marker1 ∧ b2 = c.marker2
  · rw [decodePair_maxrun hm]
    obtain ⟨rfl, rfl⟩ := hm
    exact ⟨beq_iff_eq.2 htop, rfl⟩
  have hnot := (notMarker_iff c b1 b2).2 hm
  by_cases hh : b2.extractLsb' 4 4 = 15#4
  · rw [decodePair_lrun hm hh]
    rw [hh] at hb2
    simp only [Instr.wf, Instr.lrunOk, encode, BitVec.extractLsb'_append_eq_left, BitVec.extractLsb'_append_eq_right, hb1, hb2,
      hnot, and_self]
  by_cases hl : b2.extractLsb' 0 4 = 15#4
  · rw [decodePair_lidx hm hh hl]
    rw [hl] at hb2
    simp only [Instr.wf, Instr.lidxOk, encode, BitVec.extractLsb'_append_eq_left, BitVec.extractLsb'_append_eq_right, hb1, hb2,
      hnot, bne_iff_ne.2 hh, Bool.and_self, and_self]
  · rw [decodePair_luma hm hh hl]
    simp only [Instr.wf, Instr.lumaOk, encode, hb1, hb2, hnot, bne_iff_ne.2 hh, bne_iff_ne.2 hl, Bool.and_self, and_self]

/-! ### Round trip -/

/-- Settles O1, opcode by opcode: its leading byte is in the class that reads it, and the fields come back out of the bytes. -/
theorem decodeOfEncodeIsInstr : Obligations.DecodeOfEncodeIsInstr := by
  unfold Obligations.DecodeOfEncodeIsInstr
  intro c i rest hwf
  cases i with
  | idx i =>
    have := i.isLt
    have hb : (0#2 ++ i : Byte).toNat = 0 * 64 + i.toNat := top_append_toNat 0#2 i
    have hd := decode_idx c (b := 0#2 ++ i) rest (by omega)
    rwa [BitVec.extractLsb'_append_eq_right] at hd
  | diff dr dg db =>
    obtain ⟨hlo, hhi⟩ := diff_byte_range dr dg db
    have hd := decode_diff c rest hlo hhi ((diffOk_iff dr dg db c).1 hwf)
    rwa [diff_byte_red, diff_byte_green, diff_byte_blue] at hd
  | rep1 => exact decode_repeatOnce c rest
  | luma dg drg dbg => exact (decode_group c _ _ rest).trans (by rw [decodePair_of_lumaOk hwf])
  | lrun v => exact (decode_group c _ _ rest).trans (by rw [decodePair_of_lrunOk hwf])
  | maxrun =>
    have hb : 2#2 ++ c.marker1.extractLsb' 0 6 = c.marker1 := top_append_low (beq_iff_eq.1 hwf)
    have hd := decode_group c (c.marker1.extractLsb' 0 6) c.marker2 rest
    rwa [hb, decodePair_maxrun ⟨rfl, rfl⟩] at hd
  | lidx s => exact (decode_group c _ _ rest).trans (by rw [decodePair_of_lidxOk hwf])
  | run n =>
    have hn : n.toNat ≤ 0x3D := BitVec.le_def.1 (of_decide_eq_true hwf)
    have hb : (3#2 ++ n : Byte).toNat = 3 * 64 + n.toNat := top_append_toNat 3#2 n
    have hd := decode_run c (b := 3#2 ++ n) rest (by omega) (by omega)
    rwa [BitVec.extractLsb'_append_eq_right] at hd
  | rgb r g b => exact decode_rgb c rest r g b
  | rgba r g b a => exact decode_rgba c rest r g b a

/-- Bytes that hold the length their leading byte fixes begin with a well-formed opcode's encoding (30_encoding.md R84, R85). -/
theorem exists_encode_of_opLen_le (c : Config) {bs : List Byte} (hne : bs ≠ []) (hlen : opLen (bs.headD 0) ≤ bs.length) :
    ∃ i rest, i.wf c = true ∧ encode c i ++ rest = bs := by
  obtain ⟨b, tail, rfl⟩ := List.exists_cons_of_ne_nil hne
  rcases leading_byte_cases c b with h | rfl | ⟨h, h', hr⟩ | ⟨h, h'⟩ | ⟨h, h'⟩ | rfl | rfl
  · have hb : 0#2 ++ b.extractLsb' 0 6 = b := top_append_low (top_field_eq (Nat.div_eq_of_lt (Nat.lt_succ_of_le h)))
    exact ⟨.idx _, tail, rfl, congrArg (· :: tail) hb⟩
  · exact ⟨.rep1, tail, rfl, rfl⟩
  · have hb : 1#2 ++ b.extractLsb' 4 2 ++ b.extractLsb' 2 2 ++ b.extractLsb' 0 2 = b :=
      top_append_fields (top_field_eq (show b.toNat / 64 = 1 by omega))
    exact ⟨.diff _ _ _, tail, (diffOk_iff _ _ _ c).2 (by rwa [hb]), congrArg (· :: tail) hb⟩
  · rw [List.headD_cons, Laws.LeadingByte.two_of_range h (Nat.lt_succ_of_le h')] at hlen
    match tail, hlen with
    | b2 :: tail, _ =>
      obtain ⟨hwf, henc⟩ := encode_decodePair c b2 (show b.toNat / 64 = 2 by omega)
      exact ⟨_, tail, hwf, congrArg (· ++ tail) henc⟩
  · have hb : 3#2 ++ b.extractLsb' 0 6 = b := top_append_low (top_field_eq (show b.toNat / 64 = 3 by omega))
    have hn : (b.extractLsb' 0 6).toNat ≤ 0x3D := by rw [toNat_extract_eq]; omega
    exact ⟨.run _, tail, decide_eq_true (BitVec.le_def.2 hn), congrArg (· :: tail) hb⟩
  · match tail, hlen with
    | r :: g :: b :: tail, _ => exact ⟨.rgb r g b, tail, rfl, rfl⟩
  · match tail, hlen with
    | r :: g :: b :: a :: tail, _ => exact ⟨.rgba r g b a, tail, rfl, rfl⟩

/-- What decodes holds the bytes its leading byte fixes. -/
theorem opLen_le_of_decode {c : Config} {bs rest : List Byte} {i : Instr} (h : decode c bs = .ok (i, rest)) :
    bs ≠ [] ∧ opLen (bs.headD 0) ≤ bs.length := by
  obtain ⟨hlength, hlen, _⟩ := decode_ok h
  refine ⟨?_, by omega⟩
  rintro rfl
  cases h

/-- Settles O2: the bytes begin with the encoding of some well-formed opcode, and by O1 that is the opcode they decode to. -/
theorem encodeOfDecodeIsBytes : Obligations.EncodeOfDecodeIsBytes := by
  unfold Obligations.EncodeOfDecodeIsBytes
  intro c bs rest i h
  obtain ⟨hne, hlen⟩ := opLen_le_of_decode h
  obtain ⟨i', rest', hwf, rfl⟩ := exists_encode_of_opLen_le c hne hlen
  obtain ⟨rfl, rfl⟩ : i' = i ∧ rest' = rest := by simpa [decodeOfEncodeIsInstr c i' rest' hwf] using h
  exact ⟨hwf, rfl⟩

/-- Settles O3: bytes that are long enough begin with an encoding, which O1 decodes. -/
theorem onlyEndOfBytesFailsDecode : Obligations.OnlyEndOfBytesFailsDecode := by
  unfold Obligations.OnlyEndOfBytesFailsDecode
  intro c bs
  constructor
  · rintro ⟨i, rest, h⟩
    exact opLen_le_of_decode h
  · rintro ⟨hne, hlen⟩
    obtain ⟨i, rest, hwf, rfl⟩ := exists_encode_of_opLen_le c hne hlen
    exact ⟨i, rest, decodeOfEncodeIsInstr c i rest hwf⟩

/-- Settles O4, by `decode_ok`. -/
theorem leadingByteFixesLength : Obligations.LeadingByteFixesLength := by
  unfold Obligations.LeadingByteFixesLength
  refine ⟨Laws.LeadingByte.opLen_eq, fun c b rest rest' i h => ?_⟩
  obtain ⟨hlength, hlen, _⟩ := decode_ok h
  rw [List.headD_cons] at hlen
  rw [List.length_cons] at hlength
  exact ⟨hlen, by omega⟩

/-! ### Operands -/

/-- Settles O5: the fields of `decode_idx`, `decode_repeatOnce`, `decode_diff` and `decode_run` as numbers. -/
theorem oneByteFormsAssembleOperands : Obligations.OneByteFormsAssembleOperands := by
  unfold Obligations.OneByteFormsAssembleOperands
  intro c b rest
  refine ⟨fun h => ?_, fun h => ?_, fun h h' hr => ?_, fun h h' => ?_⟩
  · rw [decode_idx c rest h, low_field_eq_ofNat]
  · rw [(eq_repeatOnce_iff c b).2 h, decode_repeatOnce]
  · rw [decode_diff c rest h h' (mt (eq_repeatOnce_iff c b).1 hr), extract_eq_ofNat b 4, extract_eq_ofNat b 2,
      low_field_eq_ofNat]
    rfl
  · rw [decode_run c rest h h', low_field_eq_ofNat]

/-- Settles O6: the four lines of `decodePair`, with their conditions and fields as numbers. -/
theorem twoByteGroupFirstLineDecides : Obligations.TwoByteGroupFirstLineDecides := by
  unfold Obligations.TwoByteGroupFirstLineDecides
  intro c b1 b2 rest h h'
  have hhigh : (b2.extractLsb' 4 4).toNat = b2.toNat / 16 := by
    have := b2.isLt
    rw [toNat_extract_eq]; omega
  have hlow : (b2.extractLsb' 0 4).toNat = b2.toNat % 16 := by
    rw [toNat_extract_eq, Nat.pow_zero, Nat.div_one]; rfl
  have hb1 : (b1.extractLsb' 0 6).toNat = b1.toNat % 64 := by
    rw [toNat_extract_eq, Nat.pow_zero, Nat.div_one]; rfl
  simp only [decode_pair c b1 b2 rest h h', ne_eq, ← high_nibble_iff, ← low_nibble_iff]
  refine ⟨fun hm => ?_, fun hm hh => ?_, fun hm hh hl => ?_, fun hm hh hl => ?_⟩
  · rw [decodePair_maxrun hm]
  · rw [decodePair_lrun hm hh, append_eq_ofNat_ten, hb1, hlow]
  · rw [decodePair_lidx hm hh hl, append_eq_ofNat_ten, hb1, hhigh]
  · rw [decodePair_luma hm hh hl, low_field_eq_ofNat, extract_eq_ofNat b2 4, low_field_eq_ofNat]
    rfl

/-- Settles O7, word by word. -/
theorem specExampleWordsDecode : Obligations.SpecExampleWordsDecode := by
  unfold Obligations.SpecExampleWordsDecode
  decide

end Sys2Proof
end

section
/-! PROOFS. Pixel arithmetic (O8 to O12, O17): the slots, the channel deltas, and which form `DeltaEncode` takes. -/

namespace Sys2Proof.Machine

open Sys2Proof

/-! ### Slots and output pixels -/

theorem primarySlot_toNat (p : Pixel) : (primarySlot p).toNat = pixelHash p % 64 := BitVec.toNat_ofNat _ _

theorem secondarySlot_toNat (p : Pixel) : (secondarySlot p).toNat = pixelHash p % 1024 := BitVec.toNat_ofNat _ _

/-- Settles O8: the slots are the hash cut to their widths, and `pixelHash_le` bounds it. -/
theorem slotsAreMaskedHash : Obligations.SlotsAreMaskedHash := by
  unfold Obligations.SlotsAreMaskedHash
  intro p
  exact ⟨rfl, pixelHash_le p, primarySlot_toNat p, secondarySlot_toNat p, lowSlot_secondarySlot p⟩

/-- Settles O17, by the definition of `OutPixel`. -/
theorem outPixelAdaptsChannels : Obligations.OutPixelAdaptsChannels := by
  unfold Obligations.OutPixelAdaptsChannels
  intro p
  exact ⟨rfl, rfl, rfl, rfl⟩

/-! ### Channel deltas -/

theorem delta_range (x y : Byte) : -128 ≤ delta x y ∧ delta x y ≤ 127 := by
  unfold delta
  rw [s8_eq]; omega

/-- `s8` is the one number in [-128, 127] that is the given one mod 256. -/
theorem s8_unique {v d : Int} (hlo : -128 ≤ d) (hhi : d ≤ 127) (h : (d - v) % 256 = 0) : s8 v = d := by
  rw [s8_eq]; omega

/-- A number in [-128, 127] that leads from one channel to the other is their delta (40_pixel_cache.md R102). -/
theorem delta_unique {x y : Byte} {d : Int} (hlo : -128 ≤ d) (hhi : d ≤ 127) (h : (x.toNat + d) % 256 = y.toNat) :
    delta x y = d :=
  s8_unique hlo hhi (by omega)

theorem delta_add8 (x : Byte) {d : Int} (hlo : -128 ≤ d) (hhi : d ≤ 127) : delta x (add8 x d) = d :=
  delta_unique hlo hhi (add8_toNat x d).symm

/-- The relative delta of a channel that moved by `dg + d` where green moved by `dg`. -/
theorem relative_delta_add8 (x : Byte) (dg : Int) {d : Int} (hlo : -128 ≤ d) (hhi : d ≤ 127) :
    s8 (delta x (add8 x (dg + d)) - dg) = d := by
  have hx := x.isLt
  have hsum := add8_toNat x (dg + d)
  refine s8_unique hlo hhi ?_
  unfold delta
  rw [s8_eq]; omega

/-- Settles O9: the delta is the wrapped difference, and within the luma range wrapping changes nothing that falls in [-4, 3]. -/
theorem deltaAppliedGivesChannel : Obligations.DeltaAppliedGivesChannel := by
  unfold Obligations.DeltaAppliedGivesChannel
  refine ⟨fun x y => ⟨(delta_range x y).1, (delta_range x y).2, add8_wrapped x y⟩, fun dr dg h1 h2 h3 h4 => ?_⟩
  rw [s8_eq]; omega

/-! ### The forms of `DeltaEncode` -/

/-- The condition of `DeltaEncode` for a small delta (40_pixel_cache.md R103). -/
def fitsDiff (c : Config) (prev cur : Pixel) : Bool :=
  inRange 2 c.diffBias (delta prev.r cur.r) && inRange 2 c.diffBias (delta prev.g cur.g) &&
    inRange 2 c.diffBias (delta prev.b cur.b)

/-- The condition of `DeltaEncode` for a luma delta (40_pixel_cache.md R103). -/
def fitsLuma (c : Config) (prev cur : Pixel) : Bool :=
  inRange 6 c.lumaGBias (delta prev.g cur.g) &&
    inRange 3 c.lumaRbBias (s8 (delta prev.r cur.r - delta prev.g cur.g)) &&
    inRange 3 c.lumaRbBias (s8 (delta prev.b cur.b - delta prev.g cur.g))

section
variable {c : Config} {prev cur : Pixel}

theorem deltaEncode_diff (ha : cur.a = prev.a) (h : fitsDiff c prev cur = true) :
    deltaEncode c prev cur = .diff (biased 2 c.diffBias (delta prev.r cur.r)) (biased 2 c.diffBias (delta prev.g cur.g))
      (biased 2 c.diffBias (delta prev.b cur.b)) :=
  (if_pos ha).trans (if_pos h)

theorem deltaEncode_luma (ha : cur.a = prev.a) (h : ¬ fitsDiff c prev cur = true) (hl : fitsLuma c prev cur = true) :
    deltaEncode c prev cur = .luma (biased 6 c.lumaGBias (delta prev.g cur.g))
      (biased 4 c.lumaRbBias (s8 (delta prev.r cur.r - delta prev.g cur.g)))
      (biased 4 c.lumaRbBias (s8 (delta prev.b cur.b - delta prev.g cur.g))) :=
  (if_pos ha).trans ((if_neg h).trans (if_pos hl))

theorem deltaEncode_rgb (ha : cur.a = prev.a) (h : ¬ fitsDiff c prev cur = true) (hl : ¬ fitsLuma c prev cur = true) :
    deltaEncode c prev cur = .rgb cur.r cur.g cur.b :=
  (if_pos ha).trans ((if_neg h).trans (if_neg hl))

theorem deltaEncode_rgba (ha : cur.a ≠ prev.a) : deltaEncode c prev cur = .rgba cur.r cur.g cur.b cur.a :=
  if_neg ha

end

theorem fitsDiff_default (prev cur : Pixel) : fitsDiff Config.default prev cur = true ↔
    (-2 ≤ delta prev.r cur.r ∧ delta prev.r cur.r ≤ 1) ∧ (-2 ≤ delta prev.g cur.g ∧ delta prev.g cur.g ≤ 1) ∧
      (-2 ≤ delta prev.b cur.b ∧ delta prev.b cur.b ≤ 1) := by
  have hbias : (Config.default.diffBias.toNat : Int) = 2 := rfl
  simp only [fitsDiff, Bool.and_eq_true, inRange_iff, hbias]
  omega

theorem fitsLuma_default (prev cur : Pixel) : fitsLuma Config.default prev cur = true ↔
    (-32 ≤ delta prev.g cur.g ∧ delta prev.g cur.g ≤ 31) ∧
      (-4 ≤ s8 (delta prev.r cur.r - delta prev.g cur.g) ∧ s8 (delta prev.r cur.r - delta prev.g cur.g) ≤ 3) ∧
      (-4 ≤ s8 (delta prev.b cur.b - delta prev.g cur.g) ∧ s8 (delta prev.b cur.b - delta prev.g cur.g) ≤ 3) := by
  have hg : (Config.default.lumaGBias.toNat : Int) = 32 := rfl
  have hrb : (Config.default.lumaRbBias.toNat : Int) = 4 := rfl
  simp only [fitsLuma, Bool.and_eq_true, inRange_iff, hg, hrb]
  omega

/-- The byte of a small delta at the default bias (30_encoding.md R73). -/
theorem diff_byte_default {dr dg db : Int} (hr : -2 ≤ dr ∧ dr ≤ 1) (hg : -2 ≤ dg ∧ dg ≤ 1) (hb : -2 ≤ db ∧ db ≤ 1) :
    (1#2 ++ biased 2 (2#2) dr ++ biased 2 (2#2) dg ++ biased 2 (2#2) db : Byte) =
      BitVec.ofInt 8 (0x40 + (dr + 2) * 16 + (dg + 2) * 4 + (db + 2)) := by
  have er := biased_toNat 2 (2#2) dr (by simp; omega) (by simp; omega)
  have eg := biased_toNat 2 (2#2) dg (by simp; omega) (by simp; omega)
  have eb := biased_toNat 2 (2#2) db (by simp; omega) (by simp; omega)
  apply BitVec.eq_of_toNat_eq
  simp only [toNat_append_eq, BitVec.toNat_ofInt, BitVec.toNat_ofNat] at er eg eb ⊢
  omega

/-- The bytes of a luma delta at the default biases (30_encoding.md R77). -/
theorem luma_bytes_default {dg drg dbg : Int} (hg : -32 ≤ dg ∧ dg ≤ 31) (hr : -4 ≤ drg ∧ drg ≤ 3) (hb : -4 ≤ dbg ∧ dbg ≤ 3) :
    (2#2 ++ biased 6 (32#6) dg : Byte) = BitVec.ofInt 8 (0x80 + (dg + 32)) ∧
    (biased 4 (4#3) drg ++ biased 4 (4#3) dbg : Byte) = BitVec.ofInt 8 ((drg + 4) * 16 + (dbg + 4)) := by
  have eg := biased_toNat 6 (32#6) dg (by simp; omega) (by simp; omega)
  have er := biased_toNat 4 (4#3) drg (by simp; omega) (by simp; omega)
  have eb := biased_toNat 4 (4#3) dbg (by simp; omega) (by simp; omega)
  refine ⟨BitVec.eq_of_toNat_eq ?_, BitVec.eq_of_toNat_eq ?_⟩
  all_goals
    simp only [toNat_append_eq, BitVec.toNat_ofInt, BitVec.toNat_ofNat] at eg er eb ⊢
    omega

/-- Settles O10: the given deltas are the model's by uniqueness, and each range condition selects one branch of `DeltaEncode`. -/
theorem deltaEncodeBytesByRanges : Obligations.DeltaEncodeBytesByRanges := by
  unfold Obligations.DeltaEncodeBytesByRanges
  rintro prev cur dr dg db drg dbg bytes small luma _ ⟨r1, r2, r3⟩ ⟨g1, g2, g3⟩ ⟨b1, b2, b3⟩ ⟨rg1, rg2, rg3⟩ ⟨bg1, bg2, bg3⟩
    hsmall hluma rfl
  obtain rfl := delta_unique r1 r2 r3
  obtain rfl := delta_unique g1 g2 g3
  obtain rfl := delta_unique b1 b2 b3
  obtain rfl := s8_unique rg1 rg2 rg3
  obtain rfl := s8_unique bg1 bg2 bg3
  have hdiff : small ↔ cur.a = prev.a ∧ fitsDiff Config.default prev cur = true := by
    rw [hsmall, fitsDiff_default]; simp only [and_assoc]
  have hfits : luma ↔ cur.a = prev.a ∧ fitsLuma Config.default prev cur = true := by
    rw [hluma, fitsLuma_default]; simp only [and_assoc]
  rw [hdiff, hfits]
  refine ⟨fun ⟨ha, h⟩ => ?_, fun hs ⟨ha, h⟩ => ?_, fun hs hl ha => ?_, fun ha => ?_⟩
  · rw [deltaEncode_diff ha h]
    obtain ⟨hr, hg, hb⟩ := (fitsDiff_default prev cur).1 h
    exact congrArg (fun b => [b]) (diff_byte_default hr hg hb)
  · rw [deltaEncode_luma ha (fun hd => hs ⟨ha, hd⟩) h]
    obtain ⟨hg, hr, hb⟩ := (fitsLuma_default prev cur).1 h
    obtain ⟨e1, e2⟩ := luma_bytes_default hg hr hb
    exact congrArg₂ (fun b b' => [b, b']) e1 e2
  · rw [deltaEncode_rgb ha (fun hd => hs ⟨ha, hd⟩) fun h => hl ⟨ha, h⟩]
    rfl
  · rw [deltaEncode_rgba ha]
    rfl

/-! ### The smallest form -/

/-- Whatever the bias, a small delta that gives the pixel is found (40_pixel_cache.md R103). -/
theorem fitsDiff_updateDiff (c : Config) (prev : Pixel) (dr dg db : BitVec 2) :
    fitsDiff c prev (updateDiff c prev dr dg db) = true := by
  have hbias := c.diffBias.isLt
  have key : ∀ (x : Byte) (d : BitVec 2), inRange 2 c.diffBias (delta x (add8 x (unbias d c.diffBias))) = true := by
    intro x d
    have hd := d.isLt
    rw [delta_add8 x (by unfold unbias; omega) (by unfold unbias; omega), inRange_iff]
    unfold unbias; omega
  simp only [fitsDiff, updateDiff, key, Bool.and_self]

/-- Whatever the biases, a luma delta with nibbles 0..7 that gives the pixel is found (40_pixel_cache.md R103). -/
theorem fitsLuma_updateLuma (c : Config) (prev : Pixel) (dg : BitVec 6) {drg dbg : BitVec 4} (hr : drg.toNat < 8)
    (hb : dbg.toNat < 8) : fitsLuma c prev (updateLuma c prev dg drg dbg) = true := by
  have hgbias := c.lumaGBias.isLt
  have hbias := c.lumaRbBias.isLt
  have hdg := dg.isLt
  have hgreen : delta prev.g (add8 prev.g (unbias dg c.lumaGBias)) = unbias dg c.lumaGBias :=
    delta_add8 _ (by unfold unbias; omega) (by unfold unbias; omega)
  have key : ∀ (x : Byte) (d : BitVec 4), d.toNat < 8 → inRange 3 c.lumaRbBias
      (s8 (delta x (add8 x (unbias dg c.lumaGBias + unbias d c.lumaRbBias)) - unbias dg c.lumaGBias)) = true := by
    intro x d hd
    rw [relative_delta_add8 x _ (by unfold unbias; omega) (by unfold unbias; omega), inRange_iff]
    unfold unbias; omega
  have hgrange : inRange 6 c.lumaGBias (unbias dg c.lumaGBias) = true := by
    rw [inRange_iff]; unfold unbias; omega
  simp only [fitsLuma, updateLuma, hgreen, hgrange, key _ _ hr, key _ _ hb, Bool.and_self]

/-- Settles O11: a form that gives the pixel meets the form's condition, and `DeltaEncode` takes the first condition met. -/
theorem deltaEncodeTakesSmallestForm : Obligations.DeltaEncodeTakesSmallestForm := by
  unfold Obligations.DeltaEncodeTakesSmallestForm
  intro c prev cur _
  refine ⟨?_, ?_, (deltaEncode_len_le c prev cur).2, deltaEncode_rgba⟩
  · intro dr dg db h
    have ha : cur.a = prev.a := by rw [← h]; rfl
    have hfits : fitsDiff c prev cur = true := h ▸ fitsDiff_updateDiff c prev dr dg db
    rw [deltaEncode_diff ha hfits, Instr.len]
  · intro dg drg dbg hr hb h
    have ha : cur.a = prev.a := by rw [← h]; rfl
    have hfits : fitsLuma c prev cur = true := h ▸ fitsLuma_updateLuma c prev dg hr hb
    by_cases hd : fitsDiff c prev cur = true
    · rw [deltaEncode_diff ha hd]
      exact Nat.le_succ 1
    · rw [deltaEncode_luma ha hd hfits, Instr.len]

/-! ### No collisions -/

theorem ne_fifteen_of_lt {x : BitVec 4} (h : x.toNat < 8) : x ≠ 15#4 := by
  rintro rfl
  exact absurd h (by decide)

/-- The marker of a sound configuration is no luma delta with nibbles 0..7 (92_eei_decisions.md D9). -/
theorem notMarker_luma {c : Config} (hc : c.wf = true) (b1 : Byte) {drg dbg : BitVec 4} (hr : drg.toNat < 8)
    (hb : dbg.toNat < 8) : Instr.notMarker c b1 (drg ++ dbg) = true := by
  rw [notMarker_iff]
  rintro ⟨-, hm⟩
  simp only [Config.wf, ← hm, BitVec.extractLsb'_append_eq_left, BitVec.extractLsb'_append_eq_right, beq_iff_eq,
    if_neg (ne_fifteen_of_lt hr), Bool.and_eq_true, Bool.or_eq_true, decide_eq_true_eq, BitVec.lt_def,
    BitVec.toNat_ofNat] at hc
  obtain ⟨-, -, hhigh⟩ := hc
  omega

theorem deltaEncode_wf {c : Config} (hc : c.wf = true) {prev cur : Pixel} (hne : cur ≠ prev) :
    (deltaEncode c prev cur).wf c = true := by
  rcases deltaEncode_cases c prev cur hne with ⟨dr, dg, db, h, _, hok⟩ | ⟨dg, drg, dbg, h, _, hr, hb⟩ | ⟨h, _⟩ | ⟨h, _⟩ <;>
    rw [h]
  · exact hok
  · simp only [Instr.wf, Instr.lumaOk, notMarker_luma hc _ hr hb, bne_iff_ne.2 (ne_fifteen_of_lt hr),
      bne_iff_ne.2 (ne_fifteen_of_lt hb), Bool.and_self]
  · rfl
  · rfl

/-- The REPEAT_ONCE byte is the encoding of no well-formed opcode but REP1 (30_encoding.md R74). -/
theorem eq_rep1_of_encode {c : Config} {i : Instr} (hwf : i.wf c = true) (h : encode c i = [c.repeatOnce]) : i = .rep1 := by
  have hd := decodeOfEncodeIsInstr c i [] hwf
  rw [h, List.append_nil, decode_repeatOnce] at hd
  cases hd; rfl

/-- Settles O12, by the forms of `deltaEncode_cases`. -/
theorem deltaEncodeNeverCollides : Obligations.DeltaEncodeNeverCollides := by
  unfold Obligations.DeltaEncodeNeverCollides
  intro c prev cur hc hne
  have hwf := deltaEncode_wf hc hne
  refine ⟨hwf, fun h => ?_, ?_⟩
  · have hrep := eq_rep1_of_encode hwf h
    rcases deltaEncode_cases c prev cur hne with ⟨_, _, _, e, _⟩ | ⟨_, _, _, e, _⟩ | ⟨e, _⟩ | ⟨e, _⟩ <;>
      rw [e] at hrep <;> cases hrep
  · rcases deltaEncode_cases c prev cur hne with ⟨dr, dg, db, e, _⟩ | ⟨dg, drg, dbg, e, _, hr, hb⟩ | ⟨e, _⟩ | ⟨e, _⟩ <;>
      rw [e]
    · exact ⟨by rintro _ _ _ ⟨⟩, 0, 0, 0, 0, dr, dg, db, 0, 0, 0, .inl rfl⟩
    · exact ⟨by rintro _ _ _ ⟨⟩; exact ⟨hr, hb⟩, 0, 0, 0, 0, 0, 0, 0, dg, drg, dbg, .inr (.inl rfl)⟩
    · exact ⟨by rintro _ _ _ ⟨⟩, _, _, _, 0, 0, 0, 0, 0, 0, 0, .inr (.inr (.inl rfl))⟩
    · exact ⟨by rintro _ _ _ ⟨⟩, _, _, _, _, 0, 0, 0, 0, 0, 0, .inr (.inr (.inr rfl))⟩

end Sys2Proof.Machine
end

section
/-! PROOFS. The cache (O14 to O16): what each slot holds after an insertion and a promotion, and that entries stay at their own
slots. -/

namespace Sys2Proof.Machine

open Sys2Proof

theorem lowSlot_toNat (s : BitVec 10) : (lowSlot s).toNat = s.toNat % 64 := by
  rw [lowSlot, toNat_extract_eq, Nat.pow_zero, Nat.div_one]; rfl

section
variable (c : Cache) (p : Pixel) (k : BitVec 6)

/-- Insertion changes one primary slot (40_pixel_cache.md R110). -/
theorem Cache.primaryAt_insertEvict (j : BitVec 6) :
    (c.insertEvict p k).primaryAt j = if j = k then p else c.primaryAt j := by
  rw [Cache.insertEvict, Cache.primaryAt_setSecondary, Cache.primaryAt_setPrimary]

@[simp] theorem Cache.primaryAt_insertEvict_self : (c.insertEvict p k).primaryAt k = p := by
  rw [Cache.primaryAt_insertEvict, if_pos rfl]

/-- Insertion changes one secondary slot, that of the displaced pixel (40_pixel_cache.md R110). -/
theorem Cache.secondaryAt_insertEvict (j : BitVec 10) : (c.insertEvict p k).secondaryAt j =
    if j = secondarySlot (c.primaryAt k) then c.primaryAt k else c.secondaryAt j := by
  rw [Cache.insertEvict, Cache.secondaryAt_setSecondary, Cache.secondaryAt_setPrimary]

end

/-- Settles O14, by the two lookups after an insertion. -/
theorem insertEvictMovesOccupant : Obligations.InsertEvictMovesOccupant := by
  unfold Obligations.InsertEvictMovesOccupant
  intro c p k
  refine ⟨c.primaryAt_insertEvict_self p k, fun j hj => ?_, ?_, fun j hj => ?_⟩
  · rw [Cache.primaryAt_insertEvict, if_neg hj]
  · rw [Cache.secondaryAt_insertEvict, if_pos rfl]
  · rw [Cache.secondaryAt_insertEvict, if_neg hj]

/-- Settles O15: promotion is the insertion of the secondary pixel at the slot's low bits. -/
theorem promotionInsertsSecondary : Obligations.PromotionInsertsSecondary := by
  unfold Obligations.PromotionInsertsSecondary
  intro c s k hk
  obtain rfl : k = lowSlot s := BitVec.eq_of_toNat_eq (hk.trans (lowSlot_toNat s).symm)
  obtain ⟨hself, hprimary, hmoved, hsecondary⟩ := insertEvictMovesOccupant c (c.secondaryAt s) (lowSlot s)
  exact ⟨hself, hprimary, hmoved, hsecondary, fun hne => hsecondary s hne.symm⟩

/-- An insertion keeps the cache placed where the pixel is the zero pixel or belongs into the slot (40_pixel_cache.md R110). -/
theorem Cache.placed_insertEvict {c : Cache} (hc : c.placed) {p : Pixel} {k : BitVec 6}
    (hp : p = Pixel.zero ∨ primarySlot p = k) : (c.insertEvict p k).placed := by
  obtain ⟨hprimary, hsecondary⟩ := hc
  refine ⟨fun j => ?_, fun j => ?_⟩
  · rw [Cache.primaryAt_insertEvict]
    split
    · rename_i hj; rwa [hj]
    · exact hprimary j
  · rw [Cache.secondaryAt_insertEvict]
    split
    · rename_i hj; exact .inr hj.symm
    · exact hsecondary j

/-- Settles O16: what a promotion inserts is the zero pixel, or its secondary slot's low bits are its primary slot. -/
theorem insertionKeepsCachePlaced : Obligations.InsertionKeepsCachePlaced := by
  unfold Obligations.InsertionKeepsCachePlaced
  refine ⟨⟨fun k => .inl (Cache.primaryAt_fresh k), fun k => .inl (Cache.secondaryAt_fresh k)⟩,
    fun c p hc => Cache.placed_insertEvict hc (.inr rfl), fun c s hc => Cache.placed_insertEvict hc ?_⟩
  rcases hc.2 s with hzero | hslot
  · exact .inl hzero
  · exact .inr (by rw [← lowSlot_secondarySlot, hslot])

end Sys2Proof.Machine
end

section
/-! PROOFS. The opcodes as one function: the pixel and the cache each opcode leaves, and what it writes. On this rest what the opcode
of a changed pixel does to a decoder (O13, O38) and that a changed pixel is resident (O37). -/

namespace Sys2Proof.Machine

open Sys2Proof

/-! ### The pixel and the cache an opcode leaves -/

/-- `PX` after an opcode (42_decoder.md R162 to R171). -/
def opPixel (c : Config) (px : Pixel) (cache : Cache) : Instr → Pixel
  | .idx k => cache.primaryAt k
  | .diff dr dg db => updateDiff c px dr dg db
  | .rep1 => px
  | .luma dg drg dbg => updateLuma c px dg drg dbg
  | .lrun _ => px
  | .maxrun => px
  | .lidx k => cache.secondaryAt k
  | .run _ => px
  | .rgb r g b => updateRgb px r g b
  | .rgba r g b a => updateRgba px r g b a

/-- The cache after an opcode that leaves `p` in `PX` (42_decoder.md R162 to R171). -/
def opCache (cache : Cache) (p : Pixel) : Instr → Cache
  | .idx _ => cache
  | .diff _ _ _ => cache.insertEvict p (primarySlot p)
  | .rep1 => cache
  | .luma _ _ _ => cache.insertEvict p (primarySlot p)
  | .lrun _ => cache
  | .maxrun => cache
  | .lidx k => cache.promote k
  | .run _ => cache
  | .rgb _ _ _ => cache.insertEvict p (primarySlot p)
  | .rgba _ _ _ _ => cache.insertEvict p (primarySlot p)

/-- The registers after an opcode, before its pixels are written. -/
def State.afterOp (s : State) (i : Instr) : State :=
  ((s.setPx (opPixel s.cfg s.px s.cache i)).setCache (opCache s.cache (opPixel s.cfg s.px s.cache i) i)).advance i.len

theorem exec_eq (i : Instr) (s : State) : exec i s = writePixels s (s.afterOp i) (pixelCount i) := by
  cases i <;> rfl

/-- The state after an opcode whose pixels the sink takes. -/
def State.opDone (s : State) (i : Instr) : State :=
  ((s.afterOp i).setOut (Memory.writeBytes s.out (pixelAddr s)
    (pixelBytes s.job (opPixel s.cfg s.px s.cache i) (clampRun s (pixelCount i))))).countOut (clampRun s (pixelCount i))

section
variable (s : State) (i : Instr)

@[simp] theorem State.opDone_px : (s.opDone i).px = opPixel s.cfg s.px s.cache i := rfl
@[simp] theorem State.opDone_cache : (s.opDone i).cache = opCache s.cache (opPixel s.cfg s.px s.cache i) i := rfl
@[simp] theorem State.opDone_pc : (s.opDone i).pc = s.pc + i.len := rfl
@[simp] theorem State.opDone_op : (s.opDone i).op = s.op + clampRun s (pixelCount i) := rfl
@[simp] theorem State.opDone_job : (s.opDone i).job = s.job := rfl
@[simp] theorem State.opDone_status : (s.opDone i).status = s.status := rfl
@[simp] theorem State.opDone_cfg : (s.opDone i).cfg = s.cfg := rfl
@[simp] theorem State.opDone_tailDone : (s.opDone i).tailDone = s.tailDone := rfl
@[simp] theorem State.opDone_out : (s.opDone i).out = Memory.writeBytes s.out (pixelAddr s)
    (pixelBytes s.job (opPixel s.cfg s.px s.cache i) (clampRun s (pixelCount i))) := rfl

end

/-- An opcode completes where the sink takes its pixels (42_decoder.md R172). -/
theorem exec_next {i : Instr} {s : State} (hlegal : s.job.legalOut) (htakes : s.takesPixels (pixelCount i)) :
    exec i s = .next (s.opDone i) := by
  have hlen := pixelBytes_length_legal hlegal (opPixel s.cfg s.px s.cache i) (clampRun s (pixelCount i))
  have htakes' : s.job.sink.accepts (pixelAddr s) (clampRun s (pixelCount i) * s.job.outCh) =
      clampRun s (pixelCount i) * s.job.outCh := htakes
  rw [← hlen] at htakes'
  rw [exec_eq]
  exact writePixels_next htakes'

/-- Writing copies of a pixel from pixel `op` on (20_memory.md R54). -/
theorem pixelsWritten_writeBytes {j : Job} (h : j.legalOut) (m : Memory) (op n : Nat) (p : Pixel) :
    pixelsWritten j m (Memory.writeBytes m (op * j.outCh) (pixelBytes j p n)) op n p := by
  have hlen := pixelBytes_length_legal h p n
  refine ⟨fun i k hi hk => ?_, fun a ha => Memory.read_writeBytes_outside _ _ _ (by rwa [hlen, ← Nat.add_mul])⟩
  have hin : i * j.outCh + k < n * j.outCh :=
    calc i * j.outCh + k < (i + 1) * j.outCh := by rw [Nat.succ_mul]; omega
      _ ≤ n * j.outCh := Nat.mul_le_mul_right _ hi
  rw [Nat.add_mul, Nat.add_assoc, Memory.read_writeBytes_inside _ _ _ (by rwa [hlen]), pixelBytes_getElem h p hi hk]

theorem pixelsWritten_opDone {s : State} (hlegal : s.job.legalOut) (i : Instr) :
    pixelsWritten s.job s.out (s.opDone i).out s.op (clampRun s (pixelCount i)) (opPixel s.cfg s.px s.cache i) :=
  pixelsWritten_writeBytes hlegal s.out s.op _ _

/-! ### The opcode of a changed pixel -/

/-- `DeltaEncode`'s opcode gives the pixel (40_pixel_cache.md R109). -/
theorem opPixel_deltaEncode (c : Config) {px cur : Pixel} (cache : Cache) (hne : cur ≠ px) :
    opPixel c px cache (deltaEncode c px cur) = cur := by
  rcases deltaEncode_cases c px cur hne with ⟨dr, dg, db, h, hp, _⟩ | ⟨dg, drg, dbg, h, hp, _⟩ | ⟨h, ha⟩ | ⟨h, _⟩ <;> rw [h]
  · exact hp
  · exact hp
  · exact Pixel.ext rfl rfl rfl ha.symm
  · rfl

theorem opCache_deltaEncode (c : Config) {px cur : Pixel} (cache : Cache) (p : Pixel) (hne : cur ≠ px) :
    opCache cache p (deltaEncode c px cur) = cache.insertEvict p (primarySlot p) := by
  rcases deltaEncode_cases c px cur hne with ⟨dr, dg, db, h, _⟩ | ⟨dg, drg, dbg, h, _⟩ | ⟨h, _⟩ | ⟨h, _⟩ <;> rw [h] <;> rfl

theorem pixelCount_deltaEncode (c : Config) {px cur : Pixel} (hne : cur ≠ px) : pixelCount (deltaEncode c px cur) = 1 := by
  rcases deltaEncode_cases c px cur hne with ⟨dr, dg, db, h, _⟩ | ⟨dg, drg, dbg, h, _⟩ | ⟨h, _⟩ | ⟨h, _⟩ <;> rw [h] <;> rfl

/-- Settles O13: O1 reads the opcode back, and `exec_next` executes it. -/
theorem deltaEncodeInverse : Obligations.DeltaEncodeInverse := by
  unfold Obligations.DeltaEncodeInverse
  intro s cur rest hc hne hlegal htakes
  have hpx := opPixel_deltaEncode s.cfg s.cache hne
  have hcount := pixelCount_deltaEncode s.cfg hne
  refine ⟨decodeOfEncodeIsInstr s.cfg _ rest (deltaEncode_wf hc hne), _, exec_next hlegal (by rwa [hcount]), hpx, ?_, rfl,
    rfl, ?_⟩
  · rw [State.opDone_cache, opCache_deltaEncode s.cfg s.cache _ hne, hpx]
  · have hw := pixelsWritten_opDone hlegal (deltaEncode s.cfg s.px cur)
    rwa [hcount, hpx] at hw

/-! ### The encoder's choice -/

/-- The marker of a sound configuration is no long-index (92_eei_decisions.md D9). -/
theorem notMarker_lidx {c : Config} (hc : c.wf = true) (b1 : Byte) {x : BitVec 4} (hx : x ≠ 15#4) :
    Instr.notMarker c b1 (x ++ 15#4) = true := by
  rw [notMarker_iff]
  rintro ⟨-, hm⟩
  simp only [Config.wf, ← hm, BitVec.extractLsb'_append_eq_left, BitVec.extractLsb'_append_eq_right, beq_iff_eq, if_neg hx,
    bne_self_eq_false, Bool.false_and, Bool.and_false, Bool.false_eq_true] at hc

/-- What the encoder's opcode for a changed pixel can be, with what it found in the cache (41_encoder.md R132 to R134). -/
theorem changeOpcode_cases (c : Config) (px cur : Pixel) (cache : Cache) :
    (cache.primaryAt (primarySlot cur) = cur ∧ changeOpcode c px cur cache = .idx (primarySlot cur) ∧
      changeCache cur cache = cache) ∨
    (changeCache cur cache = cache.insertEvict cur (primarySlot cur) ∧
      ((changeOpcode c px cur cache = .lidx (secondarySlot cur) ∧ cache.secondaryAt (secondarySlot cur) = cur ∧
          (secondarySlot cur).extractLsb' 0 4 ≠ 15#4) ∨
        changeOpcode c px cur cache = deltaEncode c px cur)) := by
  unfold changeOpcode changeCache
  by_cases hhit : cache.primaryAt (primarySlot cur) = cur
  · rw [if_pos hhit, if_pos hhit]
    exact .inl ⟨hhit, rfl, rfl⟩
  · rw [if_neg hhit, if_neg hhit]
    refine .inr ⟨rfl, ?_⟩
    split
    · rename_i hlong
      simp only [Bool.and_eq_true, beq_iff_eq, bne_iff_ne] at hlong
      obtain ⟨⟨_, hslot⟩, hnibble⟩ := hlong
      exact .inl ⟨rfl, hslot, hnibble⟩
    · exact .inr rfl

theorem changeOpcode_wf {c : Config} (hc : c.wf = true) {px cur : Pixel} (cache : Cache) (hne : cur ≠ px) :
    (changeOpcode c px cur cache).wf c = true := by
  rcases changeOpcode_cases c px cur cache with ⟨_, h, _⟩ | ⟨_, ⟨h, _, hnibble⟩ | h⟩ <;> rw [h]
  · rfl
  · simp only [Instr.wf, Instr.lidxOk, notMarker_lidx hc _ hnibble, bne_iff_ne.2 hnibble, Bool.and_self]
  · exact deltaEncode_wf hc hne

/-- The lockstep of 40_pixel_cache.md R113: the opcode of a changed pixel gives the pixel, once, and the encoder's cache. -/
theorem changeOpcode_lockstep (c : Config) {px cur : Pixel} (cache : Cache) (hne : cur ≠ px) :
    opPixel c px cache (changeOpcode c px cur cache) = cur ∧
    opCache cache cur (changeOpcode c px cur cache) = changeCache cur cache ∧
    pixelCount (changeOpcode c px cur cache) = 1 := by
  rcases changeOpcode_cases c px cur cache with ⟨hhit, h, hcache⟩ | ⟨hcache, ⟨h, hslot, _⟩ | h⟩ <;> rw [h, hcache]
  · exact ⟨hhit, rfl, rfl⟩
  · refine ⟨hslot, ?_, rfl⟩
    show cache.insertEvict _ _ = _
    rw [hslot, lowSlot_secondarySlot]
  · exact ⟨opPixel_deltaEncode c cache hne, opCache_deltaEncode c cache cur hne, pixelCount_deltaEncode c hne⟩

/-- Settles O38: `changeOpcode_lockstep`, executed by `exec_next`. -/
theorem changeStepKeepsLockstep : Obligations.ChangeStepKeepsLockstep := by
  unfold Obligations.ChangeStepKeepsLockstep
  intro d cur hc hne hlegal htakes
  obtain ⟨hpx, hcache, hcount⟩ := changeOpcode_lockstep d.cfg d.cache hne
  refine ⟨changeOpcode_wf hc d.cache hne, _, exec_next hlegal (by rwa [hcount]), hpx, ?_, rfl, ?_⟩
  · rw [State.opDone_cache, hpx, hcache]
  · have hw := pixelsWritten_opDone hlegal (changeOpcode d.cfg d.px cur d.cache)
    rwa [hcount, hpx] at hw

/-! ### Residency -/

theorem primaryAt_changeCache (cur : Pixel) (cache : Cache) : (changeCache cur cache).primaryAt (primarySlot cur) = cur := by
  unfold changeCache
  split
  · assumption
  · exact cache.primaryAt_insertEvict_self cur _

/-- After a step of the encoder the pixel is as before or resident; a refused step changes no pixel. -/
theorem encodeStep_resident {s t : State} (h : encodeStep s = .next t) :
    t.px = s.px ∨ t.cache.primaryAt (primarySlot t.px) = t.px := by
  rcases encodeStep_cases h with ⟨px, cur, run, cache, is, he, _, hpx⟩ | ⟨_, _, rfl⟩
  · rcases emit_cases he with ⟨_, rfl⟩ | ⟨_, _, _, rfl⟩
    · rcases hpx with ⟨rfl, _⟩ | ⟨_, rfl⟩
      · exact .inl rfl
      · exact .inr (primaryAt_changeCache px s.cache)
    · exact .inl rfl
  · exact .inl rfl

/-- An opcode other than a run leaves its pixel resident, where an index names the pixel's own slot. -/
theorem opCache_resident (c : Config) (px : Pixel) (cache : Cache) {i : Instr} (hrep1 : i ≠ .rep1) (hmaxrun : i ≠ .maxrun)
    (hrun : ∀ n, i ≠ .run n) (hlrun : ∀ v, i ≠ .lrun v) (hidx : ∀ k, i = .idx k → primarySlot (cache.primaryAt k) = k)
    (hlidx : ∀ k, i = .lidx k → secondarySlot (cache.secondaryAt k) = k) :
    (opCache cache (opPixel c px cache i) i).primaryAt (primarySlot (opPixel c px cache i)) = opPixel c px cache i := by
  cases i with
  | idx k => exact congrArg cache.primaryAt (hidx k rfl)
  | lidx k =>
    have hlow : lowSlot k = primarySlot (cache.secondaryAt k) := by rw [← lowSlot_secondarySlot, hlidx k rfl]
    show (cache.insertEvict (cache.secondaryAt k) (lowSlot k)).primaryAt _ = _
    rw [hlow]
    exact Cache.primaryAt_insertEvict_self _ _ _
  | diff _ _ _ | luma _ _ _ | rgb _ _ _ | rgba _ _ _ _ => exact Cache.primaryAt_insertEvict_self _ _ _
  | rep1 => exact absurd rfl hrep1
  | maxrun => exact absurd rfl hmaxrun
  | run n => exact absurd rfl (hrun n)
  | lrun v => exact absurd rfl (hlrun v)

/-- Settles O37: `encodeStep_resident` for the encoder; for the decoder `opCache_resident`, as a refused opcode moves no `pc`. -/
theorem changedPixelIsResident : Obligations.ChangedPixelIsResident := by
  unfold Obligations.ChangedPixelIsResident
  refine ⟨fun s t hb hm hpi h hpx => ?_, fun s t i hrep1 hmaxrun hrun hlrun hidx hlidx h hpc => ?_⟩
  · rw [step_encodeBody hb hm hpi] at h
    exact (encodeStep_resident h).resolve_left hpx
  · rw [exec_eq] at h
    rcases writePixels_cases h with ⟨_, rfl⟩ | ⟨_, _, _, rfl⟩
    · exact opCache_resident s.cfg s.px s.cache hrep1 hmaxrun hrun hlrun hidx hlidx
    · exact absurd rfl hpc

end Sys2Proof.Machine
end

section
/-! PROOFS. The opcodes an encoder emits for a list of pixels, and that replaying them gives the pixels and the encoder's cache
(R113, R116 without bytes and jobs). -/

namespace Sys2Proof.Machine

open Sys2Proof

/-! ### Replaying opcodes -/

/-- A decoder with `px` and `cache` that executes `is`, all well formed, produces the pixels `ps` and ends with the cache
`final`. -/
inductive Replays (c : Config) : Pixel → Cache → List Instr → List Pixel → Cache → Prop
  | nil (px : Pixel) (cache : Cache) : Replays c px cache [] [] cache
  | cons {px p : Pixel} {cache cache' final : Cache} {i : Instr} {is : List Instr} {ps : List Pixel}
      (hwf : i.wf c = true) (hpx : opPixel c px cache i = p) (hcache : opCache cache p i = cache')
      (hrest : Replays c p cache' is ps final) :
      Replays c px cache (i :: is) (List.replicate (pixelCount i) p ++ ps) final

/-! ### Run opcodes -/

theorem flushRun_keeps (c : Config) (px p : Pixel) (cache : Cache) (n : Nat) :
    opPixel c px cache (flushRun n) = px ∧ opCache cache p (flushRun n) = cache := by
  unfold flushRun
  split
  · exact ⟨rfl, rfl⟩
  · split <;> exact ⟨rfl, rfl⟩

theorem maxrun_wf {c : Config} (hc : c.wf = true) : Instr.wf c .maxrun = true := by
  simp only [Config.wf, Bool.and_eq_true] at hc
  exact hc.1

/-- The marker of a sound configuration is no long run of at most 1023 pixels (92_eei_decisions.md D9). -/
theorem lrun_wf {c : Config} (hc : c.wf = true) {v : BitVec 10} (hv : v.toNat ≤ 959) : Instr.wf c (.lrun v) = true := by
  show Instr.notMarker c _ _ = true
  rw [notMarker_iff]
  rintro ⟨hm1, hm2⟩
  simp only [Config.wf, ← hm1, ← hm2, BitVec.extractLsb'_append_eq_left, Bool.and_eq_true, beq_self_eq_true, if_true,
    decide_eq_true_eq, byte_le_iff, top_append_toNat, toNat_extract_eq, BitVec.toNat_ofNat] at hc
  omega

theorem flushRun_wf {c : Config} (hc : c.wf = true) {n : Nat} (h1 : 1 ≤ n) (h2 : n ≤ 1023) : (flushRun n).wf c = true := by
  unfold flushRun
  split
  · rfl
  · split
    · refine decide_eq_true (BitVec.le_def.2 ?_)
      simp only [BitVec.toNat_ofNat]; omega
    · refine lrun_wf hc ?_
      simp only [BitVec.toNat_ofNat]; omega

/-- A flushed run replays as its pixels. -/
theorem Replays.flushRun {c : Config} (hc : c.wf = true) {px : Pixel} {cache final : Cache} {is : List Instr}
    {ps : List Pixel} {n : Nat} (h1 : 1 ≤ n) (h2 : n ≤ 1023) (h : Replays c px cache is ps final) :
    Replays c px cache (flushRun n :: is) (List.replicate n px ++ ps) final := by
  obtain ⟨hpx, hcache⟩ := flushRun_keeps c px px cache n
  have hcons := Replays.cons (flushRun_wf hc h1 h2) hpx hcache h
  rwa [flushRun_pixelCount h1 h2] at hcons

/-! ### What the encoder emits -/

/-- The opcodes the encoder emits from `PX`, `RUN` and its cache for the pixels that are left (41_encoder.md R130 to R132). -/
def encoderInstrs (c : Config) : Pixel → BitVec 16 → Cache → List Pixel → List Instr
  | _, _, _, [] => []
  | px, run, cache, cur :: rest =>
    if cur = px then
      repeatEmits rest.isEmpty run ++ encoderInstrs c px (repeatRun rest.isEmpty run) cache rest
    else pendingRun run ++ [changeOpcode c px cur cache] ++ encoderInstrs c cur 0 (changeCache cur cache) rest

/-- The cache the encoder ends with. -/
def encoderCache : Pixel → Cache → List Pixel → Cache
  | _, cache, [] => cache
  | px, cache, cur :: rest =>
    if cur = px then encoderCache px cache rest else encoderCache cur (changeCache cur cache) rest

section
variable (c : Config) {px cur : Pixel} (run : BitVec 16) (cache : Cache) (rest : List Pixel)

theorem encoderInstrs_repeat : encoderInstrs c px run cache (px :: rest) =
    repeatEmits rest.isEmpty run ++ encoderInstrs c px (repeatRun rest.isEmpty run) cache rest := if_pos rfl

theorem encoderInstrs_change (h : cur ≠ px) : encoderInstrs c px run cache (cur :: rest) =
    pendingRun run ++ [changeOpcode c px cur cache] ++ encoderInstrs c cur 0 (changeCache cur cache) rest := if_neg h

theorem encoderCache_repeat : encoderCache px cache (px :: rest) = encoderCache px cache rest := if_pos rfl

theorem encoderCache_change (h : cur ≠ px) :
    encoderCache px cache (cur :: rest) = encoderCache cur (changeCache cur cache) rest := if_neg h

end

/-- A run of repeats and one pixel more. -/
theorem replicate_append_cons (n : Nat) (p : Pixel) (ps : List Pixel) :
    List.replicate n p ++ p :: ps = List.replicate (n + 1) p ++ ps := by
  rw [List.replicate_succ', List.append_assoc]; rfl

section
variable {c : Config} {px : Pixel} {cache final : Cache} {run : BitVec 16} {is : List Instr} {ps : List Pixel}

/-- What the repeat step emits replays as the pending run and the repeated pixel, but for what stays pending (41_encoder.md
R131). -/
theorem Replays.repeatEmits (hc : c.wf = true) (last : Bool) (hr : run.toNat < runCap)
    (h : Replays c px cache is (List.replicate (repeatRun last run).toNat px ++ ps) final) :
    Replays c px cache (repeatEmits last run ++ is) (List.replicate run.toNat px ++ px :: ps) final := by
  have hsucc : (run + 1).toNat = run.toNat + 1 := by simp only [runCap] at hr; bv_omega
  rw [replicate_append_cons, ← hsucc]
  unfold Machine.repeatEmits
  unfold repeatRun at h
  by_cases hcap : (run + 1).toNat = runCap
  · rw [if_pos hcap] at h ⊢
    rw [hcap]
    exact .cons (maxrun_wf hc) rfl rfl h
  · rw [if_neg hcap] at h ⊢
    cases last with
    | true =>
      simp only [runCap] at hr hcap
      exact .flushRun hc (by omega) (by omega) h
    | false => exact h

/-- What the change step emits first replays as the pending run (41_encoder.md R132). -/
theorem Replays.pendingRun (hc : c.wf = true) (hr : run.toNat < runCap) (h : Replays c px cache is ps final) :
    Replays c px cache (pendingRun run ++ is) (List.replicate run.toNat px ++ ps) final := by
  unfold Machine.pendingRun
  split
  · rename_i hzero
    rw [hzero]; exact h
  · rename_i hne
    simp only [runCap] at hr
    exact .flushRun hc (by bv_omega) (by omega) h

end

/-- Replaying what the encoder emits gives the pending run and the pixels, and the encoder's cache. -/
theorem encoderInstrs_replays {c : Config} (hc : c.wf = true) (px : Pixel) {run : BitVec 16} (cache : Cache) (ps : List Pixel)
    (hr : run.toNat < runCap) (hflushed : ps = [] → run = 0) :
    Replays c px cache (encoderInstrs c px run cache ps) (List.replicate run.toNat px ++ ps) (encoderCache px cache ps) := by
  induction ps generalizing px run cache with
  | nil =>
    rw [hflushed rfl]
    exact .nil px cache
  | cons cur rest ih =>
    by_cases hpx : cur = px
    · subst hpx
      rw [encoderInstrs_repeat, encoderCache_repeat]
      refine .repeatEmits hc _ hr (ih cur cache (repeatRun_lt _ hr) ?_)
      rintro rfl
      exact repeatRun_last run
    · obtain ⟨hpixel, hcache, hcount⟩ := changeOpcode_lockstep c cache hpx
      have hrest := ih cur (changeCache cur cache) (run := 0) (by decide) fun _ => rfl
      have hown := Replays.cons (changeOpcode_wf hc cache hpx) hpixel hcache hrest
      rw [hcount] at hown
      rw [encoderInstrs_change _ _ _ _ hpx, encoderCache_change _ _ hpx, List.append_assoc]
      exact .pendingRun hc hr hown

end Sys2Proof.Machine
end

section
/-! PROOFS. Encode jobs: one appends the encoding of the opcodes that `encoderInstrs` gives for its input pixels, and its padding. -/

namespace Sys2Proof.Machine

open Sys2Proof

/-! ### OUT, sinks and steps -/

theorem Memory.writeBytes_append (m : Memory) (a : Nat) (xs ys : List Byte) :
    Memory.writeBytes m a (xs ++ ys) = Memory.writeBytes (Memory.writeBytes m a xs) (a + xs.length) ys := by
  induction xs generalizing m a with
  | nil => rfl
  | cons x xs ih =>
    rw [List.cons_append, Memory.writeBytes_cons, ih, Memory.writeBytes_cons, List.length_cons, Nat.add_assoc a 1,
      Nat.add_comm 1]

theorem Memory.read_writeBytes_zero (m : Memory) {bytes : List Byte} {a : Nat} (h : a < bytes.length) :
    Memory.read (Memory.writeBytes m 0 bytes) a = bytes[a]? := by
  have hin := Memory.read_writeBytes_inside m 0 bytes h
  rwa [Nat.zero_add] at hin

/-- A list that OUT reads as, and of the length written, is what was written. -/
theorem Memory.eq_of_read_writeBytes {m : Memory} {xs bytes : List Byte} (hlen : xs.length = bytes.length)
    (h : ∀ a, a < bytes.length → Memory.read (Memory.writeBytes m 0 bytes) a = xs[a]?) : xs = bytes := by
  refine List.ext_getElem? fun a => ?_
  by_cases ha : a < bytes.length
  · rw [← h a ha, Memory.read_writeBytes_zero m ha]
  · rw [List.getElem?_eq_none (by omega), List.getElem?_eq_none (by omega)]

theorem Sink.accepts_of_reliable {k : Sink} (h : k.backing.reliable) (addr n : Nat) : k.accepts addr n = n := by
  simp only [Sink.accepts, show k.backing.failsAt = none from h]

theorem memRead_reliable {src : Source} (h : src.backing.reliable) {a n : Nat} (hin : a + n ≤ src.bytes.length) :
    memRead src a n = .ok ((src.bytes.drop a).take n) :=
  memRead_of_le hin fun f hf => absurd (hf.symm.trans h) (by simp)

theorem completes_of_step {s t e : State} (h : step s = .next t) (hc : completes t e) : completes s e := by
  obtain ⟨k, hk, hdone⟩ := hc
  refine ⟨k + 1, ?_, hdone⟩
  have hstep : core.step s = .next t := h
  simp only [Host.Core.run, hstep]
  exact hk

theorem completes_of_finish {s : State} (h : step s = .next (finishJob s)) : completes s (finishJob s) :=
  completes_of_step h ⟨0, rfl, rfl⟩

theorem startJob_checked {s : State} (h : s.job.check = .none) : startJob s = (s.setStatus Status.started).jobStart := by
  rcases startJob_cases s with ⟨_, hs⟩ | ⟨e, _, _, he, hc, _⟩
  · exact hs
  · exact absurd (hc.symm.trans h) he

/-! ### Encodings of opcode lists -/

theorem encodeAll_append (c : Config) (xs ys : List Instr) : encodeAll c (xs ++ ys) = encodeAll c xs ++ encodeAll c ys :=
  List.flatMap_append

theorem encodeAll_cons (c : Config) (i : Instr) (is : List Instr) : encodeAll c (i :: is) = encode c i ++ encodeAll c is := rfl

/-- The bytes behind the last opcode (30_encoding.md R86). -/
def trailer (c : Config) (j : Job) : List Byte := if j.framed then c.padding else []

/-! ### The pixels of an encode job's input -/

/-- Pixel `k` of an encode job (41_encoder.md R130); alpha is 255 in 3-channel operation (10_state.md R22). -/
def inputPixel (j : Job) (k : Nat) : Pixel := readPixel j.ch ((j.src.bytes.drop (k * j.ch)).take j.ch) Pixel.start

def inputPixels (j : Job) : List Pixel := (List.range (encodePixels j)).map (inputPixel j)

/-- The pixels of a running encode job that have not been consumed. -/
def State.pixelsLeft (s : State) : List Pixel := (inputPixels s.job).drop s.pi

theorem inputPixels_length (j : Job) : (inputPixels j).length = encodePixels j := by simp [inputPixels]

theorem pixelsLeft_cons {s : State} {cur : Pixel} {rest : List Pixel} (h : s.pixelsLeft = cur :: rest) :
    s.pi < encodePixels s.job ∧ cur = inputPixel s.job s.pi ∧ (inputPixels s.job).drop (s.pi + 1) = rest ∧
      (s.pi + 1 == encodePixels s.job) = rest.isEmpty := by
  have hlen := congrArg List.length h
  simp only [State.pixelsLeft, List.length_drop, inputPixels_length, List.length_cons] at hlen
  have hlt : s.pi < (inputPixels s.job).length := by rw [inputPixels_length]; omega
  rw [State.pixelsLeft, List.drop_eq_getElem_cons hlt] at h
  obtain ⟨hcur, hrest⟩ := List.cons.inj h
  refine ⟨by omega, by rw [← hcur]; simp [inputPixels], hrest, ?_⟩
  rw [Bool.eq_iff_iff, beq_iff_eq, List.isEmpty_iff_length_eq_zero]
  omega

theorem pixelsLeft_nil {s : State} (h : s.pixelsLeft = []) : encodePixels s.job ≤ s.pi := by
  rwa [State.pixelsLeft, List.drop_eq_nil_iff, inputPixels_length] at h

/-- Alpha is all a pixel takes over from the pixel before (10_state.md R22). -/
theorem readPixel_eq_of_alpha {ch : Nat} (hch : ch = 3 ∨ ch = 4) (raw : List Byte) {p q : Pixel} (h : ch = 3 → p.a = q.a) :
    readPixel ch raw p = readPixel ch raw q := by
  rcases hch with rfl | rfl
  · simp only [readPixel, h rfl]
  · rfl

/-- What is written for a pixel is what it was read from, at equal channel counts (40_pixel_cache.md R115). -/
theorem outPixel_readPixel {ch : Nat} (hch : ch = 3 ∨ ch = 4) {raw : List Byte} (hraw : raw.length = ch) (p : Pixel) :
    outPixel ch ch (readPixel ch raw p) = raw := by
  rcases hch with rfl | rfl
  · obtain ⟨r, g, b, rfl⟩ := List.length_eq_three.1 hraw
    rfl
  · match raw, hraw with
    | [r, g, b, a], _ => rfl

theorem flatMap_range_chunks {α : Type} (bs : List α) (w n : Nat) :
    (List.range n).flatMap (fun k => (bs.drop (k * w)).take w) = bs.take (n * w) := by
  induction n with
  | zero => simp
  | succ n ih =>
    rw [List.range_succ, List.flatMap_append, ih, List.flatMap_singleton, Nat.succ_mul, List.take_add]

/-- The bytes of a checked encode job's input, pixel by pixel. -/
theorem outPixel_inputPixels {j : Job} (hch : j.ch = 3 ∨ j.ch = 4) (hlen : encodePixels j * j.ch = j.inLen) :
    (inputPixels j).flatMap (outPixel j.ch j.ch) = j.src.bytes := by
  have hpixel : ∀ k ∈ List.range (encodePixels j),
      outPixel j.ch j.ch (inputPixel j k) = (j.src.bytes.drop (k * j.ch)).take j.ch := by
    intro k hk
    have hin : k * j.ch + j.ch ≤ j.src.bytes.length := pixel_inside_input (List.mem_range.1 hk)
    exact outPixel_readPixel hch (by rw [List.length_take, List.length_drop]; omega) _
  rw [inputPixels, List.flatMap_map, List.flatMap_congr hpixel, flatMap_range_chunks, hlen]
  exact List.take_length

/-! ### Encode jobs -/

/-- A running encode job that nothing can stop, before its TAIL. -/
structure State.Encodes (s : State) : Prop where
  busy : s.status.state = .busy
  mode : s.job.mode = .encode
  ch : s.job.ch = 3 ∨ s.job.ch = 4
  source : s.job.src.backing.reliable
  sink : s.job.sink.backing.reliable
  alpha : s.job.ch = 3 → s.cur.a = 255
  body : s.tailDone = false

/-- The encode job running in `s` completes: it appends `bytes` to OUT, counts all pixels and publishes `cache`. -/
def encodesTo (s : State) (bytes : List Byte) (cache : Cache) : Prop :=
  ∃ e, completes s e ∧ e.out = Memory.writeBytes s.out s.op bytes ∧ e.status = Status.completed
    { bytesIn := s.job.inLen, bytesOut := s.op + bytes.length, pixels := encodePixels s.job } cache.toImage

/-- A step that emits `now`, before a job that goes on to append `later`. -/
theorem encodesTo_of_emit {s after : State} {now later : List Byte} {cache : Cache} (hstep : step s = emit s after now)
    (hsink : s.job.sink.backing.reliable) (hsame : after.job = s.job ∧ after.op = s.op ∧ after.out = s.out)
    (h : encodesTo ((after.setOut (Memory.writeBytes after.out after.op now)).countOut now.length) later cache) :
    encodesTo s (now ++ later) cache := by
  obtain ⟨hjob, hop, hout⟩ := hsame
  obtain ⟨e, hcomp, heout, hestatus⟩ := h
  rw [emit_next (Sink.accepts_of_reliable (by rwa [hjob]) _ _)] at hstep
  refine ⟨e, completes_of_step hstep hcomp, ?_, ?_⟩
  · simpa only [State.countOut_out, State.countOut_op, State.setOut_out, State.setOut_op, hop, hout,
      ← Memory.writeBytes_append] using heout
  · simpa only [State.countOut_job, State.setOut_job, State.countOut_op, State.setOut_op, hop, hjob, Nat.add_assoc,
      ← List.length_append] using hestatus

theorem encodesTo_finish {s : State} (hb : s.status.state = .busy) (hm : s.job.mode = .encode)
    (hpi : encodePixels s.job ≤ s.pi) (ht : s.job.framed = true → s.tailDone = true) : encodesTo s [] s.cache := by
  refine ⟨finishJob s, completes_of_finish (step_finish hb (.inl ⟨hm, hpi⟩) ht), rfl, ?_⟩
  simp only [finishJob, State.setStatus_status, endProgress, hm, List.length_nil, Nat.add_zero]

/-- After the last pixel an encode job appends the padding, if framed, and ends (41_encoder.md R137). -/
theorem encodesTo_tail {s : State} (hs : s.Encodes) (hpi : encodePixels s.job ≤ s.pi) :
    encodesTo s (trailer s.cfg s.job) s.cache := by
  unfold trailer
  by_cases hf : s.job.framed = true
  · rw [if_pos hf, ← List.append_nil s.cfg.padding]
    exact encodesTo_of_emit (step_encodeTail hs.busy hs.mode hpi hf hs.body) hs.sink ⟨rfl, rfl, rfl⟩
      (encodesTo_finish hs.busy hs.mode hpi fun _ => rfl)
  · rw [if_neg hf]
    exact encodesTo_finish hs.busy hs.mode hpi fun h => absurd h hf

/-- The step of the next pixel of a job that nothing can stop (41_encoder.md R130). -/
theorem State.Encodes.step_pixel {s : State} (hs : s.Encodes) (hpi : s.pi < encodePixels s.job) :
    step s = if inputPixel s.job s.pi = s.px then repeatStep s (inputPixel s.job s.pi)
      else changeStep s (inputPixel s.job s.pi) := by
  have hread := memRead_reliable hs.source (pixel_inside_input hpi)
  rw [step_encodeBody hs.busy hs.mode hpi, encodeStep_read hread,
    readPixel_eq_of_alpha hs.ch _ (q := Pixel.start) hs.alpha]
  rfl

theorem inputPixel_alpha {j : Job} (h : j.ch = 3) (k : Nat) : (inputPixel j k).a = 255 := readPixel_alpha h _ _

/-- The state after the emission of a pixel's bytes. -/
abbrev State.emitted (s : State) (px cur : Pixel) (run : BitVec 16) (cache : Cache) (bytes : List Byte) : State :=
  ((s.setEncoder px cur run cache).setOut (Memory.writeBytes s.out s.op bytes)).countOut bytes.length

theorem State.Encodes.emitted {s : State} (hs : s.Encodes) {cur : Pixel} (halpha : s.job.ch = 3 → cur.a = 255) (px : Pixel)
    (run : BitVec 16) (cache : Cache) (bytes : List Byte) : (s.emitted px cur run cache bytes).Encodes where
  busy := hs.busy
  mode := hs.mode
  ch := hs.ch
  source := hs.source
  sink := hs.sink
  alpha := halpha
  body := hs.body

/-- An encode job that nothing can stop appends the encoding of `encoderInstrs`, pixel by pixel, and its trailer. -/
theorem State.Encodes.encodesTo_encoderInstrs {s : State} (hs : s.Encodes) {ps : List Pixel} (hps : s.pixelsLeft = ps) :
    encodesTo s (encodeAll s.cfg (encoderInstrs s.cfg s.px s.run s.cache ps) ++ trailer s.cfg s.job)
      (encoderCache s.px s.cache ps) := by
  induction ps generalizing s with
  | nil => exact encodesTo_tail hs (pixelsLeft_nil hps)
  | cons cur rest ih =>
    obtain ⟨hpi, rfl, hrest, hlast⟩ := pixelsLeft_cons hps
    have hstep := hs.step_pixel hpi
    have halpha := fun h3 : s.job.ch = 3 => inputPixel_alpha h3 s.pi
    by_cases hpx : inputPixel s.job s.pi = s.px
    · rw [if_pos hpx, repeatStep, hlast] at hstep
      rw [hpx, encoderInstrs_repeat, encoderCache_repeat, encodeAll_append, List.append_assoc]
      exact encodesTo_of_emit hstep hs.sink ⟨rfl, rfl, rfl⟩ (ih (hs.emitted halpha _ _ _ _) hrest)
    · rw [if_neg hpx, changeStep] at hstep
      rw [encoderInstrs_change _ _ _ _ hpx, encoderCache_change _ _ hpx, encodeAll_append, List.append_assoc]
      exact encodesTo_of_emit hstep hs.sink ⟨rfl, rfl, rfl⟩ (ih (hs.emitted halpha _ _ _ _) hrest)

end Sys2Proof.Machine
end

section
/-! PROOFS. Decode jobs: one over the encoding of opcodes, and its padding, writes the pixels they replay to. -/

namespace Sys2Proof.Machine

open Sys2Proof

theorem step_decodeBody {s : State} (hb : s.status.state = .busy) (hm : s.job.mode = .decode)
    (hop : s.op < s.job.nPixels) : step s = decodeStep s := by
  rw [step_busy hb, phase_decode hm, if_pos hop]

theorem step_decodeTail {s : State} (hb : s.status.state = .busy) (hm : s.job.mode = .decode)
    (hop : s.job.nPixels ≤ s.op) (hf : s.job.framed = true) (ht : s.tailDone = false) : step s = decodeTail s := by
  rw [step_busy hb, phase_decode hm, if_neg (Nat.not_lt.2 hop), if_pos (by simp [hf, ht])]

/-- What decodes at `pc` is what `fetch` reads, on a source that does not fail inside it (42_decoder.md R161). -/
theorem fetch_of_decode {s : State} {i : Instr} {rest : List Byte}
    (hd : decode s.cfg (s.job.src.bytes.drop s.pc) = .ok (i, rest))
    (hf : ∀ f, s.job.src.backing.failsAt = some f → s.pc + i.len ≤ f) : fetch s = .ok i := by
  obtain ⟨hwf, henc⟩ := encodeOfDecodeIsBytes _ _ _ _ hd
  obtain ⟨hlength, hlen, _⟩ := decode_ok hd
  have hpos := len_pos i
  obtain ⟨b, payload, hb⟩ : ∃ b payload, encode s.cfg i = b :: payload :=
    List.exists_cons_of_length_pos (by rw [encode_length]; exact hpos)
  have hpayload : payload.length = i.len - 1 := by
    rw [← encode_length s.cfg, hb]; rfl
  rw [hb, List.cons_append] at henc
  rw [← henc, List.headD_cons] at hlen
  rw [List.length_drop] at hlength
  have hdrop : s.job.src.bytes.drop (s.pc + 1) = payload ++ rest := by
    rw [← List.drop_drop, ← henc]; rfl
  have hlead : memRead s.job.src s.pc 1 = .ok [b] := by
    rw [memRead_of_le (by omega) fun f h => by have := hf f h; omega, ← henc]; rfl
  have hrest : memRead s.job.src (s.pc + 1) (opLen b - 1) = .ok payload := by
    rw [memRead_of_le (by omega) fun f h => by have := hf f h; omega, hdrop, ← hlen, ← hpayload, List.take_left]
  have hdec := decodeOfEncodeIsInstr s.cfg i [] hwf
  rw [List.append_nil, hb] at hdec
  simp only [fetch, hlead, List.headD_cons, hrest, hdec]

/-- A running decode job that nothing but its input can stop, before its TAIL. -/
structure State.Decodes (s : State) : Prop where
  busy : s.status.state = .busy
  mode : s.job.mode = .decode
  legal : s.job.legalOut
  source : s.job.src.backing.reliable
  sink : s.job.sink.backing.reliable
  body : s.tailDone = false

/-- The decode job running in `s` completes: it writes `bytes` to OUT, consumes all of IN, counts all pixels and publishes
`cache`. -/
def decodesTo (s : State) (bytes : List Byte) (cache : Cache) : Prop :=
  ∃ d, completes s d ∧ d.out = Memory.writeBytes s.out (pixelAddr s) bytes ∧
    d.status = Status.completed (decodeProgress s.job s.job.inLen s.job.nPixels) cache.toImage

theorem decodesTo_finish {s : State} (hb : s.status.state = .busy) (hm : s.job.mode = .decode)
    (hop : s.op = s.job.nPixels) (hpc : s.pc = s.job.inLen) (ht : s.job.framed = true → s.tailDone = true) :
    decodesTo s [] s.cache := by
  refine ⟨finishJob s, completes_of_finish (step_finish hb (.inr ⟨hm, hop.ge⟩) ht), rfl, ?_⟩
  simp only [finishJob, State.setStatus_status, endProgress, hm, hop, hpc]

theorem pixelBytes_eq_flatMap (j : Job) (p : Pixel) (n : Nat) :
    pixelBytes j p n = (List.replicate n p).flatMap (outPixel j.ch j.outCh) := by
  rw [pixelBytes, List.flatMap_def, List.map_replicate]

/-- After the last pixel a decode job reads the padding, if framed, and ends (42_decoder.md R175). -/
theorem decodesTo_tail {s : State} (hs : s.Decodes) (hop : s.op = s.job.nPixels) (hpc : s.pc ≤ s.job.inLen)
    (hsrc : s.job.src.bytes.drop s.pc = trailer s.cfg s.job) : decodesTo s [] s.cache := by
  have hlen := congrArg List.length hsrc
  rw [List.length_drop] at hlen
  unfold trailer at hsrc hlen
  by_cases hf : s.job.framed = true
  · rw [if_pos hf] at hsrc hlen
    have hlen8 : s.job.inLen - s.pc = 8 := hlen
    have hread : memRead s.job.src s.pc 8 = .ok s.cfg.padding := by
      rw [memRead_reliable hs.source (show s.pc + 8 ≤ s.job.inLen by omega), hsrc]; rfl
    have hstep : step s = .next (s.advance 8).setTailDone := by
      rw [step_decodeTail hs.busy hs.mode hop.ge hf hs.body]
      simp only [decodeTail, hread, if_true]
    obtain ⟨d, hcomp, hout, hstatus⟩ := decodesTo_finish (s := (s.advance 8).setTailDone) hs.busy hs.mode hop
      (show s.pc + 8 = s.job.inLen by omega) fun _ => rfl
    exact ⟨d, completes_of_step hstep hcomp, hout, hstatus⟩
  · rw [if_neg hf] at hlen
    have hlen0 : s.job.inLen - s.pc = 0 := hlen
    exact decodesTo_finish hs.busy hs.mode hop (by omega) fun h => absurd h hf

theorem State.Decodes.opDone {s : State} (hs : s.Decodes) (i : Instr) : (s.opDone i).Decodes where
  busy := hs.busy
  mode := hs.mode
  legal := hs.legal
  source := hs.source
  sink := hs.sink
  body := hs.body

/-- A decode job over the encoding of opcodes that replay to the pixels it owes writes those pixels (42_decoder.md R160). -/
theorem State.Decodes.decodesTo_of_replays {s : State} (hs : s.Decodes) {is : List Instr} {ps : List Pixel} {final : Cache}
    (hr : Replays s.cfg s.px s.cache is ps final) (hpc : s.pc ≤ s.job.inLen)
    (hsrc : s.job.src.bytes.drop s.pc = encodeAll s.cfg is ++ trailer s.cfg s.job)
    (hop : s.op + ps.length = s.job.nPixels) :
    decodesTo s (ps.flatMap (outPixel s.job.ch s.job.outCh)) final := by
  generalize hc : s.cfg = c at hr
  generalize hpx : s.px = px at hr
  generalize hcache : s.cache = cache at hr
  induction hr generalizing s with
  | nil px cache =>
    subst hcache
    exact decodesTo_tail hs hop hpc hsrc
  | @cons px p cache cache' final i is ps hwf hp hcache' _ ih =>
    subst hc hpx hcache hp hcache'
    rw [List.length_append, List.length_replicate] at hop
    have hcount := pixelCount_pos i
    have hclamp : clampRun s (pixelCount i) = pixelCount i := Nat.min_eq_left (by omega)
    rw [encodeAll_cons, List.append_assoc] at hsrc
    have hd := decodeOfEncodeIsInstr s.cfg i (encodeAll s.cfg is ++ trailer s.cfg s.job) hwf
    rw [← hsrc] at hd
    have hfetch := fetch_of_decode hd fun f h => absurd (h.symm.trans hs.source) (by simp)
    have hstep : step s = .next (s.opDone i) := by
      rw [step_decodeBody hs.busy hs.mode (by omega), decodeStep_fetched hfetch]
      exact exec_next hs.legal (Sink.accepts_of_reliable hs.sink _ _)
    have hin : s.pc + i.len ≤ s.job.inLen := (fetch_ok hfetch).1
    have hnext : s.job.src.bytes.drop (s.pc + i.len) = encodeAll s.cfg is ++ trailer s.cfg s.job := by
      rw [← List.drop_drop, hsrc, ← encode_length s.cfg i, List.drop_left]
    have howed : s.op + clampRun s (pixelCount i) + ps.length = s.job.nPixels := by omega
    obtain ⟨d, hcomp, hout, hstatus⟩ := ih (hs.opDone i) hin hnext howed rfl rfl rfl
    refine ⟨d, completes_of_step hstep hcomp, ?_, hstatus⟩
    rw [hout, State.opDone_out, List.flatMap_append, Memory.writeBytes_append, ← pixelBytes_eq_flatMap, hclamp,
      pixelBytes_length_legal hs.legal]
    simp only [pixelAddr, State.opDone_op, State.opDone_job, hclamp, Nat.add_mul]

end Sys2Proof.Machine
end

section
/-! PROOFS. The round trip of a job (O57): what an encode job's opcodes replay to is its input. -/

namespace Sys2Proof.Machine

open Sys2Proof

/-- The opcodes of an encode job. -/
def jobInstrs (c : Config) (j : Job) : List Instr := encoderInstrs c Pixel.start 0 j.cacheIn.load (inputPixels j)

/-- The engine's own bytes of an encode job: its opcodes, and the padding in framed mode. -/
def jobBytes (c : Config) (j : Job) : List Byte := encodeAll c (jobInstrs c j) ++ trailer c j

/-- The cache an encode job ends with. -/
def jobCache (j : Job) : Cache := encoderCache Pixel.start j.cacheIn.load (inputPixels j)

theorem jobInstrs_replays {c : Config} (hc : c.wf = true) (j : Job) :
    Replays c Pixel.start j.cacheIn.load (jobInstrs c j) (inputPixels j) (jobCache j) :=
  encoderInstrs_replays hc Pixel.start j.cacheIn.load (inputPixels j) (run := 0) (by decide) fun _ => rfl

theorem check_none_length {j : Job} (h : j.check = .none) (hm : j.mode = .encode) : encodePixels j * j.ch = j.inLen := by
  obtain ⟨_, _, hlen, _⟩ := check_none h
  simp only [Job.badLength, hm, beq_self_eq_true, Bool.true_and, Bool.or_eq_false_iff, bne_eq_false_iff_eq] at hlen
  exact Nat.div_mul_cancel (Nat.dvd_of_mod_eq_zero hlen.1)

/-- An encode job that passes its checks completes, with `jobBytes` in OUT and `jobCache` as its image. -/
theorem encodeJob_completes (s : State) {j : Job} (hm : j.mode = .encode) (hcheck : j.check = .none)
    (hsrc : j.src.backing.reliable) (hsink : j.sink.backing.reliable) :
    ∃ e, completes (startJob (s.setJob j)) e ∧ e.out = Memory.writeBytes s.out 0 (jobBytes s.cfg j) ∧
      e.status = Status.completed
        { bytesIn := j.inLen, bytesOut := (jobBytes s.cfg j).length, pixels := encodePixels j } (jobCache j).toImage := by
  have hs : ((s.setJob j).setStatus Status.started).jobStart.Encodes :=
    { busy := rfl, mode := hm, ch := check_none_ch hcheck, source := hsrc, sink := hsink, alpha := fun _ => rfl, body := rfl }
  obtain ⟨e, hcomp, hout, hstatus⟩ := hs.encodesTo_encoderInstrs rfl
  rw [← startJob_checked (s := s.setJob j) hcheck] at hcomp
  rw [State.jobStart_op, Nat.zero_add] at hstatus
  exact ⟨e, hcomp, hout, hstatus⟩

/-- A decode job over the bytes of an encode job, with its channel count and starting cache, completes with the encode job's
input in OUT and its cache as the image. -/
theorem decodeJob_completes (u : State) {je jd : Job} (hc : u.cfg.wf = true) (hme : je.mode = .encode)
    (hcheckE : je.check = .none) (hmd : jd.mode = .decode) (hcheck : jd.check = .none) (hsrc : jd.src.backing.reliable)
    (hsink : jd.sink.backing.reliable) (hch : jd.ch = je.ch) (houtCh : jd.outCh = je.ch) (hn : jd.nPixels = encodePixels je)
    (hf : jd.framed = je.framed) (hcache : jd.cacheIn = je.cacheIn) (hbytes : jd.src.bytes = jobBytes u.cfg je) :
    ∃ d, completes (startJob (u.setJob jd)) d ∧ d.out = Memory.writeBytes u.out 0 je.src.bytes ∧
      d.status = Status.completed (decodeProgress jd jd.inLen jd.nPixels) (jobCache je).toImage := by
  have hs : ((u.setJob jd).setStatus Status.started).jobStart.Decodes :=
    { busy := rfl, mode := hmd, legal := check_none_outCh hcheck hmd, source := hsrc, sink := hsink, body := rfl }
  have hr := jobInstrs_replays hc je
  rw [← hcache] at hr
  have htrailer : trailer u.cfg jd = trailer u.cfg je := by rw [trailer, trailer, hf]
  have hstream : jd.src.bytes = encodeAll u.cfg (jobInstrs u.cfg je) ++ trailer u.cfg jd := by rw [hbytes, jobBytes, htrailer]
  have howed : 0 + (inputPixels je).length = jd.nPixels := by rw [inputPixels_length, Nat.zero_add, hn]
  obtain ⟨d, hcomp, hout, hstatus⟩ := hs.decodesTo_of_replays hr (Nat.zero_le _) hstream howed
  rw [← startJob_checked (s := u.setJob jd) hcheck] at hcomp
  refine ⟨d, hcomp, ?_, hstatus⟩
  rw [hout, pixelAddr, State.jobStart_op, Nat.zero_mul]
  show Memory.writeBytes u.out 0 ((inputPixels je).flatMap (outPixel jd.ch jd.outCh)) = _
  rw [hch, houtCh, outPixel_inputPixels (check_none_ch hcheckE) (check_none_length hcheckE hme)]

/-- Settles O57: the decode job's input is `jobBytes`, whose opcodes replay to the encode job's pixels. -/
theorem decodeOfEncodeIsBuffer : Obligations.DecodeOfEncodeIsBuffer := by
  unfold Obligations.DecodeOfEncodeIsBuffer
  intro s u je jd hc hcfg hme hcheckE hsrcE hsinkE
  obtain ⟨e, hcompE, houtE, hstatusE⟩ := encodeJob_completes s hme hcheckE hsrcE hsinkE
  refine ⟨e, hcompE, fun hmd hcheck hsrc hsink hch houtCh hn hf hcache hlen hread => ?_⟩
  rw [hstatusE, Status.completed_bytesOut] at hlen hread
  rw [houtE] at hread
  have hbytes : jd.src.bytes = jobBytes u.cfg je := by
    rw [hcfg]
    exact Memory.eq_of_read_writeBytes hlen hread
  obtain ⟨d, hcompD, houtD, hstatusD⟩ := decodeJob_completes u (by rwa [hcfg]) hme hcheckE hmd hcheck hsrc hsink hch houtCh hn
    hf hcache hbytes
  rw [hstatusE]
  refine ⟨d, hcompD, fun a ha => ?_, ?_, ?_, ?_, ?_⟩
  · rw [houtD, Memory.read_writeBytes_zero _ ha]
  · rw [hstatusD]; rfl
  · rw [hstatusD]; exact hn
  · rw [hstatusD]; exact hlen
  · rw [hstatusD]
    show jd.nPixels * jd.outCh = je.inLen
    rw [hn, houtCh, check_none_length hcheckE hme]

end Sys2Proof.Machine
end

section
/-! PROOFS. The encoder's steps (O18, O33 to O35): the bytes of its opcodes as numbers, and what a step appends to OUT. The bound on
the output of a running job (O51) is read off the invariant. -/

namespace Sys2Proof.Machine

open Sys2Proof

/-! ### Bytes of opcodes as numbers -/

theorem top_append_eq_ofNat (k : BitVec 2) (x : BitVec 6) : (k ++ x : Byte) = BitVec.ofNat 8 (k.toNat * 64 + x.toNat) :=
  (BitVec.toNat_eq_nat.1 (top_append_toNat k x)).2

theorem nibbles_append_eq_ofNat (x y : BitVec 4) : (x ++ y : Byte) = BitVec.ofNat 8 (x.toNat * 16 + y.toNat) :=
  (BitVec.toNat_eq_nat.1 (toNat_append_eq x y)).2

theorem top_append_ofNat (k : BitVec 2) {n : Nat} (h : n < 64) :
    (k ++ BitVec.ofNat 6 n : Byte) = BitVec.ofNat 8 (k.toNat * 64 + n) := by
  rw [top_append_eq_ofNat, BitVec.toNat_ofNat n, Nat.mod_eq_of_lt h]

/-- The operand of the two-byte group goes to the low six bits of the first byte and to a nibble of the second (30_encoding.md R78,
R80). -/
theorem ten_bit_fields {n : Nat} (h : n < 1024) :
    ((BitVec.ofNat 10 n).extractLsb' 4 6).toNat = n / 16 ∧ ((BitVec.ofNat 10 n).extractLsb' 0 4).toNat = n % 16 := by
  rw [toNat_extract_eq, toNat_extract_eq, BitVec.toNat_ofNat, Nat.mod_eq_of_lt h]
  omega

theorem encode_idx_eq (c : Config) {n : Nat} (h : n < 64) : encode c (.idx (BitVec.ofNat 6 n)) = [BitVec.ofNat 8 n] := by
  rw [encode, top_append_ofNat 0#2 h, BitVec.toNat_ofNat, Nat.zero_mod, Nat.zero_mul, Nat.zero_add]

theorem encode_run_eq (c : Config) {n : Nat} (h : n < 64) : encode c (.run (BitVec.ofNat 6 n)) = [BitVec.ofNat 8 (0xC0 + n)] := by
  rw [encode, top_append_ofNat 3#2 h]
  rfl

theorem encode_lrun_eq (c : Config) {n : Nat} (h : n < 1024) :
    encode c (.lrun (BitVec.ofNat 10 n)) = [BitVec.ofNat 8 (0x80 + n / 16), BitVec.ofNat 8 (0xF0 + n % 16)] := by
  obtain ⟨hhigh, hlow⟩ := ten_bit_fields h
  simp only [encode, top_append_eq_ofNat, nibbles_append_eq_ofNat, hhigh, hlow]
  rfl

theorem encode_lidx_eq (c : Config) {n : Nat} (h : n < 1024) :
    encode c (.lidx (BitVec.ofNat 10 n)) = [BitVec.ofNat 8 (0x80 + n / 16), BitVec.ofNat 8 (n % 16 * 16 + 15)] := by
  obtain ⟨hhigh, hlow⟩ := ten_bit_fields h
  simp only [encode, top_append_eq_ofNat, nibbles_append_eq_ofNat, hhigh, hlow]
  rfl

/-! ### The bytes of a flushed run -/

theorem flushRun_one : flushRun 1 = .rep1 := rfl

theorem flushRun_short {n : Nat} (h2 : 2 ≤ n) (h : n ≤ 63) : flushRun n = .run (BitVec.ofNat 6 (n - 2)) := by
  rw [flushRun, if_neg (by omega), if_pos h]

theorem flushRun_long {n : Nat} (h : 64 ≤ n) : flushRun n = .lrun (BitVec.ofNat 10 (n - 64)) := by
  rw [flushRun, if_neg (by omega), if_neg (by omega)]

/-- Settles O18, by the three forms of `flushRun`. -/
theorem runFlushBytes : Obligations.RunFlushBytes := by
  unfold Obligations.RunFlushBytes
  intro c n h1 h
  refine ⟨flushRun_pixelCount h1 h, ?_, fun h2 h63 => ?_, fun h64 => ?_⟩
  · rintro rfl
    rw [flushRun_one, encode]
  · rw [flushRun_short h2 h63, encode_run_eq c (by omega)]
  · rw [flushRun_long h64, encode_lrun_eq c (by omega)]

/-! ### What a step of the encoder appends -/

theorem bytesWritten_writeBytes (m : Memory) (op : Nat) (bytes : List Byte) :
    bytesWritten m (Memory.writeBytes m op bytes) op bytes :=
  ⟨fun _ hk => Memory.read_writeBytes_inside m op bytes hk, fun _ ha => Memory.read_writeBytes_outside m op bytes ha⟩

/-- `Emit` where the sink takes every byte: the registers of `after`, with the bytes appended to OUT. -/
theorem emit_appends {before after : State} {bytes : List Byte}
    (h : after.job.sink.accepts after.op bytes.length = bytes.length) :
    ∃ out, emit before after bytes = .next ((after.setOut out).countOut bytes.length) ∧
      bytesWritten after.out out after.op bytes :=
  ⟨_, emit_next h, bytesWritten_writeBytes _ _ _⟩

section
variable {s : State} {raw : List Byte} (hb : s.status.state = .busy) (hm : s.job.mode = .encode)
  (hpi : s.pi < encodePixels s.job) (hr : memRead s.job.src (s.pi * s.job.ch) s.job.ch = .ok raw)

include hb hm hpi hr

theorem step_of_repeated_pixel (h : readPixel s.job.ch raw s.cur = s.px) : step s = repeatStep s s.px := by
  rw [step_encodeBody hb hm hpi, encodeStep_read hr, if_pos h, h]

theorem step_of_changed_pixel (h : readPixel s.job.ch raw s.cur ≠ s.px) :
    step s = changeStep s (readPixel s.job.ch raw s.cur) := by
  rw [step_encodeBody hb hm hpi, encodeStep_read hr, if_neg h]

end

/-- Settles O35: the TAIL step is `Emit` of the padding. -/
theorem encoderEmitsPadding : Obligations.EncoderEmitsPadding := by
  unfold Obligations.EncoderEmitsPadding
  intro s hb hm hpi hf ht hsink
  rw [step_encodeTail hb hm hpi hf ht]
  exact emit_appends (after := s.setTailDone) (bytes := s.cfg.padding) hsink

/-! ### The repeat step -/

theorem run_succ_toNat {run : BitVec 16} (h : run.toNat < runCap) : (run + 1).toNat = run.toNat + 1 := by
  simp only [runCap] at h
  bv_omega

section
variable (c : Config) {run : BitVec 16}

theorem repeat_at_cap (last : Bool) (h : run.toNat + 1 = runCap) :
    encodeAll c (repeatEmits last run) = [c.marker1, c.marker2] ∧ repeatRun last run = 0 := by
  rw [repeatEmits, repeatRun, run_succ_toNat (by omega), if_pos h, if_pos h]
  exact ⟨rfl, rfl⟩

theorem repeat_at_last (hr : run.toNat < runCap) (h : run.toNat + 1 ≠ runCap) :
    encodeAll c (repeatEmits true run) = encode c (flushRun (run.toNat + 1)) ∧ repeatRun true run = 0 := by
  rw [repeatEmits, repeatRun, run_succ_toNat hr, if_neg h, if_neg h]
  exact ⟨List.append_nil _, rfl⟩

theorem repeat_pending (hr : run.toNat < runCap) (h : run.toNat + 1 ≠ runCap) :
    encodeAll c (repeatEmits false run) = [] ∧ (repeatRun false run).toNat = run.toNat + 1 := by
  rw [repeatEmits, repeatRun, run_succ_toNat hr, if_neg h, if_neg h]
  exact ⟨rfl, run_succ_toNat hr⟩

end

/-- Settles O33, by the three cases of R131: the cap, the last pixel, and neither. -/
theorem repeatStepExtendsRun : Obligations.RepeatStepExtendsRun := by
  unfold Obligations.RepeatStepExtendsRun
  intro s raw bytes r hb hm hpi hrun hr hpx hcap hlast hpending hsink
  have key : encodeAll s.cfg (repeatEmits (s.pi + 1 == encodePixels s.job) s.run) = bytes ∧
      repeatRun (s.pi + 1 == encodePixels s.job) s.run = r := by
    by_cases hc : s.run.toNat + 1 = 1024
    · obtain ⟨rfl, hzero⟩ := hcap hc
      obtain ⟨hemits, hnone⟩ := repeat_at_cap s.cfg (s.pi + 1 == encodePixels s.job) hc
      exact ⟨hemits, hnone.trans (BitVec.eq_of_toNat_eq hzero.symm)⟩
    · by_cases hl : s.pi + 1 = encodePixels s.job
      · obtain ⟨rfl, hzero⟩ := hlast hc hl
        obtain ⟨hemits, hnone⟩ := repeat_at_last s.cfg hrun hc
        rw [beq_iff_eq.2 hl]
        exact ⟨hemits, hnone.trans (BitVec.eq_of_toNat_eq hzero.symm)⟩
      · obtain ⟨rfl, hsucc⟩ := hpending hc hl
        obtain ⟨hemits, hmore⟩ := repeat_pending s.cfg hrun hc
        rw [beq_eq_false_iff_ne.2 hl]
        exact ⟨hemits, BitVec.eq_of_toNat_eq (hmore.trans hsucc.symm)⟩
  obtain ⟨hbytes, hr'⟩ := key
  rw [step_of_repeated_pixel hb hm hpi hr hpx, repeatStep, hbytes, hr']
  exact emit_appends (after := s.setEncoder s.px s.px r s.cache) hsink

/-! ### The change step -/

theorem encodeAll_pendingRun (c : Config) (run : BitVec 16) :
    encodeAll c (pendingRun run) = if run = 0 then [] else encode c (flushRun run.toNat) := by
  unfold pendingRun
  split
  · rfl
  · exact List.append_nil _

theorem primarySlot_eq_ofNat_mod (p : Pixel) : primarySlot p = BitVec.ofNat 6 (pixelHash p % 64) :=
  (BitVec.toNat_eq_nat.1 (primarySlot_toNat p)).2

theorem secondarySlot_eq_ofNat_mod (p : Pixel) : secondarySlot p = BitVec.ofNat 10 (pixelHash p % 1024) :=
  (BitVec.toNat_eq_nat.1 (secondarySlot_toNat p)).2

/-- A low nibble of all ones: a slot number that LIDX cannot write (30_encoding.md R80). -/
theorem secondarySlot_low_nibble_iff (p : Pixel) :
    (secondarySlot p).extractLsb' 0 4 = 15#4 ↔ pixelHash p % 1024 % 16 = 15 := by
  rw [← BitVec.toNat_inj, toNat_extract_eq, secondarySlot_toNat, Nat.pow_zero, Nat.div_one]
  rfl

/-- The three conditions of 41_encoder.md R134. -/
def takesLidx (c : Config) (px cur : Pixel) (cache : Cache) : Prop :=
  ((encode c (deltaEncode c px cur)).length = 2 ∨
    ((encode c (deltaEncode c px cur)).length = 1 ∧ c.lidxOnDiff = true)) ∧
  cache.secondaryAt (secondarySlot cur) = cur ∧ pixelHash cur % 1024 % 16 ≠ 15

theorem takesLidx_iff (c : Config) (px cur : Pixel) (cache : Cache) : takesLidx c px cur cache ↔
    (lidxEligible c (deltaEncode c px cur).len && cache.secondaryAt (secondarySlot cur) == cur &&
      (secondarySlot cur).extractLsb' 0 4 != 15#4) = true := by
  simp only [takesLidx, lidxEligible, encode_length, Bool.and_eq_true, Bool.or_eq_true, beq_iff_eq, bne_iff_ne, ne_eq,
    secondarySlot_low_nibble_iff, and_assoc]

section
variable (c : Config) {px cur : Pixel} {cache : Cache}

theorem encode_changeOpcode_hit (h : cache.primaryAt (primarySlot cur) = cur) :
    encode c (changeOpcode c px cur cache) = [BitVec.ofNat 8 (pixelHash cur % 64)] := by
  rw [changeOpcode, if_pos h, primarySlot_eq_ofNat_mod, encode_idx_eq c (Nat.mod_lt _ (by decide))]

theorem encode_changeOpcode_long (h : ¬ cache.primaryAt (primarySlot cur) = cur) (hlong : takesLidx c px cur cache) :
    encode c (changeOpcode c px cur cache) = [BitVec.ofNat 8 (0x80 + pixelHash cur % 1024 / 16),
      BitVec.ofNat 8 (pixelHash cur % 1024 % 16 * 16 + 15)] := by
  rw [changeOpcode, if_neg h, if_pos ((takesLidx_iff c px cur cache).1 hlong), secondarySlot_eq_ofNat_mod,
    encode_lidx_eq c (Nat.mod_lt _ (by decide))]

theorem changeOpcode_delta (h : ¬ cache.primaryAt (primarySlot cur) = cur) (hlong : ¬ takesLidx c px cur cache) :
    changeOpcode c px cur cache = deltaEncode c px cur := by
  rw [changeOpcode, if_neg h, if_neg (mt (takesLidx_iff c px cur cache).2 hlong)]

end

/-- Settles O34: the bytes are those of the pending run and of the opcode that R133 and R134 choose. -/
theorem changeStepEmitsOpcode : Obligations.ChangeStepEmitsOpcode := by
  unfold Obligations.ChangeStepEmitsOpcode
  intro s raw own cur hb hm hpi hr hcur hne hit delta k long bytes hhit hlong hdelta hsink
  have hown : encode s.cfg (changeOpcode s.cfg s.px cur s.cache) = own := by
    by_cases h : hit
    · rw [hhit h]
      exact encode_changeOpcode_hit s.cfg h
    · by_cases hl : long
      · rw [hlong h hl]
        exact encode_changeOpcode_long s.cfg h hl
      · rw [hdelta h hl, changeOpcode_delta s.cfg h hl]
  have hbytes : encodeAll s.cfg (pendingRun s.run ++ [changeOpcode s.cfg s.px cur s.cache]) = bytes := by
    rw [encodeAll_append, encodeAll_pendingRun, encodeAll_cons, hown]
    exact congrArg _ (List.append_nil own)
  subst hcur
  rw [step_of_changed_pixel hb hm hpi hr hne, changeStep, hbytes]
  obtain ⟨out, hemit, hwritten⟩ := emit_appends (before := s)
    (after := s.setEncoder _ _ 0 (changeCache (readPixel s.job.ch raw s.cur) s.cache)) hsink
  exact ⟨out, _, hemit, fun h => if_pos h, fun h => if_neg h, hwritten⟩

/-! ### The output of a running job -/

/-- What an encode job has emitted is within the worst case of the whole job (41_encoder.md R138). -/
theorem State.EncodeOk.op_le_required {s : State} (hs : s.EncodeOk) (hm : s.job.mode = .encode) : s.op ≤ s.job.required := by
  have hpixels : s.pi * (s.job.ch + 1) ≤ encodePixels s.job * (s.job.ch + 1) := Nat.mul_le_mul_right _ hs.pi_le
  have hpadding : (if s.tailDone then 8 else 0) ≤ if s.job.framed then 8 else 0 := by
    split
    · rename_i ht
      rw [if_pos (hs.tail ht).1]
    · exact Nat.zero_le _
  rw [required_encode hm]
  have := hs.budget
  omega

theorem State.DecodeOk.bytes_le_required {s : State} (hs : s.DecodeOk) (hm : s.job.mode = .decode) :
    s.op * s.job.outCh ≤ s.job.required := by
  rw [required_decode hm]
  exact Nat.mul_le_mul_right _ hs.op_le

/-- Settles O51: the output is within the required size, which START has checked against `OUT_CAP`. -/
theorem outputStaysWithinCapacity : Obligations.OutputStaysWithinCapacity := by
  unfold Obligations.OutputStaysWithinCapacity
  intro s hs hb
  obtain ⟨_, _, _, hcap⟩ := check_none (hs.checked hb)
  refine ⟨fun hm => ?_, fun hm => ?_⟩
  · have hop := (hs.encode_ok hb hm).op_le_required hm
    exact ⟨required_encode hm ▸ hop, hop.trans hcap⟩
  · have hop := (hs.decode_ok hb hm).bytes_le_required hm
    exact ⟨required_decode hm ▸ hop, hop.trans hcap⟩

end Sys2Proof.Machine
end

section
/-! PROOFS. What each opcode does where the sink takes its pixels (O19 to O24), and that none reads the channel counts (O27). -/

namespace Sys2Proof.Machine

open Sys2Proof

/-! ### Every opcode -/

/-- Everything an opcode changes where the sink takes its pixels (42_decoder.md R161, R172). -/
theorem exec_writesPixels {i : Instr} {s : State} (hlegal : s.job.legalOut) (htakes : s.takesPixels (pixelCount i)) :
    ∃ out, exec i s = .next { s with
        px := opPixel s.cfg s.px s.cache i, cache := opCache s.cache (opPixel s.cfg s.px s.cache i) i, pc := s.pc + i.len,
        op := s.op + clampRun s (pixelCount i), out := out } ∧
      pixelsWritten s.job s.out out s.op (clampRun s (pixelCount i)) (opPixel s.cfg s.px s.cache i) :=
  ⟨(s.opDone i).out, exec_next hlegal htakes, pixelsWritten_opDone hlegal i⟩

/-- An opcode completes on a sink that does not fail, whatever the channel counts (43_interfaces.md R207). -/
theorem exec_next_of_reliable {s : State} (h : s.job.sink.backing.reliable) (i : Instr) : exec i s = .next (s.opDone i) := by
  rw [exec_eq]
  exact writePixels_next (Sink.accepts_of_reliable h _ _)

theorem sameDecoder_opDone {s t : State} (h : sameDecoder s t) (i : Instr) : sameDecoder (s.opDone i) (t.opDone i) := by
  obtain ⟨hpx, hcache, hpc, hop, hcfg, hn⟩ := h
  have hclamp : clampRun s (pixelCount i) = clampRun t (pixelCount i) := by simp only [clampRun, hn, hop]
  simp only [sameDecoder, State.opDone_px, State.opDone_cache, State.opDone_pc, State.opDone_op, State.opDone_cfg,
    State.opDone_job, hpx, hcache, hpc, hop, hcfg, hn, hclamp, and_self]

/-- Settles O27: on slices both opcodes complete, and `opDone` reads nothing that the two states do not share. -/
theorem opcodesIgnoreChannelCount : Obligations.OpcodesIgnoreChannelCount := by
  unfold Obligations.OpcodesIgnoreChannelCount
  intro i s t a b hsame hs ht
  exact ⟨s.opDone i, t.opDone i, exec_next_of_reliable (by rw [hs]; rfl) i, exec_next_of_reliable (by rw [ht]; rfl) i,
    sameDecoder_opDone hsame i⟩

/-! ### The pixel of a delta -/

/-- A luma delta's red or blue channel: the relative delta goes on top of the green one (40_pixel_cache.md R107). -/
theorem add8_add_toNat (x : Byte) (d e : Int) : ((add8 x (d + e)).toNat : Int) = (x.toNat + d + e) % 256 := by
  rw [add8_toNat, add_assoc]

/-- Settles O20: `exec_writesPixels`, with the channels of `updateDiff` by `add8_toNat`. -/
theorem diffAddsSmallDeltas : Obligations.DiffAddsSmallDeltas := by
  unfold Obligations.DiffAddsSmallDeltas
  intro dr dg db s hlegal htakes
  obtain ⟨out, hexec, hwritten⟩ := exec_writesPixels (i := .diff dr dg db) hlegal htakes
  exact ⟨updateDiff s.cfg s.px dr dg db, out, hexec, hwritten, add8_toNat _ _, add8_toNat _ _, add8_toNat _ _, rfl⟩

/-- Settles O21: `exec_writesPixels`, with the channels of `updateLuma` by `add8_toNat` and `add8_add_toNat`. -/
theorem lumaAddsRelativeDeltas : Obligations.LumaAddsRelativeDeltas := by
  unfold Obligations.LumaAddsRelativeDeltas
  intro dg drg dbg s hlegal htakes
  obtain ⟨out, hexec, hwritten⟩ := exec_writesPixels (i := .luma dg drg dbg) hlegal htakes
  exact ⟨updateLuma s.cfg s.px dg drg dbg, out, hexec, hwritten, add8_toNat _ _, add8_add_toNat _ _ _,
    add8_add_toNat _ _ _, rfl⟩

/-! ### Literals, index opcodes and runs -/

/-- Settles O24: RGB and RGBA by `exec_writesPixels`. -/
theorem literalsSetPixel : Obligations.LiteralsSetPixel := by
  unfold Obligations.LiteralsSetPixel
  intro r g b s hlegal htakes
  refine ⟨?_, fun a => ?_⟩
  · obtain ⟨out, hdone⟩ := exec_writesPixels (i := .rgb r g b) hlegal htakes
    exact ⟨updateRgb s.px r g b, out, rfl, hdone⟩
  · obtain ⟨out, hdone⟩ := exec_writesPixels (i := .rgba r g b a) hlegal htakes
    exact ⟨updateRgba s.px r g b a, out, rfl, hdone⟩

/-- Settles O19: IDX leaves the primary slot's pixel and the cache as it was. -/
theorem idxReadsPrimarySlot : Obligations.IdxReadsPrimarySlot := by
  unfold Obligations.IdxReadsPrimarySlot
  intro i s hlegal htakes
  exact exec_writesPixels (i := .idx i) hlegal htakes

/-- The slot a secondary slot promotes into, as a truncation (40_pixel_cache.md R112). -/
theorem lowSlot_eq_ofNat (k : BitVec 10) : lowSlot k = BitVec.ofNat 6 k.toNat := rfl

/-- Settles O22: LIDX promotes, which is an insertion into the slot of `lowSlot_eq_ofNat`. -/
theorem lidxPromotesSecondarySlot : Obligations.LidxPromotesSecondarySlot := by
  unfold Obligations.LidxPromotesSecondarySlot
  intro k s hlegal htakes
  rw [← lowSlot_eq_ofNat]
  exact exec_writesPixels (i := .lidx k) hlegal htakes

/-- Settles O23: a run opcode leaves `PX` and the cache, and writes its `pixelCount`, clamped. -/
theorem runOpcodesRepeatPixel : Obligations.RunOpcodesRepeatPixel := by
  unfold Obligations.RunOpcodesRepeatPixel
  intro s hlegal
  exact ⟨fun htakes => exec_writesPixels (i := .rep1) hlegal htakes,
    fun v htakes => exec_writesPixels (i := .lrun v) hlegal htakes,
    fun htakes => exec_writesPixels (i := .maxrun) hlegal htakes,
    fun n htakes => exec_writesPixels (i := .run n) hlegal htakes⟩

end Sys2Proof.Machine
end

section
/-! PROOFS. The decoder's steps: an opcode that is there is executed (O29), one that is cut has no effect (O30), and the padding check
(O32). -/

namespace Sys2Proof.Machine

open Sys2Proof

/-! ### Reading an opcode -/

/-- Settles O29: `fetch` reads what decodes at `pc`. -/
theorem stepRunsDecodedInstr : Obligations.StepRunsDecodedInstr := by
  unfold Obligations.StepRunsDecodedInstr
  intro s i rest hb hm hop hsrc hd
  rw [step_decodeBody hb hm hop, decodeStep_fetched (fetch_of_decode hd hsrc)]

theorem memRead_short {src : Source} {a n : Nat} (h : src.bytes.length < a + n) : memRead src a n = .error .ended := if_pos h

/-- A fetch fails, other than by the end of IN, only where the source does (60_exceptions.md R225). -/
theorem fetch_failed {s : State} (h : fetch s = .error .failed) : ∃ f, s.job.src.backing.failsAt = some f := by
  unfold fetch at h
  split at h
  · rename_i hlead
    cases h
    obtain ⟨_, f, hf, _⟩ := memRead_failed hlead
    exact ⟨f, hf⟩
  · dsimp only at h
    split at h
    · rename_i hpayload
      cases h
      obtain ⟨_, f, hf, _⟩ := memRead_failed hpayload
      exact ⟨f, hf⟩
    · split at h <;> cases h

/-- On a source that does not fail, `fetch` ends where the bytes at `pc` do not decode (42_decoder.md R173). -/
theorem fetch_ended {s : State} {e : DecodeError} (hsrc : s.job.src.backing.reliable)
    (hd : decode s.cfg (s.job.src.bytes.drop s.pc) = .error e) : fetch s = .error .ended := by
  cases hf : fetch s with
  | ok i =>
    obtain ⟨_, rest, hok⟩ := fetch_ok hf
    cases hd.symm.trans hok
  | error r =>
    cases r with
    | ended => rfl
    | failed =>
      obtain ⟨f, hfails⟩ := fetch_failed hf
      cases hsrc.symm.trans hfails

/-- Settles O30: the fetch ends, so the step is only the error. -/
theorem truncatedOpcodeHasNoEffect : Obligations.TruncatedOpcodeHasNoEffect := by
  unfold Obligations.TruncatedOpcodeHasNoEffect
  intro s e hb hm hop hsrc hd
  have hstep : step s = .next (s.raise .truncated (decodeProgress s.job s.pc s.op)) := by
    rw [step_decodeBody hb hm hop, decodeStep_unread (fetch_ended hsrc hd)]; rfl
  exact ⟨_, hstep, rfl, rfl, rfl, rfl, rfl, rfl, rfl, rfl, rfl, rfl, rfl⟩

/-! ### The padding -/

/-- The padding check, where the eight bytes cannot be read. -/
theorem decodeTail_unread {s : State} {e : ReadError} (h : memRead s.job.src s.pc 8 = .error e) :
    decodeTail s = .next (s.raise e.code (decodeProgress s.job s.pc s.op)) := by
  simp only [decodeTail, h]

/-- The padding check of the padding. -/
theorem decodeTail_padding {s : State} (h : memRead s.job.src s.pc 8 = .ok s.cfg.padding) :
    decodeTail s = .next (s.advance 8).setTailDone := by
  simp only [decodeTail, h, if_true]

/-- The padding check of eight other bytes. -/
theorem decodeTail_invalid {s : State} {bytes : List Byte} (h : memRead s.job.src s.pc 8 = .ok bytes)
    (hne : bytes ≠ s.cfg.padding) :
    decodeTail s = .next (s.raise .invalidPadding (decodeProgress s.job s.pc s.op)) := by
  simp only [decodeTail, h, if_neg hne]

/-- Settles O32: the step is the padding check, whose outcome is that of the read and of the comparison. -/
theorem paddingCheckOutcomes : Obligations.PaddingCheckOutcomes := by
  unfold Obligations.PaddingCheckOutcomes
  intro s hb hm hop hf ht hsrc
  rw [step_decodeTail hb hm hop hf ht]
  refine ⟨fun hpad => ?_, fun hshort => ?_, fun hin hbad => ?_⟩
  · have hlength := congrArg List.length hpad
    rw [List.length_take, List.length_drop] at hlength
    have hin : 8 ≤ s.job.src.bytes.length - s.pc := min_eq_left_iff.1 hlength
    exact decodeTail_padding (by rw [memRead_reliable hsrc (by omega), hpad]; rfl)
  · exact ⟨_, decodeTail_unread (memRead_short hshort), rfl, rfl, rfl, rfl, rfl⟩
  · exact ⟨_, decodeTail_invalid (memRead_reliable hsrc hin) hbad, rfl, rfl, rfl, rfl, rfl⟩

end Sys2Proof.Machine
end

section
/-! PROOFS. The interfaces beside the engine's run: every opcode completes on a slice (O25), the header collaborator (O58) and the
size helper (O59). -/

namespace Sys2Proof.Machine

open Sys2Proof

/-- Settles O25: a slice never fails, so the opcode's effect is `opDone`. -/
theorem sliceSinkOpcodeCompletes : Obligations.SliceSinkOpcodeCompletes := by
  unfold Obligations.SliceSinkOpcodeCompletes
  intro i s b hslice
  have hexec := exec_next_of_reliable (s := s) (by rw [hslice]; rfl) i
  exact ⟨s.opDone i, hexec, rfl, rfl, rfl, rfl, rfl, rfl, rfl⟩

/-! ### The header -/

/-- Four bytes, most significant first, as a number (43_interfaces.md R206). -/
theorem four_bytes_toNat (b3 b2 b1 b0 : Byte) :
    (b3 ++ b2 ++ b1 ++ b0).toNat = b3.toNat * 2 ^ 24 + b2.toNat * 2 ^ 16 + b1.toNat * 2 ^ 8 + b0.toNat := by
  simp only [toNat_append_eq]
  omega

/-- The big-endian bytes of the value of four bytes are those bytes. -/
theorem bigEndian_four_bytes (b3 b2 b1 b0 : Byte) : bigEndian (b3 ++ b2 ++ b1 ++ b0) = [b3, b2, b1, b0] := by
  have := b3.isLt; have := b2.isLt; have := b1.isLt; have := b0.isLt
  simp only [bigEndian, List.cons.injEq, ← BitVec.toNat_inj, toNat_extract_eq, four_bytes_toNat, and_true]
  omega

/-- The bytes of a big-endian value give the value back. -/
theorem four_bytes_of_bigEndian (v : BitVec 32) :
    v.extractLsb' 24 8 ++ v.extractLsb' 16 8 ++ v.extractLsb' 8 8 ++ v.extractLsb' 0 8 = v := by
  apply BitVec.eq_of_toNat_eq
  have := v.isLt
  simp only [four_bytes_toNat, toNat_extract_eq]
  omega

theorem legalChannels_iff (n : Nat) : legalChannels n = true ↔ n = 3 ∨ n = 4 := by
  simp only [legalChannels, Bool.or_eq_true, beq_iff_eq]

theorem legalChannels_byte (b : Byte) : legalChannels b.toNat = true ↔ b = 3 ∨ b = 4 := by
  rw [legalChannels_iff, ← BitVec.toNat_inj, ← BitVec.toNat_inj]
  rfl

/-- The header checks on fields that stand in the 14 bytes in big-endian form (43_interfaces.md R206). -/
theorem readHeader_fields (m : BitVec 32) (h : Header) (rest : List Byte) :
    readHeader (bigEndian m ++ h.bytes.drop 4 ++ rest) =
      if m ≠ Config.magic then .error .invalidMagic
      else if h.channels ≠ 3 ∧ h.channels ≠ 4 then .error .invalidChannels
      else if Config.maxPixels < h.pixels then .error .imageTooLarge
      else .ok (h, rest) := by
  have hchannels : (!legalChannels h.channels.toNat) = true ↔ h.channels ≠ 3 ∧ h.channels ≠ 4 := by
    rw [Bool.not_eq_true', ← Bool.not_eq_true, legalChannels_byte, not_or]
  simp only [bigEndian, Header.bytes, List.cons_append, List.nil_append, List.drop_succ_cons, List.drop_zero, readHeader,
    four_bytes_of_bigEndian, hchannels]

/-- The header checks on the bytes of a header. -/
theorem readHeader_bytes (h : Header) (rest : List Byte) :
    readHeader (h.bytes ++ rest) =
      if h.channels ≠ 3 ∧ h.channels ≠ 4 then .error .invalidChannels
      else if Config.maxPixels < h.pixels then .error .imageTooLarge
      else .ok (h, rest) := by
  have hread := readHeader_fields Config.magic h rest
  rwa [if_neg (not_not_intro rfl)] at hread

theorem readHeader_short {bs : List Byte} (h : bs.length < 14) : readHeader bs = .error .truncated := by
  unfold readHeader
  split
  · simp only [List.length_cons] at h
    omega
  · rfl

/-- Settles O58: any 14 bytes are those of four big-endian fields, on which `readHeader_fields` gives the checks. -/
theorem headerChecksInOrder : Obligations.HeaderChecksInOrder := by
  unfold Obligations.HeaderChecksInOrder
  refine ⟨fun _ => readHeader_short, ?_, fun m h rest => ⟨rfl, fun hm => ?_, fun h3 h4 => ?_, fun hch => ?_⟩⟩
  · intro b0 b1 b2 b3 b4 b5 b6 b7 b8 b9 b10 b11 b12 b13 rest m w h hm hw hh
    rw [← four_bytes_toNat] at hm hw hh
    subst hm hw hh
    have hread := readHeader_fields (b0 ++ b1 ++ b2 ++ b3)
      { width := b4 ++ b5 ++ b6 ++ b7, height := b8 ++ b9 ++ b10 ++ b11, channels := b12, colourSpace := b13 } rest
    simp only [Header.bytes, bigEndian_four_bytes] at hread
    simp only [ne_eq, BitVec.toNat_inj, BitVec.ofNat_toNat, BitVec.setWidth_eq]
    exact hread
  · rw [readHeader_fields, if_pos hm]
  · rw [readHeader_bytes, if_pos ⟨h3, h4⟩]
  · rw [readHeader_bytes, if_neg (by tauto)]
    rfl

/-! ### The size helper -/

/-- A job whose capacity suffices fails no check for its capacity (60_exceptions.md R223). -/
theorem check_ne_outputBufferTooSmall {j : Job} (h : j.required ≤ j.sink.cap) : j.check ≠ .outputBufferTooSmall := by
  rw [Job.check, if_neg (Nat.not_lt.2 h)]
  split
  · nofun
  · split
    · nofun
    · split <;> nofun

/-- Settles O59: the job's pixel count is `w * h`, and without the header both sizes are the same. -/
theorem maxEncodedSizeSuffices : Obligations.MaxEncodedSizeSuffices := by
  unfold Obligations.MaxEncodedSizeSuffices
  intro j w h hm hlen hch
  have hpixels : encodePixels j = w * h := by rw [encodePixels, hlen, Nat.mul_div_cancel _ hch]
  refine ⟨?_, check_ne_outputBufferTooSmall⟩
  rw [required_encode hm, hpixels, maxEncodedSize]
  split
  · omega
  · rfl

end Sys2Proof.Machine
end

section
/-! PROOFS. A job run to its end by `runJob`: within `stepsLeft` steps it is over, and it ends where `completes` says, whatever
software does next. -/

namespace Sys2Proof.Machine

open Sys2Proof

/-! ### A running job ends within `stepsLeft` -/

theorem stepsLeft_encode {s : State} (h : s.job.mode = .encode) : stepsLeft s = encodePixels s.job - s.pi + 2 := by
  simp only [stepsLeft, h]

theorem stepsLeft_decode {s : State} (h : s.job.mode = .decode) : stepsLeft s = s.job.nPixels - s.op + 2 := by
  simp only [stepsLeft, h]

/-- `stepsLeft`, less the TAIL step once it has been taken: every step that does not end the job takes one off. -/
def stepsToEnd (s : State) : Nat := stepsLeft s - s.tailDone.toNat

theorem stepsToEnd_pos (s : State) (hm : s.job.mode ≠ .illegal) : 0 < stepsToEnd s := by
  have htail := s.tailDone.toNat_le
  cases hmode : s.job.mode with
  | encode => rw [stepsToEnd, stepsLeft_encode hmode]; omega
  | decode => rw [stepsToEnd, stepsLeft_decode hmode]; omega
  | illegal => exact absurd hmode hm

/-- A BODY step that consumes a pixel of an encode job. -/
theorem stepsToEnd_encodeBody {s t : State} (hm : s.job.mode = .encode) (hjob : t.job = s.job)
    (htail : t.tailDone = s.tailDone) (hpi : s.pi < encodePixels s.job) (h : t.pi = s.pi + 1) :
    stepsToEnd t < stepsToEnd s := by
  have htaken := s.tailDone.toNat_le
  rw [stepsToEnd, stepsToEnd, stepsLeft_encode hm, stepsLeft_encode (by rw [hjob, hm]), hjob, htail, h]
  omega

/-- A BODY step that writes a pixel of a decode job. -/
theorem stepsToEnd_decodeBody {s t : State} (hm : s.job.mode = .decode) (hjob : t.job = s.job)
    (htail : t.tailDone = s.tailDone) (hop : s.op < s.job.nPixels) (h : s.op < t.op) : stepsToEnd t < stepsToEnd s := by
  have htaken := s.tailDone.toNat_le
  rw [stepsToEnd, stepsToEnd, stepsLeft_decode hm, stepsLeft_decode (by rw [hjob, hm]), hjob, htail]
  omega

/-- A TAIL step. -/
theorem stepsToEnd_tail {s t : State} (hm : s.job.mode ≠ .illegal) (hleft : stepsLeft t = stepsLeft s)
    (hs : s.tailDone = false) (ht : t.tailDone = true) : stepsToEnd t < stepsToEnd s := by
  have hpos := stepsToEnd_pos s hm
  rw [stepsToEnd, hs, Bool.toNat_false] at hpos
  rw [stepsToEnd, stepsToEnd, hs, ht, hleft, Bool.toNat_false, Bool.toNat_true]
  omega

/-- Every step of a running job ends it or leaves fewer steps (70_reset_and_hazards.md R263). -/
theorem step_ends_or_progresses {s t : State} (hb : s.status.state = .busy) (hm : s.job.mode ≠ .illegal)
    (h : step s = .next t) : t.status.state ≠ .busy ∨ stepsToEnd t < stepsToEnd s := by
  have hraise : ∀ e p (u : State), (u.raise e p).status.state ≠ .busy := fun _ _ _ => by simp
  have hfinish : (finishJob s).status.state ≠ .busy := by simp [finishJob]
  rcases step_busy_cases hb h with ⟨hmode, hpi, h⟩ | ⟨hmode, _, _, ht, h⟩ | ⟨_, _, _, rfl⟩ | ⟨hmode, hop, h⟩ |
    ⟨hmode, _, _, ht, h⟩ | ⟨_, _, _, rfl⟩ | ⟨hmode, _⟩
  · rcases encodeStep_cases h with ⟨_, _, _, _, _, he, _⟩ | ⟨_, _, rfl⟩
    · rcases emit_cases he with ⟨_, rfl⟩ | ⟨_, _, _, rfl⟩
      · exact .inr (stepsToEnd_encodeBody hmode rfl rfl hpi rfl)
      · exact .inl (hraise _ _ _)
    · exact .inl (hraise _ _ _)
  · rcases emit_cases h with ⟨_, rfl⟩ | ⟨_, _, _, rfl⟩
    · refine .inr (stepsToEnd_tail hm ?_ ht rfl)
      rw [stepsLeft_encode hmode]
      exact stepsLeft_encode hmode
    · exact .inl (hraise _ _ _)
  · exact .inl hfinish
  · cases hf : fetch s with
    | error e =>
      rw [decodeStep_unread hf] at h
      cases h
      exact .inl (hraise _ _ _)
    | ok i =>
      rw [decodeStep_fetched hf] at h
      have hcount := pixelCount_pos i
      have hclamp : 0 < clampRun s (pixelCount i) := by rw [clampRun]; omega
      rcases exec_cases h with ⟨_, _, _, rfl, _⟩ | ⟨_, _, _, rfl⟩
      · exact .inr (stepsToEnd_decodeBody hmode rfl rfl hop (Nat.lt_add_of_pos_right hclamp))
      · exact .inl (hraise _ _ _)
  · rcases decodeTail_cases h with ⟨_, rfl⟩ | ⟨_, _, rfl⟩ | ⟨_, _, _, rfl⟩
    · exact .inr (stepsToEnd_tail hm rfl ht rfl)
    · exact .inl (hraise _ _ _)
    · exact .inl (hraise _ _ _)
  · exact .inl hfinish
  · exact absurd hmode hm

theorem encodeStep_answers (s : State) : ∃ t, encodeStep s = .next t := by
  cases hr : memRead s.job.src (s.pi * s.job.ch) s.job.ch with
  | error e => exact ⟨_, encodeStep_unread hr⟩
  | ok raw =>
    rw [encodeStep_read hr]
    split
    · exact emit_answers _ _ _
    · exact emit_answers _ _ _

theorem decodeStep_answers (s : State) : ∃ t, decodeStep s = .next t := by
  cases hf : fetch s with
  | error e => exact ⟨_, decodeStep_unread hf⟩
  | ok i =>
    rw [decodeStep_fetched hf, exec_eq]
    exact writePixels_answers _ _ _

theorem decodeTail_answers (s : State) : ∃ t, decodeTail s = .next t := by
  cases hr : memRead s.job.src s.pc 8 with
  | error e => exact ⟨_, decodeTail_unread hr⟩
  | ok bytes =>
    by_cases hp : bytes = s.cfg.padding
    · exact ⟨_, decodeTail_padding (by rw [hr, hp])⟩
    · exact ⟨_, decodeTail_invalid hr hp⟩

/-- Every step answers a next state: nothing faults or is refused (60_exceptions.md R232). -/
theorem step_answers (s : State) : ∃ t, step s = .next t := by
  by_cases hb : s.status.state = .busy
  · rw [step_busy hb]
    cases phase s with
    | encodeBody => exact encodeStep_answers s
    | decodeBody => exact decodeStep_answers s
    | encodeTail => exact emit_answers _ _ _
    | decodeTail => exact decodeTail_answers s
    | finish => exact ⟨_, rfl⟩
    | noMode => exact ⟨_, rfl⟩
  · exact ⟨_, step_idle hb⟩

theorem runJob_ends {s : State} (hm : s.job.mode ≠ .illegal) {n : Nat} (hn : stepsToEnd s ≤ n) :
    (runJob n s).status.state ≠ .busy := by
  induction n generalizing s with
  | zero => exact absurd (stepsToEnd_pos s hm) (by omega)
  | succ n ih =>
    by_cases hb : s.status.state = .busy
    · obtain ⟨t, ht⟩ := step_answers s
      rw [runJob_step hb ht]
      rcases step_ends_or_progresses hb hm ht with hend | hless
      · rwa [runJob_idle hend]
      · obtain ⟨_, hjob, _⟩ := step_busy_sameDescriptor hb ht
        exact ih (by rwa [hjob]) (by omega)
    · rwa [runJob_idle hb]

/-- No step of the run of a job changes its descriptor (10_state.md R30). -/
theorem runJob_job (n : Nat) (s : State) : (runJob n s).job = s.job := by
  induction n generalizing s with
  | zero => rfl
  | succ n ih =>
    by_cases hb : s.status.state = .busy
    · obtain ⟨t, ht⟩ := step_answers s
      obtain ⟨_, hjob, _⟩ := step_busy_sameDescriptor hb ht
      rw [runJob_step hb ht, ih, hjob]
    · rw [runJob_idle hb]

/-! ### What software does next -/

/-- The machine without what software does next (log 12). -/
def State.withoutPending (s : State) : State := { s with pending := [] }

theorem emit_withoutPending {before after t : State} {bytes : List Byte} (h : emit before after bytes = .next t) :
    emit before.withoutPending after.withoutPending bytes = .next t.withoutPending := by
  rcases emit_cases h with ⟨hk, rfl⟩ | ⟨k, hk, hlt, rfl⟩
  · exact emit_next (before := before.withoutPending) (after := after.withoutPending) hk
  · subst hk
    exact emit_refused (before := before.withoutPending) (after := after.withoutPending) hlt.ne

theorem writePixels_withoutPending {before after t : State} {n : Nat} (h : writePixels before after n = .next t) :
    writePixels before.withoutPending after.withoutPending n = .next t.withoutPending := by
  rcases writePixels_cases h with ⟨hk, rfl⟩ | ⟨k, hk, hlt, rfl⟩
  · exact writePixels_next (before := before.withoutPending) (after := after.withoutPending) hk
  · subst hk
    exact if_neg hlt.ne

theorem encodeStep_withoutPending {s t : State} (h : encodeStep s = .next t) :
    encodeStep s.withoutPending = .next t.withoutPending := by
  cases hr : memRead s.job.src (s.pi * s.job.ch) s.job.ch with
  | error e =>
    rw [encodeStep_unread hr] at h
    cases h
    exact encodeStep_unread (s := s.withoutPending) hr
  | ok raw =>
    rw [encodeStep_read hr] at h
    rw [encodeStep_read (s := s.withoutPending) hr]
    by_cases hpx : readPixel s.job.ch raw s.cur = s.px
    · rw [if_pos hpx] at h
      exact (if_pos hpx).trans (emit_withoutPending h)
    · rw [if_neg hpx] at h
      exact (if_neg hpx).trans (emit_withoutPending h)

theorem decodeStep_withoutPending {s t : State} (h : decodeStep s = .next t) :
    decodeStep s.withoutPending = .next t.withoutPending := by
  cases hf : fetch s with
  | error e =>
    rw [decodeStep_unread hf] at h
    cases h
    exact decodeStep_unread (s := s.withoutPending) hf
  | ok i =>
    rw [decodeStep_fetched hf, exec_eq] at h
    rw [decodeStep_fetched (s := s.withoutPending) hf, exec_eq]
    exact writePixels_withoutPending h

theorem decodeTail_withoutPending {s t : State} (h : decodeTail s = .next t) :
    decodeTail s.withoutPending = .next t.withoutPending := by
  rcases decodeTail_cases h with ⟨hr, rfl⟩ | ⟨e, hr, rfl⟩ | ⟨bytes, hr, hne, rfl⟩
  · exact decodeTail_padding (s := s.withoutPending) hr
  · exact decodeTail_unread (s := s.withoutPending) hr
  · exact decodeTail_invalid (s := s.withoutPending) hr hne

/-- A step of a running job does not look at what software does next. -/
theorem step_withoutPending {s t : State} (hb : s.status.state = .busy) (h : step s = .next t) :
    step s.withoutPending = .next t.withoutPending := by
  have hphase : phase s.withoutPending = phase s := rfl
  rw [step_busy hb] at h
  rw [step_busy (s := s.withoutPending) hb, hphase]
  cases hp : phase s with rw [hp] at h
  | encodeBody => exact encodeStep_withoutPending h
  | decodeBody => exact decodeStep_withoutPending h
  | encodeTail => exact emit_withoutPending h
  | decodeTail => exact decodeTail_withoutPending h
  | finish => cases h; rfl
  | noMode => cases h; rfl

theorem runJob_withoutPending (n : Nat) (s : State) : runJob n s.withoutPending = (runJob n s).withoutPending := by
  induction n generalizing s with
  | zero => rfl
  | succ n ih =>
    by_cases hb : s.status.state = .busy
    · obtain ⟨t, ht⟩ := step_answers s
      rw [runJob_step hb ht, runJob_step (s := s.withoutPending) hb (step_withoutPending hb ht), ih]
    · rw [runJob_idle hb, runJob_idle (s := s.withoutPending) hb]

/-! ### `runJob` and `completes` -/

/-- Where software does nothing next, a run that has ended stays, so `runJob` gives the state of any longer run. -/
theorem runJob_eq_of_run {s e : State} {k n : Nat} (hp : s.pending = []) (hrun : Host.Core.run core k s = .next e)
    (he : e.status.state ≠ .busy) (hn : (runJob n s).status.state ≠ .busy) : runJob n s = e := by
  induction k generalizing s n with
  | zero =>
    cases hrun
    exact runJob_idle he n
  | succ k ih =>
    obtain ⟨t, ht⟩ := step_answers s
    have hstep : core.step s = .next t := ht
    simp only [Host.Core.run, hstep] at hrun
    by_cases hb : s.status.state = .busy
    · cases n with
      | zero => exact absurd hb hn
      | succ n =>
        obtain ⟨_, _, hpending⟩ := step_busy_sameDescriptor hb ht
        rw [runJob_step hb ht] at hn ⊢
        exact ih (hpending.trans hp) hrun hn
    · rw [step_idle hb, idleStep_nil hp] at ht
      cases ht
      exact ih hp hrun hn

/-- A started job that completes, run by `runJob` within its bound, ends in the completed state. -/
theorem runJob_of_completes {s e : State} (hm : s.job.mode ≠ .illegal) (h : completes s.withoutPending e) :
    (runJob (stepsLeft s) s).withoutPending = e := by
  obtain ⟨k, hrun, hdone⟩ := h
  have hends : (runJob (stepsLeft s) s).status.state ≠ .busy := runJob_ends hm (Nat.sub_le _ _)
  rw [← runJob_withoutPending]
  refine runJob_eq_of_run rfl hrun (by rw [hdone]; nofun) ?_
  rw [runJob_withoutPending]
  exact hends

end Sys2Proof.Machine
end

section
/-! PROOFS. The calls (O60): what a call's job gives, the bound on the encoder's bytes, and the round trip. -/

namespace Sys2Proof.Machine

open Sys2Proof

/-! ### The job of a call -/

/-- The state after one job with the descriptor `j` and a new sink, run to its end (43_interfaces.md R200). -/
def State.jobRun (s : State) (j : Job) : State :=
  let t := startJob ((s.setJob j).setOut [])
  runJob (stepsLeft t) t

theorem jobCall_encode {s : State} (h : s.status.state ≠ .busy) (pixels : Source) (n ch : Nat) (framed : Bool)
    (cacheIn : CacheIn) (sink : Sink) : jobCall s (encodeActions pixels n ch framed cacheIn sink) =
      s.jobRun (encodeJob s.job pixels n ch framed cacheIn sink) := by
  rw [jobCall, performAll_encode h, State.jobRun]

theorem jobCall_decode {s : State} (h : s.status.state ≠ .busy) (input : Source) (n ch : Nat) (outCh : Option Nat)
    (framed : Bool) (cacheIn : CacheIn) (sink : Sink) : jobCall s (decodeActions input n ch outCh framed cacheIn sink) =
      s.jobRun (decodeJob input n ch outCh framed cacheIn sink) := by
  rw [jobCall, performAll_decode h, State.jobRun]

theorem startJob_job (s : State) : (startJob s).job = s.job := by
  rcases startJob_cases s with ⟨_, h⟩ | ⟨_, _, _, _, _, h, _⟩ <;> rw [h] <;> rfl

theorem jobRun_job (s : State) (j : Job) : (s.jobRun j).job = j := (runJob_job _ _).trans (startJob_job _)

/-- The job of a call ends where `completes` says. -/
theorem jobRun_of_completes {s e : State} {j : Job} (hm : j.mode ≠ .illegal) (hcheck : j.check = .none)
    (h : completes (startJob ((s.setOut []).withoutPending.setJob j)) e) : (s.jobRun j).withoutPending = e := by
  have hstart : startJob ((s.setOut []).withoutPending.setJob j) = (startJob ((s.setJob j).setOut [])).withoutPending := by
    rw [startJob_checked (s := (s.setOut []).withoutPending.setJob j) hcheck,
      startJob_checked (s := (s.setJob j).setOut []) hcheck]
    rfl
  rw [hstart] at h
  exact runJob_of_completes (by rwa [startJob_job]) h

/-- A job whose checks fail gives the error of the check (60_exceptions.md R229). -/
theorem result_jobRun_of_check (s : State) {j : Job} (h : j.check ≠ .none) (n : Nat) :
    (s.jobRun j).result n = .error j.check := by
  rcases startJob_cases ((s.setJob j).setOut []) with ⟨hnone, _⟩ | ⟨e, a, r, _, he, hstart, _⟩
  · exact absurd hnone h
  · have hcheck : j.check = e := he
    rw [State.jobRun, hstart, runJob_idle (by simp), hcheck]
    rfl

/-- The result of a job that is DONE and has written just the bytes asked for. -/
theorem result_of_written {s : State} {bytes : List Byte} {n : Nat} (hdone : s.status.state = .done)
    (hout : s.out = Memory.writeBytes [] 0 bytes) (hn : n = bytes.length) : s.result n = .ok bytes := by
  rw [State.result, if_pos hdone, hout, hn, firstBytes_eq fun a ha => Memory.read_writeBytes_zero _ ha]

/-- A checked encode job of a call gives the engine's bytes. -/
theorem result_jobRun_encode (s : State) {j : Job} (hm : j.mode = .encode) (hcheck : j.check = .none)
    (hsrc : j.src.backing.reliable) (hsink : j.sink.backing.reliable) :
    (s.jobRun j).result (s.jobRun j).status.bytesOut = .ok (jobBytes s.cfg j) := by
  obtain ⟨e, hcomp, hout, hstatus⟩ := encodeJob_completes (s.setOut []).withoutPending hm hcheck hsrc hsink
  have hend := jobRun_of_completes (by rw [hm]; nofun) hcheck hcomp
  rw [← hend] at hout hstatus
  have hstatus' : (s.jobRun j).status = _ := hstatus
  exact result_of_written (by rw [hstatus']; rfl) hout (by rw [hstatus']; rfl)

/-- A checked decode job of a call over the bytes of an encode job gives that job's input. -/
theorem decodedPixels_jobRun (u : State) {je jd : Job} (hc : u.cfg.wf = true) (hme : je.mode = .encode)
    (hcheckE : je.check = .none) (hmd : jd.mode = .decode) (hcheck : jd.check = .none) (hsrc : jd.src.backing.reliable)
    (hsink : jd.sink.backing.reliable) (hch : jd.ch = je.ch) (houtCh : jd.outCh = je.ch) (hn : jd.nPixels = encodePixels je)
    (hf : jd.framed = je.framed) (hcache : jd.cacheIn = je.cacheIn) (hbytes : jd.src.bytes = jobBytes u.cfg je) :
    (u.jobRun jd).decodedPixels = .ok je.src.bytes := by
  obtain ⟨d, hcomp, hout, hstatus⟩ := decodeJob_completes (u.setOut []).withoutPending hc hme hcheckE hmd hcheck hsrc hsink
    hch houtCh hn hf hcache hbytes
  have hend := jobRun_of_completes (by rw [hmd]; nofun) hcheck hcomp
  rw [← hend] at hout hstatus
  have hstatus' : (u.jobRun jd).status = _ := hstatus
  refine result_of_written (by rw [hstatus']; rfl) hout ?_
  rw [hstatus', jobRun_job]
  show jd.nPixels * jd.outCh = je.inLen
  rw [hn, houtCh, check_none_length hcheckE hme]

/-! ### The START checks of a call's job -/

theorem check_eq_none {j : Job} (hinvalid : j.invalid = false) (hchannels : j.badChannels = false)
    (hlength : j.badLength = false) (hcap : j.required ≤ j.sink.cap) : j.check = .none := by
  rw [Job.check, hinvalid, hchannels, hlength, if_neg (Nat.not_lt.2 hcap)]
  rfl

theorem invalid_eq_false {j : Job} (hm : j.mode ≠ .illegal) (hcache : j.cacheIn.legal = true) (hdisj : disjoint j.src j.sink) :
    j.invalid = false := by
  rw [Job.invalid, hcache, overlap_of_disjoint hdisj, beq_eq_false_iff_ne.2 hm]
  rfl

section
variable (j : Job) {pixels : Source} {n ch : Nat} (framed : Bool) {cacheIn : CacheIn} {k : Sink}
  (hch : ch = 3 ∨ ch = 4) (hcache : cacheIn.legal = true) (hdisj : disjoint pixels k)

include hch hcache hdisj

/-- A buffer that is not `n` pixels long (60_exceptions.md R224). -/
theorem encodeJob_check_length (h : pixels.bytes.length ≠ n * ch) :
    (encodeJob j pixels n ch framed cacheIn k).check = .invalidSourceLength := by
  have hinvalid : (encodeJob j pixels n ch framed cacheIn k).invalid = false := invalid_eq_false nofun hcache hdisj
  have hchannels : (encodeJob j pixels n ch framed cacheIn k).badChannels = false := by
    simp [Job.badChannels, encodeJob, (legalChannels_iff ch).2 hch]
  have hlength : (encodeJob j pixels n ch framed cacheIn k).badLength = true := by
    simp [Job.badLength, encodeJob, Job.inLen, Ne.symm h]
  rw [Job.check, hinvalid, hchannels, hlength]
  rfl

theorem encodeJob_check (h : pixels.bytes.length = n * ch) (hcap : n * (ch + 1) + (if framed then 8 else 0) ≤ k.cap) :
    encodePixels (encodeJob j pixels n ch framed cacheIn k) = n ∧
    (encodeJob j pixels n ch framed cacheIn k).required = n * (ch + 1) + (if framed then 8 else 0) ∧
    (encodeJob j pixels n ch framed cacheIn k).check = .none := by
  have hpixels : encodePixels (encodeJob j pixels n ch framed cacheIn k) = n := by
    show pixels.bytes.length / ch = n
    rw [h, Nat.mul_div_cancel _ (by omega)]
  have hrequired : (encodeJob j pixels n ch framed cacheIn k).required = n * (ch + 1) + (if framed then 8 else 0) := by
    rw [required_encode rfl, hpixels]; rfl
  refine ⟨hpixels, hrequired, check_eq_none (invalid_eq_false nofun hcache hdisj) ?_ ?_ (by rw [hrequired]; exact hcap)⟩
  · simp [Job.badChannels, encodeJob, (legalChannels_iff ch).2 hch]
  · simp [Job.badLength, encodeJob, Job.inLen, h]

theorem decodeJob_check {outCh : Option Nat} (houtCh : outCh.getD ch = ch) (hcap : n * ch ≤ k.cap) :
    (decodeJob pixels n ch outCh framed cacheIn k).check = .none := by
  refine check_eq_none (invalid_eq_false nofun hcache hdisj) ?_ rfl ?_
  · simp [Job.badChannels, decodeJob, Job.outCh, houtCh, (legalChannels_iff ch).2 hch]
  · rw [required_decode rfl]
    show n * outCh.getD ch ≤ k.cap
    rwa [houtCh]

end

/-! ### The size of the encoder's output -/

/-- The opcodes of the pending run and of the pixels cost at most `CH + 1` bytes a pixel, where alpha is fixed in 3-channel
operation (41_encoder.md R138). -/
theorem encoderInstrs_budget (c : Config) {ch : Nat} (hch : ch = 3 ∨ ch = 4) (px : Pixel) {run : BitVec 16} (cache : Cache)
    (ps : List Pixel) (hr : run.toNat < runCap) (halpha : ch = 3 → ∀ p ∈ px :: ps, p.a = 255) :
    (encodeAll c (encoderInstrs c px run cache ps)).length ≤ (run.toNat + ps.length) * (ch + 1) := by
  induction ps generalizing px run cache with
  | nil => exact Nat.zero_le _
  | cons cur rest ih =>
    have hsplit : (run.toNat + (cur :: rest).length) * (ch + 1) = (run.toNat + 1) * (ch + 1) + rest.length * (ch + 1) := by
      rw [List.length_cons, ← Nat.add_mul]; congr 1; omega
    rw [hsplit]
    by_cases hpx : cur = px
    · subst hpx
      have hnow := repeatEmits_budget c rest.isEmpty hr (w := ch + 1) (by omega)
      have hlater := ih cur cache (repeatRun_lt rest.isEmpty hr) fun h3 p hp => halpha h3 p (List.mem_cons_of_mem _ hp)
      rw [encoderInstrs_repeat, encodeAll_append, List.length_append]
      rw [Nat.add_mul] at hlater
      omega
    · have hnow := changeStep_budget c px cur cache run hch fun h3 => by
        rw [halpha h3 cur (by simp), halpha h3 px (by simp)]
      have hlater := ih cur (changeCache cur cache) (run := 0) (by decide) fun h3 p hp =>
        halpha h3 p (List.mem_cons_of_mem _ hp)
      rw [encoderInstrs_change _ _ _ _ hpx, encodeAll_append, List.length_append]
      rw [Nat.add_mul, show (0 : BitVec 16).toNat = 0 from rfl, Nat.zero_mul, Nat.zero_add] at hlater
      omega

/-- The engine's bytes of an encode job are within the required size (41_encoder.md R138, 43_interfaces.md R203). -/
theorem jobBytes_length_le (c : Config) {j : Job} (hm : j.mode = .encode) (hch : j.ch = 3 ∨ j.ch = 4) :
    (jobBytes c j).length ≤ j.required := by
  have hbody := encoderInstrs_budget c hch Pixel.start (run := 0) j.cacheIn.load (inputPixels j) (by decide) fun h3 p hp => by
    rcases List.mem_cons.1 hp with rfl | hp
    · rfl
    · obtain ⟨k, _, rfl⟩ := List.mem_map.1 hp
      exact inputPixel_alpha h3 k
  rw [inputPixels_length, show (0 : BitVec 16).toNat = 0 from rfl, Nat.zero_add] at hbody
  have htrailer : (trailer c j).length = if j.framed then 8 else 0 := by
    rw [trailer]; split <;> rfl
  rw [jobBytes, List.length_append, htrailer, required_encode hm]
  exact Nat.add_le_add_right hbody _

/-! ### The calls -/

theorem encodeCall_result {s : State} (h : s.status.state ≠ .busy) {pixels : Source} {width height : BitVec 32} {n ch : Nat}
    {framed : Bool} {cacheIn : CacheIn} {k : Sink} {j : Job} (hn : n = width.toNat * height.toNat)
    (hj : j = encodeJob s.job pixels n ch framed cacheIn k) (colourSpace : Byte) :
    (encodeCall s pixels width height ch framed colourSpace cacheIn k).2 =
      ((s.jobRun j).result (s.jobRun j).status.bytesOut).map fun bytes =>
        if framed then fullStream (Header.ofEncode width height ch colourSpace) bytes else bytes := by
  simp only [encodeCall, jobCall_encode h, hj, hn]

theorem decodePayloadCall_result {s : State} (h : s.status.state ≠ .busy) (payload : Source) (n ch : Nat) (outCh : Option Nat)
    (cacheIn : CacheIn) (k : Sink) : (decodePayloadCall s payload n ch outCh cacheIn k).2 =
      (s.jobRun (decodeJob payload n ch outCh false cacheIn k)).decodedPixels := by
  simp only [decodePayloadCall, jobCall_decode h]

theorem decodeCall_result {s : State} (h : s.status.state ≠ .busy) {file rest : List Byte} {head : Header}
    (hread : readHeader file = .ok (head, rest)) (b : Backing) (outCh : Option Nat) (cacheIn : CacheIn) (k : Sink) :
    (decodeCall s file b outCh cacheIn k).2 =
      (s.jobRun (decodeJob { bytes := rest, backing := b } head.pixels head.channels.toNat outCh true cacheIn
        k)).decodedPixels.map fun pixels => (head, pixels) := by
  simp only [decodeCall, hread, jobCall_decode h]

theorem ofEncode_channels {ch : Nat} (hch : ch = 3 ∨ ch = 4) (width height : BitVec 32) (colourSpace : Byte) :
    (Header.ofEncode width height ch colourSpace).channels.toNat = ch := by
  rcases hch with rfl | rfl <;> rfl

/-- The header of an encode call passes the checks but for the pixel count. -/
theorem readHeader_ofEncode {ch : Nat} (hch : ch = 3 ∨ ch = 4) (width height : BitVec 32) (colourSpace : Byte)
    (rest : List Byte) : readHeader ((Header.ofEncode width height ch colourSpace).bytes ++ rest) =
      if Config.maxPixels < width.toNat * height.toNat then .error .imageTooLarge
      else .ok (Header.ofEncode width height ch colourSpace, rest) := by
  rw [readHeader_bytes, if_neg (by rcases hch with rfl | rfl <;> simp [Header.ofEncode])]
  rfl

section
variable {pixels : Source} {n ch : Nat} {framed : Bool} {cacheIn : CacheIn} {k : Sink}
  (hch : ch = 3 ∨ ch = 4) (hcache : cacheIn.legal = true) (hdisj : disjoint pixels k) (hlen : pixels.bytes.length = n * ch)
  (hcap : n * (ch + 1) + (if framed then 8 else 0) ≤ k.cap)

include hch hcache hdisj hlen hcap

theorem encodeCall_ok {s : State} (hs : s.status.state ≠ .busy) {width height : BitVec 32}
    (hn : n = width.toNat * height.toNat) (colourSpace : Byte) (hsrc : pixels.backing.reliable) (hsink : k.backing.reliable) :
    (encodeCall s pixels width height ch framed colourSpace cacheIn k).2 =
      .ok (if framed then (Header.ofEncode width height ch colourSpace).bytes ++
          jobBytes s.cfg (encodeJob s.job pixels n ch framed cacheIn k)
        else jobBytes s.cfg (encodeJob s.job pixels n ch framed cacheIn k)) := by
  obtain ⟨_, _, hcheck⟩ := encodeJob_check s.job framed hch hcache hdisj hlen hcap
  rw [encodeCall_result hs hn rfl, result_jobRun_encode s rfl hcheck hsrc hsink]
  rfl

/-- The decode job of a call over the bytes of an encode call's job. -/
theorem decodedPixels_of_encodeJob {u : State} (hc : u.cfg.wf = true) (j : Job) {b : Backing} (hb : b.reliable)
    {outCh : Option Nat} (houtCh : outCh.getD ch = ch) {l : Sink} (hl : l.backing.reliable) (hcapD : n * ch ≤ l.cap)
    (hdisjD : disjoint { bytes := jobBytes u.cfg (encodeJob j pixels n ch framed cacheIn k), backing := b } l) :
    (u.jobRun (decodeJob { bytes := jobBytes u.cfg (encodeJob j pixels n ch framed cacheIn k), backing := b } n ch outCh framed
      cacheIn l)).decodedPixels = .ok pixels.bytes := by
  obtain ⟨hpixels, _, hcheck⟩ := encodeJob_check j framed hch hcache hdisj hlen hcap
  exact decodedPixels_jobRun u hc rfl hcheck rfl (decodeJob_check framed hch hcache hdisjD houtCh hcapD) hb hl rfl houtCh
    hpixels.symm rfl rfl rfl

end

/-- Settles O60: both calls run one job each, the encoder's gives `jobBytes`, and the decoder's over those bytes the buffer. -/
theorem callsRoundTrip : Obligations.CallsRoundTrip := by
  unfold Obligations.CallsRoundTrip
  intro s u pixels width height ch framed colourSpace cacheIn k n head hs hu hc hcfg hch hcache hdisj hn hhead
  have hofEncode : head = Header.ofEncode width height ch colourSpace := hhead
  refine ⟨fun hlen => ?_, fun hlen hsrc hsink hcap => ?_⟩
  · have hcheck := encodeJob_check_length s.job framed hch hcache hdisj hlen
    rw [encodeCall_result hs hn rfl, result_jobRun_of_check s (by rw [hcheck]; nofun), hcheck]
    rfl
  · obtain ⟨_, hrequired, _⟩ := encodeJob_check s.job framed hch hcache hdisj hlen hcap
    have hsize := jobBytes_length_le s.cfg (j := encodeJob s.job pixels n ch framed cacheIn k) rfl hch
    rw [hrequired] at hsize
    have hencode := encodeCall_ok hch hcache hdisj hlen hcap hs hn colourSpace hsrc hsink
    rw [← hofEncode] at hencode
    refine ⟨_, hsize, hencode, fun b outCh l hb hl hcapD hdisjD houtCh => ?_⟩
    rw [← hcfg] at hc hdisjD ⊢
    have hpixels := decodedPixels_of_encodeJob hch hcache hdisj hlen hcap hc s.job hb houtCh hl hcapD hdisjD
    refine ⟨fun hframed => ?_, fun hframed => ?_⟩
    · rw [decodePayloadCall_result hu, ← hpixels, hframed]
    · have hread := readHeader_ofEncode hch width height colourSpace
        (jobBytes u.cfg (encodeJob s.job pixels n ch framed cacheIn k))
      rw [← hofEncode, ← hn] at hread
      split
      · rename_i hlarge
        rw [if_pos hlarge] at hread
        rw [decodeCall_bad_header hread]
      · rename_i hfits
        rw [if_neg hfits] at hread
        have hcount : head.pixels = n := by rw [hofEncode, hn]; rfl
        have hchannels : head.channels.toNat = ch := by rw [hofEncode, ofEncode_channels hch]
        rw [decodeCall_result hu hread, hcount, hchannels]
        rw [hframed] at hpixels ⊢
        rw [hpixels]
        rfl

end Sys2Proof.Machine
end

section
/-! PROOFS. The START checks (O39, O40, O46): the condition of each check, the STATUS that START leaves, and what carrying a
poisoned image leads to. -/

namespace Sys2Proof.Machine

open Sys2Proof

/-! ### The conditions of the checks -/

/-- `CACHE_IN` is refused where it is poisoned or an image of another size (60_exceptions.md R226). -/
theorem CacheIn.not_legal_iff (c : CacheIn) :
    (!c.legal) = true ↔ c = .poisoned ∨ ∃ es, c = .image es ∧ es.length ≠ 1088 := by
  cases c with
  | fresh => simp [CacheIn.legal]
  | image es => simp [CacheIn.legal]
  | poisoned => simp [CacheIn.legal]

/-- Two slices overlap where they have an address in common (20_memory.md R66; log 6). -/
theorem overlap_iff (j : Job) : j.overlap = true ↔ ∃ a b x, j.src.backing = .slice a ∧ j.sink.backing = .slice b ∧
    a ≤ x ∧ x < a + j.inLen ∧ b ≤ x ∧ x < b + j.sink.cap := by
  constructor
  · intro h
    by_contra hnone
    have hdisjoint : disjoint j.src j.sink := fun a b x ha hb hx => hnone ⟨a, b, x, ha, hb, hx⟩
    rw [overlap_of_disjoint hdisjoint] at h
    cases h
  · rintro ⟨a, b, x, ha, hb, hx⟩
    simp only [Job.overlap, ha, hb, decide_eq_true_iff]
    omega

theorem invalid_iff (j : Job) : j.invalid = true ↔ j.mode = .illegal ∨ j.cacheIn = .poisoned ∨
    (∃ es, j.cacheIn = .image es ∧ es.length ≠ 1088) ∨
    ∃ a b x, j.src.backing = .slice a ∧ j.sink.backing = .slice b ∧ a ≤ x ∧ x < a + j.inLen ∧ b ≤ x ∧
      x < b + j.sink.cap := by
  rw [Job.invalid, Bool.or_eq_true, Bool.or_eq_true, beq_iff_eq, CacheIn.not_legal_iff, overlap_iff, or_assoc, or_assoc]

theorem not_legalChannels_iff (n : Nat) : (!legalChannels n) = true ↔ n ≠ 3 ∧ n ≠ 4 := by
  rw [Bool.not_eq_true', ← Bool.not_eq_true, legalChannels_iff, not_or]

theorem badChannels_iff (j : Job) : j.badChannels = true ↔
    (j.ch ≠ 3 ∧ j.ch ≠ 4) ∨ (j.mode = .decode ∧ j.outCh ≠ 3 ∧ j.outCh ≠ 4) := by
  rw [Job.badChannels, Bool.or_eq_true, Bool.and_eq_true, beq_iff_eq, not_legalChannels_iff, not_legalChannels_iff]

theorem badLength_iff (j : Job) : j.badLength = true ↔ j.mode = .encode ∧
    (j.inLen % j.ch ≠ 0 ∨ (j.nGiven = true ∧ j.nPixels * j.ch ≠ j.inLen)) := by
  simp only [Job.badLength, Bool.and_eq_true, Bool.or_eq_true, beq_iff_eq, bne_iff_ne]

/-- The capacity check, by the mode (60_exceptions.md R223). -/
theorem noRoom_iff {j : Job} (hm : j.mode ≠ .illegal) : j.sink.cap < j.required ↔
    (j.mode = .encode ∧ j.sink.cap < j.inLen / j.ch * (j.ch + 1) + (if j.framed then 8 else 0)) ∨
    (j.mode = .decode ∧ j.sink.cap < j.nPixels * j.outCh) := by
  cases hmode : j.mode with
  | encode => simp [required_encode hmode, encodePixels]
  | decode => simp [required_decode hmode]
  | illegal => exact absurd hmode hm

/-! ### The STATUS that START leaves -/

theorem startJob_status_of_noRoom {s : State} (h : s.job.check = .outputBufferTooSmall) :
    (startJob s).status = Status.failed .outputBufferTooSmall s.job.sink.cap s.job.required Progress.zero := by
  rcases startJob_cases s with ⟨hnone, _⟩ | ⟨e, a, r, _, he, hs, hroom, _⟩
  · cases hnone.symm.trans h
  · cases he.symm.trans h
    obtain ⟨rfl, rfl⟩ := hroom rfl
    rw [hs]; rfl

theorem startJob_status_of_check {s : State} {e : ErrCode} (h : s.job.check = e) (hne : e ≠ .none)
    (hroom : e ≠ .outputBufferTooSmall) : (startJob s).status = Status.failed e 0 0 Progress.zero := by
  rcases startJob_cases s with ⟨hnone, _⟩ | ⟨e', a, r, _, he, hs, _, hzero⟩
  · exact absurd (h.symm.trans hnone) hne
  · cases he.symm.trans h
    obtain ⟨rfl, rfl⟩ := hzero hroom
    rw [hs]; rfl

/-- Settles O39: each condition is that of a check, and the first check that fails gives START's `STATUS`. -/
theorem startChecksInOrder : Obligations.StartChecksInOrder := by
  unfold Obligations.StartChecksInOrder
  intro s invalid channels length capacity hinvalid hchannels hlength hcapacity
  rw [← invalid_iff] at hinvalid
  rw [← badChannels_iff] at hchannels
  rw [← badLength_iff] at hlength
  have hroom : ¬ invalid → (capacity ↔ s.job.sink.cap < s.job.required) := fun hi =>
    hcapacity.trans (noRoom_iff fun hm => hi (hinvalid.2 ((invalid_iff _).2 (.inl hm)))).symm
  rw [hinvalid] at hroom ⊢
  rw [hchannels, hlength]
  refine ⟨fun hi => ?_, fun hi hc => ?_, fun hi hc hl => ?_, fun hi hc hl hk => ?_, fun hi hc hl hk => ?_⟩
  · have hcheck : s.job.check = .invalidJob := by rw [Job.check, if_pos hi]
    rw [startJob_status_of_check hcheck nofun nofun]
    exact ⟨rfl, rfl⟩
  · have hcheck : s.job.check = .invalidChannels := by rw [Job.check, if_neg hi, if_pos hc]
    rw [startJob_status_of_check hcheck nofun nofun]
    exact ⟨rfl, rfl⟩
  · have hcheck : s.job.check = .invalidSourceLength := by rw [Job.check, if_neg hi, if_neg hc, if_pos hl]
    rw [startJob_status_of_check hcheck nofun nofun]
    exact ⟨rfl, rfl, rfl, rfl⟩
  · have hcheck : s.job.check = .outputBufferTooSmall := by
      rw [Job.check, if_neg hi, if_neg hc, if_neg hl, if_pos ((hroom hi).1 hk)]
    rw [startJob_status_of_noRoom hcheck]
    exact ⟨rfl, rfl, rfl, required_encode, required_decode⟩
  · have hcheck : s.job.check = .none := by
      rw [Job.check, if_neg hi, if_neg hc, if_neg hl, if_neg (mt (hroom hi).2 hk)]
    rw [startJob_checked hcheck]
    rfl

/-- Settles O40: where START does not pass its checks, it only writes `STATUS`, twice. -/
theorem startFailureChangesOnlyStatus : Obligations.StartFailureChangesOnlyStatus := by
  unfold Obligations.StartFailureChangesOnlyStatus
  intro s hb
  rcases startJob_cases s with ⟨_, hs⟩ | ⟨e, a, r, he, _, hs, _⟩
  · rw [hs] at hb
    exact absurd rfl hb
  · exact ⟨e, a, r, he, hs⟩

/-! ### A poisoned image -/

theorem perform_carryCache {s : State} (hb : s.status.state ≠ .busy) :
    s.perform .carryCache = s.setJob { s.job with cacheIn := s.status.cacheOut.carry } := if_neg hb

theorem perform_start {s : State} (hb : s.status.state ≠ .busy) : s.perform .start = startJob s := if_neg hb

/-- Settles O46: the poisoned image carries over as poisoned `CACHE_IN`, which fails the first check. -/
theorem poisonedCacheIsRefused : Obligations.PoisonedCacheIsRefused := by
  unfold Obligations.PoisonedCacheIsRefused
  intro s hb hpoisoned
  have hidle : (s.perform .carryCache).status.state ≠ .busy := by rwa [perform_carryCache hb]
  have hcarried : (s.perform .carryCache).job.cacheIn = .poisoned := by
    rw [perform_carryCache hb, hpoisoned]; rfl
  have hcheck : (s.perform .carryCache).job.check = .invalidJob := if_pos ((invalid_iff _).2 (.inr (.inl hcarried)))
  rw [perform_start hidle, startJob_status_of_check hcheck nofun nofun]
  exact ⟨rfl, rfl⟩

end Sys2Proof.Machine
end

section
/-! PROOFS. Errors of a running job: a refusing sink (O26), a failing source (O31), and which errors each mode can end in (O55). And
that no error stops the machine (O53). -/

namespace Sys2Proof.Machine

open Sys2Proof

/-- Settles O53: an error is a next state too, so `step_answers` leaves no state out. -/
theorem stepAlwaysAnswers : Obligations.StepAlwaysAnswers := by
  unfold Obligations.StepAlwaysAnswers
  exact step_answers

/-! ### A sink that refuses a byte -/

/-- How many bytes of an opcode's pixels the sink takes (60_exceptions.md R225). -/
def State.pixelBytesTaken (s : State) (n : Nat) : Nat :=
  s.job.sink.accepts (s.op * s.job.outCh) (clampRun s n * s.job.outCh)

theorem State.pixelBytesTaken_le (s : State) (n : Nat) : s.pixelBytesTaken n ≤ clampRun s n * s.job.outCh :=
  Sink.accepts_le _ _ _

/-- Everything an opcode does where the sink refuses a byte of its pixels: the bytes the sink took are those that the opcode begins
to write where the sink takes all (60_exceptions.md R220, R225). -/
theorem exec_refused {i : Instr} {s : State} (hlegal : s.job.legalOut) (hrefused : ¬ s.takesPixels (pixelCount i)) :
    exec i s = .next ((s.setOut (Memory.writeBytes s.out (pixelAddr s)
        ((pixelBytes s.job (opPixel s.cfg s.px s.cache i) (clampRun s (pixelCount i))).take
          (s.pixelBytesTaken (pixelCount i))))).raise .ioError
      (decodeProgress s.job s.pc (s.op + s.pixelBytesTaken (pixelCount i) / s.job.outCh))) := by
  have hlen := pixelBytes_length_legal hlegal (opPixel s.cfg s.px s.cache i) (clampRun s (pixelCount i))
  have hne : s.pixelBytesTaken (pixelCount i) ≠ clampRun s (pixelCount i) * s.job.outCh := hrefused
  rw [State.pixelBytesTaken, ← hlen] at hne ⊢
  rw [exec_eq]
  exact if_neg hne

/-- Settles O26: `exec_refused`, beside `opDone` on a slice, which writes the same bytes and all that follow. -/
theorem sinkRefusalIsIoError : Obligations.SinkRefusalIsIoError := by
  unfold Obligations.SinkRefusalIsIoError
  intro i s hlegal hrefused
  have hslice := exec_next_of_reliable (s := s.withSink { s.job.sink with backing := .slice 0 }) rfl i
  have hpixels := (pixelsWritten_opDone (s := s.withSink { s.job.sink with backing := .slice 0 }) hlegal i).1
  have hlen := pixelBytes_length_legal hlegal (opPixel s.cfg s.px s.cache i) (clampRun s (pixelCount i))
  have hle := s.pixelBytesTaken_le (pixelCount i)
  have htaken := fun a => Memory.read_writeBytes_take s.out (pixelAddr s)
    (pixelBytes s.job (opPixel s.cfg s.px s.cache i) (clampRun s (pixelCount i))) (x := a) (hle.trans_eq hlen.symm)
  refine ⟨_, _, _, exec_refused hlegal hrefused, hslice, rfl, rfl, rfl, rfl, rfl, rfl, rfl, rfl, rfl, rfl, rfl, rfl,
    fun j c hc hk => ?_, htaken, fun a ha => ?_⟩
  · replace hk : j * s.job.outCh + c < s.pixelBytesTaken (pixelCount i) := hk
    have hj : j < clampRun s (pixelCount i) := Nat.lt_of_mul_lt_mul_right (a := s.job.outCh) (by omega)
    have haddr : (s.op + j) * s.job.outCh + c = pixelAddr s + (j * s.job.outCh + c) := by
      rw [pixelAddr, Nat.add_mul, Nat.add_assoc]
    exact (htaken _ (by omega) (by omega)).trans (hpixels j c hj hc)
  · refine Memory.read_writeBytes_outside _ _ _ ?_
    rw [List.length_take, hlen, min_eq_left hle]
    exact ha

/-! ### A source that fails -/

/-- A read whose bytes are there, on a stream that fails before their end. -/
theorem memRead_of_failsAt {src : Source} {a n f : Nat} (hin : a + n ≤ src.bytes.length)
    (hsrc : src.backing.failsAt = some f) (hf : f < a + n) : memRead src a n = .error .failed := by
  simp only [memRead, if_neg (Nat.not_lt.2 hin), hsrc, if_pos hf]

/-- The fetch fails with the source at the leading byte. -/
theorem fetch_failed_lead {s : State} {f : Nat} (hpc : s.pc < s.job.inLen) (hsrc : s.job.src.backing.failsAt = some f)
    (hf : f ≤ s.pc) : fetch s = .error .failed := by
  have hlead : memRead s.job.src s.pc 1 = .error .failed := memRead_of_failsAt hpc hsrc (by omega)
  simp only [fetch, hlead]

/-- The fetch fails with the source inside an opcode whose bytes are there: at the leading byte, or in the payload that it
selects. -/
theorem fetch_failed_opcode {s : State} {f : Nat} {i : Instr} {rest : List Byte}
    (hd : decode s.cfg (s.job.src.bytes.drop s.pc) = .ok (i, rest)) (hsrc : s.job.src.backing.failsAt = some f)
    (hf : f < s.pc + i.len) : fetch s = .error .failed := by
  obtain ⟨hlength, hlen, _⟩ := decode_ok hd
  have hpos := len_pos i
  rw [List.length_drop] at hlength
  by_cases hlt : f ≤ s.pc
  · exact fetch_failed_lead (by rw [Job.inLen]; omega) hsrc hlt
  · have hlead : memRead s.job.src s.pc 1 = .ok ((s.job.src.bytes.drop s.pc).take 1) :=
      memRead_of_le (by omega) fun g hg => by
        cases hsrc.symm.trans hg
        omega
    have hhead : ((s.job.src.bytes.drop s.pc).take 1).headD 0 = (s.job.src.bytes.drop s.pc).headD 0 := by
      cases s.job.src.bytes.drop s.pc <;> rfl
    have hpayload : memRead s.job.src (s.pc + 1) (i.len - 1) = .error .failed :=
      memRead_of_failsAt (by omega) hsrc (by omega)
    simp only [fetch, hlead, hhead, ← hlen, hpayload]

/-- Settles O31: in each phase the failing read is the step's only effect, the error that it raises. -/
theorem sourceFailureIsIoError : Obligations.SourceFailureIsIoError := by
  unfold Obligations.SourceFailureIsIoError
  intro s f hb hstream hcases
  have hsrc : s.job.src.backing.failsAt = some f := by rw [hstream]; rfl
  have hstep : (s.job.mode = .decode ∧ step s = .next (s.raise .ioError (decodeProgress s.job s.pc s.op))) ∨
      (s.job.mode = .encode ∧ step s = .next (s.raise .ioError (encodeProgress s.job s.pi s.op))) := by
    rcases hcases with ⟨hm, hop, hopcode⟩ | ⟨hm, hop, hframed, htail, hin, hf⟩ | ⟨hm, hpi, hf⟩
    · have hfetch : fetch s = .error .failed := by
        rcases hopcode with ⟨hpc, hf⟩ | ⟨i, rest, hd, hf⟩
        · exact fetch_failed_lead hpc hsrc hf
        · exact fetch_failed_opcode hd hsrc hf
      exact .inl ⟨hm, by rw [step_decodeBody hb hm hop, decodeStep_unread hfetch]; rfl⟩
    · have hread := memRead_of_failsAt hin hsrc hf
      exact .inl ⟨hm, by rw [step_decodeTail hb hm hop hframed htail, decodeTail_unread hread]; rfl⟩
    · rw [Nat.succ_mul] at hf
      have hread := memRead_of_failsAt (pixel_inside_input hpi) hsrc hf
      exact .inr ⟨hm, by rw [step_encodeBody hb hm hpi, encodeStep_unread hread]; rfl⟩
  rcases hstep with ⟨hm, hstep⟩ | ⟨hm, hstep⟩
  · exact ⟨_, hstep, rfl, rfl, rfl, rfl, rfl, rfl, rfl, rfl, rfl, rfl, fun _ => ⟨rfl, rfl⟩,
      fun he => absurd (hm.symm.trans he) nofun⟩
  · exact ⟨_, hstep, rfl, rfl, rfl, rfl, rfl, rfl, rfl, rfl, rfl, rfl,
      fun hd => absurd (hm.symm.trans hd) nofun, fun _ => ⟨rfl, rfl⟩⟩

/-! ### The errors of each mode -/

/-- The kinds of errors that a running decode job can end in (60_exceptions.md R221, R222, R225). -/
abbrev decodeErrors : List ErrCode := [.truncated, .invalidPadding, .ioError]

/-- A step from `s` to `t` keeps `STATUS`, or ends the job in an error of one of the kinds `es`. -/
def keepsStatusOrFails (s t : State) (es : List ErrCode) : Prop :=
  t.status = s.status ∨ ∃ e ∈ es, ∃ p, t.status = Status.failed e 0 0 p

theorem encodeStep_status {s t : State} (hpi : s.pi < encodePixels s.job) (h : encodeStep s = .next t) :
    keepsStatusOrFails s t [.ioError] := by
  rcases encodeStep_pixel_or_ioError hpi h with ⟨hstatus, _⟩ | ⟨m, p, rfl⟩
  · exact .inl hstatus
  · exact .inr ⟨.ioError, by simp, p, rfl⟩

theorem encodeTail_status {s t : State} (h : encodeTail s = .next t) : keepsStatusOrFails s t [.ioError] := by
  rcases emit_cases h with ⟨_, rfl⟩ | ⟨_, _, _, rfl⟩
  · exact .inl rfl
  · exact .inr ⟨.ioError, by simp, _, rfl⟩

/-- The error of a failed read of a decode job (60_exceptions.md R221, R225). -/
theorem ReadError.code_mem_decodeErrors (e : ReadError) : e.code ∈ decodeErrors := by
  cases e with
  | ended => simp [ReadError.code]
  | failed => simp [ReadError.code]

theorem decodeStep_status {s t : State} (h : decodeStep s = .next t) :
    keepsStatusOrFails s t decodeErrors := by
  cases hf : fetch s with
  | error e =>
    rw [decodeStep_unread hf] at h
    cases h
    exact .inr ⟨e.code, e.code_mem_decodeErrors, _, rfl⟩
  | ok i =>
    rw [decodeStep_fetched hf] at h
    rcases exec_cases h with ⟨_, _, _, rfl, _⟩ | ⟨_, _, _, rfl⟩
    · exact .inl rfl
    · exact .inr ⟨.ioError, by simp, _, rfl⟩

theorem decodeTail_status {s t : State} (h : decodeTail s = .next t) :
    keepsStatusOrFails s t decodeErrors := by
  rcases decodeTail_cases h with ⟨_, rfl⟩ | ⟨e, _, rfl⟩ | ⟨_, _, _, rfl⟩
  · exact .inl rfl
  · exact .inr ⟨e.code, e.code_mem_decodeErrors, _, rfl⟩
  · exact .inr ⟨.invalidPadding, by simp, _, rfl⟩

/-- Settles O55, by the phases: END completes the job, and BODY and TAIL fail in the errors of their mode only. -/
theorem runningJobErrorKinds : Obligations.RunningJobErrorKinds := by
  unfold Obligations.RunningJobErrorKinds
  intro s t hb hm h
  have hphase : (s.job.mode = .encode ∧ keepsStatusOrFails s t [.ioError]) ∨
      (s.job.mode = .decode ∧ keepsStatusOrFails s t decodeErrors) ∨ t = finishJob s := by
    rcases step_busy_cases hb h with ⟨he, hpi, h⟩ | ⟨he, _, _, _, h⟩ | ⟨_, _, _, h⟩ | ⟨hd, _, h⟩ | ⟨hd, _, _, _, h⟩ |
      ⟨_, _, _, h⟩ | ⟨hillegal, _⟩
    · exact .inl ⟨he, encodeStep_status hpi h⟩
    · exact .inl ⟨he, encodeTail_status h⟩
    · exact .inr (.inr h)
    · exact .inr (.inl ⟨hd, decodeStep_status h⟩)
    · exact .inr (.inl ⟨hd, decodeTail_status h⟩)
    · exact .inr (.inr h)
    · exact absurd hillegal hm
  rcases hphase with ⟨hmode, hkeeps⟩ | ⟨hmode, hkeeps⟩ | rfl
  · rcases hkeeps with hkept | ⟨e, he, p, hfailed⟩
    · exact .inl hkept
    · rw [hfailed, hmode]
      exact .inr (.inr ⟨rfl, rfl, fun _ => List.mem_singleton.1 he, nofun⟩)
  · rcases hkeeps with hkept | ⟨e, he, p, hfailed⟩
    · exact .inl hkept
    · rw [hfailed, hmode]
      exact .inr (.inr ⟨rfl, rfl, nofun, fun _ => by simpa using he⟩)
  · exact .inr (.inl ⟨rfl, rfl⟩)

end Sys2Proof.Machine
end

section
/-! PROOFS. Progress and the limits of a job (O56, O28, O45, O47): every running job ends, what one opcode can add to `op`, which
cache the next job begins with, and that a running job does not see software. -/

namespace Sys2Proof.Machine

open Sys2Proof

/-! ### Every job ends -/

/-- The run of one job is a run of the machine, of no more steps (43_interfaces.md R200). -/
theorem exists_run_eq_runJob (n : Nat) (s : State) : ∃ k ≤ n, Host.Core.run core k s = .next (runJob n s) := by
  induction n generalizing s with
  | zero => exact ⟨0, Nat.le_refl 0, rfl⟩
  | succ n ih =>
    by_cases hb : s.status.state = .busy
    · obtain ⟨t, ht⟩ := step_answers s
      obtain ⟨k, hk, hrun⟩ := ih t
      have hstep : core.step s = .next t := ht
      refine ⟨k + 1, Nat.succ_le_succ hk, ?_⟩
      simp only [Host.Core.run, hstep]
      rw [hrun, runJob_step hb ht]
    · exact ⟨0, Nat.zero_le _, by rw [runJob_idle hb]; rfl⟩

/-- A running job without a legal mode ends with its first step (log 13). -/
theorem runJob_illegal_ends {s : State} (hb : s.status.state = .busy) (hm : s.job.mode = .illegal) :
    (runJob (stepsLeft s) s).status.state ≠ .busy := by
  have hstep : step s = .next (s.raise .invalidJob Progress.zero) := by rw [step_busy hb, phase_illegal hm]
  have hleft : stepsLeft s = 0 + 1 := by simp only [stepsLeft, hm]
  rw [hleft, runJob_step hb hstep, runJob]
  nofun

/-- Settles O56: `runJob` ends the job within `stepsLeft`, since every step but the last leaves fewer, and it is a run of the
machine. -/
theorem everyJobEnds : Obligations.EveryJobEnds := by
  unfold Obligations.EveryJobEnds
  intro s hb
  obtain ⟨k, hk, hrun⟩ := exists_run_eq_runJob (stepsLeft s) s
  refine ⟨k, _, hk, hrun, ?_⟩
  by_cases hm : s.job.mode = .illegal
  · exact runJob_illegal_ends hb hm
  · exact runJob_ends hm (Nat.sub_le _ _)

/-! ### The work of an opcode -/

/-- The longest run is LRUN's with all its ten bits set (30_encoding.md R78). -/
theorem pixelCount_le (i : Instr) : pixelCount i ≤ 1087 := by
  cases i with
  | lrun v => simp only [pixelCount, lrunLength]; omega
  | run n => simp only [pixelCount, runLength]; omega
  | maxrun => simp [pixelCount, runCap]
  | _ => simp [pixelCount]

/-- Settles O28: `op` grows by the opcode's count, cut to the pixels owed, or the sink has refused a byte. -/
theorem opcodeWorkIsBounded : Obligations.OpcodeWorkIsBounded := by
  unfold Obligations.OpcodeWorkIsBounded
  intro i s t h
  rcases exec_cases h with ⟨_, _, _, rfl, _⟩ | ⟨_, _, _, rfl⟩
  · have hpos := pixelCount_pos i
    have hle := pixelCount_le i
    left
    simp only [State.countOut_op, State.setOut_op, State.advance_op, State.setCache_op, State.setPx_op, clampRun]
    omega
  · exact .inr ⟨rfl, rfl⟩

/-! ### The carried cache -/

/-- A step that keeps `STATUS` or fails does not complete a running job. -/
theorem keepsStatusOrFails.not_done {s t : State} {es : List ErrCode} (h : keepsStatusOrFails s t es)
    (hb : s.status.state = .busy) : t.status.state ≠ .done := by
  rcases h with hkept | ⟨e, _, p, hfailed⟩
  · rw [hkept, hb]; nofun
  · rw [hfailed]; nofun

/-- Only END completes a job (10_state.md R40 item 4). -/
theorem eq_finishJob_of_done {s t : State} (hb : s.status.state = .busy) (h : step s = .next t)
    (hdone : t.status.state = .done) : t = finishJob s := by
  rcases step_busy_cases hb h with ⟨_, hpi, h⟩ | ⟨_, _, _, _, h⟩ | ⟨_, _, _, rfl⟩ | ⟨_, _, h⟩ | ⟨_, _, _, _, h⟩ |
    ⟨_, _, _, rfl⟩ | ⟨_, rfl⟩
  · exact absurd hdone ((encodeStep_status hpi h).not_done hb)
  · exact absurd hdone ((encodeTail_status h).not_done hb)
  · rfl
  · exact absurd hdone ((decodeStep_status h).not_done hb)
  · exact absurd hdone ((decodeTail_status h).not_done hb)
  · rfl
  · cases hdone

/-- A job that runs after START began with its `CACHE_IN` loaded (10_state.md R35). -/
theorem startJob_eq_of_busy {s : State} (h : (startJob s).status.state = .busy) :
    startJob s = (s.setStatus Status.started).jobStart := by
  rcases startJob_cases s with ⟨_, hs⟩ | ⟨_, _, _, _, _, hs, _⟩
  · exact hs
  · rw [hs] at h
    cases h

/-- Settles O45: only END completes a job, its image loads back as the tables, and START sets `PX` whatever the image. -/
theorem carriedCacheContinues : Obligations.CarriedCacheContinues := by
  unfold Obligations.CarriedCacheContinues
  intro s t hb h hdone hnext
  obtain rfl := eq_finishJob_of_done hb h hdone
  have hidle : (finishJob s).status.state ≠ .busy := by rw [hdone]; nofun
  have hcarried : ((finishJob s).perform .carryCache).job.cacheIn = .image s.cache.toImage := by
    rw [perform_carryCache hidle]; rfl
  have hstill : ((finishJob s).perform .carryCache).status.state ≠ .busy := by rwa [perform_carryCache hidle]
  rw [perform_start hstill] at hnext ⊢
  rw [startJob_eq_of_busy hnext]
  refine ⟨?_, rfl⟩
  calc ((finishJob s).perform .carryCache).job.cacheIn.load
    _ = Cache.ofImage s.cache.toImage := by rw [hcarried]; rfl
    _ = s.cache := ofImage_toImage s.cache

/-! ### Software while a job runs -/

/-- Settles O47: every action but a power cycle asks first whether the engine is BUSY. -/
theorem busyJobIgnoresSoftware : Obligations.BusyJobIgnoresSoftware := by
  unfold Obligations.BusyJobIgnoresSoftware
  intro s a hb hne
  cases a
  case powerCycle => exact absurd rfl hne
  all_goals exact if_pos hb

end Sys2Proof.Machine
end
